-- ==== Sys2Proof/Word.lean ====
section
/-! DEFINITION. The block's word types. -/

namespace Sys2Proof

/-- A *word*: an unsigned 32-bit integer (00_scope.md R14). -/
abbrev Word := BitVec 32

/-- An operation word: OPC[15:8], IMM8[7:0] (30_encoding.md R69). -/
abbrev OpWord := BitVec 16

end Sys2Proof
end

