-- ==== Sys2Proof/Syntax.lean ====
section
/-! DEFINITION. The operations of the block: one constructor per row of the operation map (30_encoding.md R71).
An operation word holds no register fields (R72): operands other than the immediate come from the listing line,
which the state holds as `Binding`. -/

namespace Sys2Proof

/-- The 28 operations (30_encoding.md R71), with the immediate of R70 where there is one. -/
inductive Instr where
  | add                         -- ADD          40_round_functions.md R81
  | and                         -- AND          R82
  | or                          -- OR           R83
  | xor                         -- XOR          R84
  | not                         -- NOT          R85
  | rotr (n : BitVec 5)         -- ROTR #n      R86
  | shr (n : BitVec 5)          -- SHR #n       R87
  | bsig0                       -- BSIG0        R88
  | bsig1                       -- BSIG1        R89
  | ch                          -- CH           R90
  | maj                         -- MAJ          R91
  | ssig0                       -- SSIG0        41_message_schedule.md R96
  | ssig1                       -- SSIG1        R97
  | expandStep (i : BitVec 6)   -- EXPAND_STEP #i  R98
  | expand                      -- EXPAND       R99
  | padgen                      -- PADGEN       R101
  | initIv                      -- INIT_IV      42_compression.md R106
  | round (i : BitVec 6)        -- ROUND #i     R108
  | compressW                   -- COMPRESS.W   R109
  | compressP                   -- COMPRESS.P   R111
  | powHash                     -- POW_HASH     43_pow_layer.md R116
  | chainHash                   -- CHAIN_HASH   44_chain_layer.md R121
  | nonceGen                    -- NONCE_GEN    45_search_loop.md R126
  | test                        -- TEST         R127
  | record                      -- RECORD       R128
  | trial                       -- TRIAL        R130
  | laneRun                     -- LANE_RUN     R131
  | launch                      -- LAUNCH       R132
  deriving DecidableEq, Repr

end Sys2Proof
end

