-- ==== Sys2Proof/WellFormed.lean ====
section
/-! DEFINITION. The one check on an operation that its fields' widths do not make. -/

namespace Sys2Proof

/-- `EXPAND_STEP` has an index in 16..63 (30_encoding.md R70 (c), R73 (c)); every other operation is well-formed as
its fields' widths are those of R70. -/
def Instr.wf : Instr → Bool
  | .expandStep i => decide (16 ≤ i.toNat)
  | .add | .and | .or | .xor | .not | .rotr _ | .shr _ | .bsig0 | .bsig1 | .ch | .maj | .ssig0 | .ssig1
  | .expand | .padgen | .initIv | .round _ | .compressW | .compressP | .powHash | .chainHash
  | .nonceGen | .test | .record | .trial | .laneRun | .launch => true

end Sys2Proof
end

