-- ==== Sys2Proof/Decode.lean ====
section
/-! DEFINITION. The decoder of operation words, total on all 16-bit words and rejecting by name
(30_encoding.md R69 to R74), and the encoder written from the same operation map (R71). -/

namespace Sys2Proof

/-- Why a word is *invalid* (30_encoding.md R73). -/
inductive Invalid where
  /-- (a) OPC is not in the operation map. -/
  | opcode
  /-- (b) a bit of IMM8 that must be 0 is 1. -/
  | immediate
  /-- (c) `EXPAND_STEP` with an index below 16. -/
  | scheduleIndex
  deriving DecidableEq, Repr

/-- `OPC = word[15:8]` (R69). -/
def opcField (w : OpWord) : BitVec 8 := w.extractLsb' 8 8

/-- `IMM8 = word[7:0]` (R69). -/
def immField (w : OpWord) : BitVec 8 := w.extractLsb' 0 8

/-- R70 (d): every bit of IMM8 must be 0. -/
def withNoImm (imm : BitVec 8) (i : Instr) : Except Invalid Instr :=
  if imm = 0#8 then .ok i else .error .immediate

/-- R70 (a): an amount in IMM8[4:0]; IMM8[7:5] must be 0. -/
def withAmount (imm : BitVec 8) (i : BitVec 5 → Instr) : Except Invalid Instr :=
  if imm.extractLsb' 5 3 = 0#3 then .ok (i (imm.extractLsb' 0 5)) else .error .immediate

/-- R70 (b): an index in IMM8[5:0]; IMM8[7:6] must be 0. -/
def withIndex (imm : BitVec 8) (i : BitVec 6 → Instr) : Except Invalid Instr :=
  if imm.extractLsb' 6 2 = 0#2 then .ok (i (imm.extractLsb' 0 6)) else .error .immediate

/-- R73 (c): the index an `EXPAND_STEP` names is at least 16. -/
def checkIndex : Except Invalid Instr → Except Invalid Instr
  | .ok i => if i.wf then .ok i else .error .scheduleIndex
  | .error v => .error v

/-- The decoder: one row of the operation map with its fields, or *invalid* (R71, R73). -/
def decode (w : OpWord) : Except Invalid Instr :=
  let opc := opcField w
  let imm := immField w
  if opc = 0x01#8 then withNoImm imm .add
  else if opc = 0x02#8 then withNoImm imm .and
  else if opc = 0x03#8 then withNoImm imm .or
  else if opc = 0x04#8 then withNoImm imm .xor
  else if opc = 0x05#8 then withNoImm imm .not
  else if opc = 0x06#8 then withAmount imm .rotr
  else if opc = 0x07#8 then withAmount imm .shr
  else if opc = 0x10#8 then withNoImm imm .bsig0
  else if opc = 0x11#8 then withNoImm imm .bsig1
  else if opc = 0x12#8 then withNoImm imm .ch
  else if opc = 0x13#8 then withNoImm imm .maj
  else if opc = 0x20#8 then withNoImm imm .ssig0
  else if opc = 0x21#8 then withNoImm imm .ssig1
  else if opc = 0x22#8 then checkIndex (withIndex imm .expandStep)
  else if opc = 0x23#8 then withNoImm imm .expand
  else if opc = 0x24#8 then withNoImm imm .padgen
  else if opc = 0x30#8 then withNoImm imm .initIv
  else if opc = 0x31#8 then withIndex imm .round
  else if opc = 0x32#8 then withNoImm imm .compressW
  else if opc = 0x33#8 then withNoImm imm .compressP
  else if opc = 0x40#8 then withNoImm imm .powHash
  else if opc = 0x50#8 then withNoImm imm .chainHash
  else if opc = 0x60#8 then withNoImm imm .nonceGen
  else if opc = 0x61#8 then withNoImm imm .test
  else if opc = 0x62#8 then withNoImm imm .record
  else if opc = 0x63#8 then withNoImm imm .trial
  else if opc = 0x64#8 then withNoImm imm .laneRun
  else if opc = 0x65#8 then withNoImm imm .launch
  else .error .opcode

/-- The operation code of each operation (R71). -/
def opcode : Instr → BitVec 8
  | .add => 0x01#8
  | .and => 0x02#8
  | .or => 0x03#8
  | .xor => 0x04#8
  | .not => 0x05#8
  | .rotr _ => 0x06#8
  | .shr _ => 0x07#8
  | .bsig0 => 0x10#8
  | .bsig1 => 0x11#8
  | .ch => 0x12#8
  | .maj => 0x13#8
  | .ssig0 => 0x20#8
  | .ssig1 => 0x21#8
  | .expandStep _ => 0x22#8
  | .expand => 0x23#8
  | .padgen => 0x24#8
  | .initIv => 0x30#8
  | .round _ => 0x31#8
  | .compressW => 0x32#8
  | .compressP => 0x33#8
  | .powHash => 0x40#8
  | .chainHash => 0x50#8
  | .nonceGen => 0x60#8
  | .test => 0x61#8
  | .record => 0x62#8
  | .trial => 0x63#8
  | .laneRun => 0x64#8
  | .launch => 0x65#8

/-- The immediate field of each operation (R70). -/
def imm8 : Instr → BitVec 8
  | .rotr n => n.setWidth 8
  | .shr n => n.setWidth 8
  | .expandStep i => i.setWidth 8
  | .round i => i.setWidth 8
  | .add | .and | .or | .xor | .not | .bsig0 | .bsig1 | .ch | .maj | .ssig0 | .ssig1 | .expand | .padgen
  | .initIv | .compressW | .compressP | .powHash | .chainHash | .nonceGen | .test | .record | .trial
  | .laneRun | .launch => 0#8

/-- The encoder: OPC in bits 15..8, IMM8 in bits 7..0 (R69). -/
def encode (i : Instr) : OpWord := opcode i ++ imm8 i

/-- The operation the decoder reads from the table's bits: every row is one 16-bit word, whose bit 0 is the table's
bit 0 (R69, R74). No agent stores these words, so there is no byte order to undo. -/
def decodeTableWord (nbits w : Nat) : Option Instr :=
  if nbits ≤ 16 ∧ w < 2 ^ nbits then
    match decode (BitVec.ofNat 16 w) with
    | .ok i => some i
    | .error _ => none
  else none

end Sys2Proof
end

