-- ==== Sys2Proof/Config.lean ====
section
/-! DEFINITION. What is fixed for an instance of the block (00_scope.md R7 to R12, 10_state.md R38) and the free
values. The parameters are plain data which the state carries and no step writes, so every statement about all states
holds for every instance. -/

namespace Sys2Proof

/-- `SUCCESS_PRED` (00_scope.md R9): a total Boolean function of the final digest, named by plain data. -/
inductive SuccessPred where
  /-- The default: the digest's last word is zero. -/
  | lastWordZero
  /-- The last word is zero under a mask (the predicate of program P5 has the mask 0x0000000F). -/
  | lastWordMasked (mask : Word)
  /-- Any other replacement of the predicate, by number: `Config.customPred`. -/
  | custom (id : Nat)
  deriving DecidableEq, Repr

/-- `HOST_BYTE_ORDER` (00_scope.md R11): which byte of a word (0 its least significant) the host lays at byte offset
0, 1, 2 and 3. No rule of the block depends on it. -/
structure ByteOrder where
  at0 : Fin 4
  at1 : Fin 4
  at2 : Fin 4
  at3 : Fin 4
  deriving DecidableEq, Repr

/-- `FOUND_VALUE` (00_scope.md R10): a word a model admits only where it is not zero. -/
structure FoundValue where
  word : Word
  nonzero : (word == 0#32) = false
  deriving DecidableEq, Repr

/-- The parameters of an instance (10_state.md R38). -/
structure Params where
  /-- `LANES` (R7). -/
  lanes : Nat
  /-- `ITERS` (R8). -/
  iters : Nat
  /-- `SUCCESS_PRED` (R9). -/
  pred : SuccessPred
  /-- `FOUND_VALUE` (R10). -/
  foundValue : FoundValue
  /-- `HOST_BYTE_ORDER` (R11). -/
  byteOrder : ByteOrder
  deriving DecidableEq, Repr

/-- The four bytes of a word lie at four different offsets. -/
def ByteOrder.wf (o : ByteOrder) : Bool := decide ([o.at0, o.at1, o.at2, o.at3].Nodup)

/-- The ranges of the parameters: `0 ≤ LANES ≤ 2^32` (R7), `0 ≤ ITERS ≤ 2^32 − 1` (R8). That
`FOUND_VALUE` is not zero (R10) is in its type. -/
def Params.wf (p : Params) : Bool :=
  decide (p.lanes ≤ 2 ^ 32) && decide (p.iters ≤ 2 ^ 32 - 1) && p.byteOrder.wf

/-- FREE VALUE: a success predicate the spec does not write out (00_scope.md R9, U5; log 10). -/
opaque Config.customPred : Nat → Vector Word 8 → Bool

/-- FREE VALUE: which unfinished lane the platform runs next (20_memory.md R54, U4; log 8). -/
opaque Config.laneChoice : Nat → Nat

/-- FREE VALUE: what word `k` of `OUT` holds after a reset in `Running` (70_reset_and_hazards.md R161, U15; log 11). -/
opaque Config.outAfterReset : Nat → Nat → Word

end Sys2Proof
end

