-- ==== Sys2Proof/Machine/Tables.lean ====
section
/-! DEFINITION. The read-only tables (10_state.md R30 to R35, 41_message_schedule.md R102) and the parameters of the
instance that `State.reset` is. -/

namespace Sys2Proof.Machine

/-- `ROM` (20_memory.md R42 (c), R45): the five tables every lane reads and none writes. -/
structure Rom where
  iv : Vector Word 8
  /-- Row r holds `K[8r]` to `K[8r+7]` (R31). -/
  k : Vector (Vector Word 8) 8
  powPad : Vector Word 3
  padRaw : Vector Word 16
  wPad : Vector Word 64
  deriving DecidableEq, Repr

/-- `IV[0..7]` (R30). -/
def ivTable : Vector Word 8 :=
  #v[0x6a09e667, 0xbb67ae85, 0x3c6ef372, 0xa54ff53a, 0x510e527f, 0x9b05688c, 0x1f83d9ab, 0x5be0cd19]

/-- `K`, the round constants (R31), in the rule's own layout: row r holds `K[8r]` to `K[8r+7]`. -/
def kRows : Vector (Vector Word 8) 8 :=
  #v[#v[0x428a2f98, 0x71374491, 0xb5c0fbcf, 0xe9b5dba5, 0x3956c25b, 0x59f111f1, 0x923f82a4, 0xab1c5ed5],
    #v[0xd807aa98, 0x12835b01, 0x243185be, 0x550c7dc3, 0x72be5d74, 0x80deb1fe, 0x9bdc06a7, 0xc19bf174],
    #v[0xe49b69c1, 0xefbe4786, 0x0fc19dc6, 0x240ca1cc, 0x2de92c6f, 0x4a7484aa, 0x5cb0a9dc, 0x76f988da],
    #v[0x983e5152, 0xa831c66d, 0xb00327c8, 0xbf597fc7, 0xc6e00bf3, 0xd5a79147, 0x06ca6351, 0x14292967],
    #v[0x27b70a85, 0x2e1b2138, 0x4d2c6dfc, 0x53380d13, 0x650a7354, 0x766a0abb, 0x81c2c92e, 0x92722c85],
    #v[0xa2bfe8a1, 0xa81a664b, 0xc24b8b70, 0xc76c51a3, 0xd192e819, 0xd6990624, 0xf40e3585, 0x106aa070],
    #v[0x19a4c116, 0x1e376c08, 0x2748774c, 0x34b0bcb5, 0x391c0cb3, 0x4ed8aa4a, 0x5b9cca4f, 0x682e6ff3],
    #v[0x748f82ee, 0x78a5636f, 0x84c87814, 0x8cc70208, 0x90befffa, 0xa4506ceb, 0xbef9a3f7, 0xc67178f2]]

/-- `POWPAD[0..2]` (R32): the pad marker, zero, and the bit length 416. -/
def powPadTable : Vector Word 3 := #v[0x80000000, 0x00000000, 0x000001a0]

/-- `PADRAW[0..15]` (R33): the pad marker, fourteen zero words, and the bit length 512. -/
def padRawTable : Vector Word 16 :=
  #v[0x80000000, 0, 0, 0, 0, 0, 0, 0, 0, 0, 0, 0, 0, 0, 0, 0x00000200]

/-- `WPAD[0..63]`, the padding-block schedule (41_message_schedule.md R102). -/
def wPadTable : Vector Word 64 :=
  #v[0x80000000, 0x00000000, 0x00000000, 0x00000000, 0x00000000, 0x00000000, 0x00000000, 0x00000000,
    0x00000000, 0x00000000, 0x00000000, 0x00000000, 0x00000000, 0x00000000, 0x00000000, 0x00000200,
    0x80000000, 0x01400000, 0x00205000, 0x00005088, 0x22000800, 0x22550014, 0x05089742, 0xa0000020,
    0x5a880000, 0x005c9400, 0x0016d49d, 0xfa801f00, 0xd33225d0, 0x11675959, 0xf6e6bfda, 0xb30c1549,
    0x08b2b050, 0x9d7c4c27, 0x0ce2a393, 0x88e6e1ea, 0xa52b4335, 0x67a16f49, 0xd732016f, 0x4eeb2e91,
    0x5dbf55e5, 0x8eee2335, 0xe2bc5ec2, 0xa83f4394, 0x45ad78f7, 0x36f3d0cd, 0xd99c05e8, 0xb0511dc7,
    0x69bc7ac4, 0xbd11375b, 0xe3ba71e5, 0x3b209ff2, 0x18feee17, 0xe25ad9e7, 0x13375046, 0x0515089d,
    0x4f0d0f04, 0x2627484e, 0x310128d2, 0xc668b434, 0x420841cc, 0x62d311b8, 0xe59ba771, 0x85a7a484]

/-- The tables after reset, and for ever (10_state.md R35, R41). -/
def romStandard : Rom where
  iv := ivTable
  k := kRows
  powPad := powPadTable
  padRaw := padRawTable
  wPad := wPadTable

/-- Big endian: the word's most significant byte lies first. -/
def bigEndian : ByteOrder where
  at0 := 3
  at1 := 2
  at2 := 1
  at3 := 0

/-- DESIGN CHOICE (log 3; unsafe): the spec leaves the counts and the byte order open (00_scope.md R7, R8, R11); the
predicate is R9's default and the found value R10's. -/
def paramsReset : Params where
  lanes := 1
  iters := 1
  pred := .lastWordZero
  foundValue := { word := 0x00000001, nonzero := rfl }
  byteOrder := bigEndian

end Sys2Proof.Machine
end

