-- ==== Sys2Proof/Machine/State.lean ====
section
/-! DEFINITION. The state of the block and of its host interface as plain data, the reasons a step can stop, and the
state after reset (10_state.md, 20_memory.md R42 to R44, 45_search_loop.md R143). -/

namespace Sys2Proof.Machine

/-- What a lane register holds: a value, or nothing yet in the current batch. *Unwritten* is the spec's own state of a
lane register: reset and `LAUNCH` leave it so and a read of it is a fault (10_state.md R27, R41; log 1). -/
inductive Reg (α : Type) where
  | unwritten
  | holds (v : α)
  deriving DecidableEq, Repr

/-- `HP` or `HC`: eight words (10_state.md R22). -/
abbrev HashRegs := Vector (Reg Word) 8

/-- `WP` or `WC`: sixty-four words (10_state.md R23). -/
abbrev SchedRegs := Vector (Reg Word) 64

/-- The lane sequencer `LSEQ` (10_state.md R28). -/
inductive LaneSeq where
  | idle
  | run (j : Nat)
  | done
  deriving DecidableEq, Repr

/-- The batch status `PHASE` (10_state.md R37). -/
inductive Phase where
  | idle
  | running
  | done
  deriving DecidableEq, Repr

/-- One lane: the registers of 10_state.md R20 to R24 and the sequencer of R28. -/
structure Lane where
  a : Reg Word
  b : Reg Word
  c : Reg Word
  d : Reg Word
  e : Reg Word
  f : Reg Word
  g : Reg Word
  h : Reg Word
  t1 : Reg Word
  t2 : Reg Word
  hp : HashRegs
  hc : HashRegs
  wp : SchedRegs
  wc : SchedRegs
  nonce : Reg Word
  j : Reg Nat
  lid : Nat
  hit : Reg Bool
  lseq : LaneSeq
  deriving DecidableEq, Repr

/-- Words by index (20_memory.md R42), as (index, word) pairs in the canonical form `Memory.wf`. -/
abbrev Memory := List (Nat × Word)

/-- What a word nothing has written reads as. DESIGN CHOICE (log 4; unsafe): the spec leaves host memory's contents
to the host. -/
def Memory.unlisted : Word := 0

/-- Strictly rising indices from `lo` on, none of them listing what an unlisted word reads as. -/
def Memory.wfFrom : Nat → Memory → Bool
  | _, [] => true
  | lo, (k, v) :: rest => decide (lo ≤ k) && decide (v ≠ Memory.unlisted) && Memory.wfFrom (k + 1) rest

/-- The canonical form: equal memories are equal lists. -/
def Memory.wf (m : Memory) : Bool := Memory.wfFrom 0 m

/-- A buffer the host has placed: its byte address (`HDR_BASE` or `OUT_BASE`, 00_scope.md R12), its size in words and
its contents. -/
structure Buffer where
  base : Nat
  words : Nat
  cells : Memory
  deriving DecidableEq, Repr

/-- The contents are in canonical form and list only words the buffer has. -/
def Buffer.wf (b : Buffer) : Bool := Memory.wf b.cells && b.cells.all (fun c => decide (c.1 < b.words))

/-- The layer that invokes an operation: `HP` and `WP`, or `HC` and `WC` (30_encoding.md R72). -/
inductive Layer where
  | pow
  | chain
  deriving DecidableEq, Repr

/-- The schedule being compressed (42_compression.md R108, R111). -/
inductive SchedName where
  | wp
  | wc
  | wpad
  deriving DecidableEq, Repr

/-- A register, or an element of one, that holds one word (30_encoding.md R75). -/
inductive WordReg where
  | a | b | c | d | e | f | g | h | t1 | t2 | nonce
  | hp (k : Fin 8)
  | hc (k : Fin 8)
  | wp (k : Fin 64)
  | wc (k : Fin 64)
  deriving DecidableEq, Repr

/-- A source operand of a word operation (30_encoding.md R75). -/
inductive Src where
  | reg (r : WordReg)
  | lit (w : Word)
  deriving DecidableEq, Repr

/-- The operands a listing line or a request gives beside the operation word (30_encoding.md R72, R75;
45_search_loop.md R132). An operation reads the ones its rule names. -/
structure Binding where
  /-- The lane that performs the operation. -/
  lane : Nat
  /-- The result of a word operation. -/
  dst : WordReg
  /-- The first, second and third source word. -/
  x : Src
  y : Src
  z : Src
  /-- The layer of `INIT_IV`, `EXPAND_STEP`, `EXPAND` and `COMPRESS.W`. -/
  layer : Layer
  /-- The schedule of `ROUND`. -/
  sched : SchedName
  /-- The operand of `LAUNCH`. -/
  offset : Word
  deriving DecidableEq, Repr

/-- DESIGN CHOICE (log 7): the operands where the host gives an operation word alone. -/
def Binding.default : Binding where
  lane := 0
  dst := .t1
  x := .lit 0
  y := .lit 0
  z := .lit 0
  layer := .pow
  sched := .wp
  offset := 0

/-- What the host does (45_search_loop.md R143). `LAUNCH` is the one operation it asks for, and no move reads or writes
a lane register or `ROM` (60_exceptions.md R154, 10_state.md R26, R35). -/
inductive HostMove where
  /-- `LAUNCH offset`. -/
  | launch (offset : Word)
  /-- Write word `i` of the header buffer. -/
  | writeHdr (i : Nat) (v : Word)
  /-- Write word `i` of the output buffer. -/
  | writeOut (i : Nat) (v : Word)
  /-- Write 0 to every word of the output buffer. -/
  | zeroOut
  /-- Give the block a header buffer of `words` words at byte address `base`. -/
  | placeHdr (base words : Nat)
  /-- Give the block an output buffer of `words` words at byte address `base`. -/
  | placeOut (base words : Nat)
  /-- Read `PHASE`, in any phase (10_state.md R37). -/
  | readPhase
  /-- Wait for `PHASE = Done`. -/
  | wait
  /-- Read every word of the output buffer. -/
  | collect
  deriving DecidableEq, Repr

/-- What reaches the block from outside: a move of the host, an operation of a hand-built sequence such as the programs
of 95_test_vectors.md Part 3 (10_state.md R27), or a reset (70_reset_and_hazards.md R161). -/
inductive Request where
  | host (move : HostMove)
  | listing (word : OpWord) (bind : Binding)
  | reset
  deriving DecidableEq, Repr

/-- Why a run stops with a fault. -/
inductive Fault where
  /-- `fault(UnwrittenRegister)`: a read of a lane register that holds no value in the current batch, raised by
  `Reg.get` for every operation that reads one (10_state.md R27). SAFE: the spec states this fault. -/
  | unwrittenRegister
  /-- A read of a header word the buffer does not have, the source's "undefined read", raised by `Buffer.read`
  (60_exceptions.md R147). SAFE: the model stops; a launch refuses such a buffer first. -/
  | undefinedRead
  /-- A write of a buffer word the buffer does not have, the source's "undefined write", raised by `Buffer.write`
  (60_exceptions.md R148). SAFE: the model stops; a launch refuses such a buffer first. -/
  | undefinedWrite
  deriving DecidableEq, Repr

/-- The conditions of admission of `LAUNCH`, in the order in which a failure is named (60_exceptions.md R150). -/
inductive LaunchCondition where
  | phase
  | headerSize
  | outputSize
  | placement
  deriving DecidableEq, Repr

/-- Why the model gives a request no meaning. -/
inductive Refusal where
  /-- An operation with no meaning yet, raised by `exec`'s arms alone. SAFE: the model stops. -/
  | notModelled (mnemonic : String)
  /-- `refuse(InvalidOperation)`: raised by the decoder's verdict in `cycle`, and by `execExpandStep` for an index no
  word spells (30_encoding.md R73). SAFE: the spec states this refusal. -/
  | invalidOperation (why : Invalid)
  /-- `refuse(LaunchContract)` with the first failing condition: raised by `execLaunch` (45_search_loop.md R132,
  60_exceptions.md R147, R148, R150). A step answers it with the block as it was (R152, R160; `goOn`, log 33). SAFE: the
  spec states this refusal. -/
  | launchContract (failing : LaunchCondition)
  /-- The request names a lane the instance does not have: raised by every operation of a lane (10_state.md R19; lanes
  are [0, LANES)). SAFE: there is nothing for the operation to act on. -/
  | noSuchLane
  /-- A host access to a buffer in a phase that does not allow it: raised by the host moves (20_memory.md R53, R63,
  70_reset_and_hazards.md R170). SAFE: the spec gives the host no such move. -/
  | hostAccess
  deriving DecidableEq, Repr

/-- The block, its host memory and its host interface. -/
structure State where
  /-- The instance's parameters; no step writes them (10_state.md R38). -/
  cfg : Params
  /-- The read-only tables; no step writes them (10_state.md R35). -/
  rom : Rom
  /-- `LANE[0]`, `LANE[1]`, ... (10_state.md R19). -/
  lanes : List Lane
  /-- `OFFSET` (10_state.md R36). -/
  offset : Word
  /-- `PHASE` (10_state.md R37). -/
  phase : Phase
  /-- `HDR` (20_memory.md R43). -/
  hdr : Buffer
  /-- `OUT` (20_memory.md R44). -/
  out : Buffer
  /-- The model's own: the 64 words the last `PADGEN` gave (41_message_schedule.md R101; log 14). -/
  padgen : SchedRegs
  /-- The model's own: what is still asked for from outside, the next first (log 6). -/
  pending : List Request
  /-- The model's own: the operands of the operation being served (log 7). -/
  bind : Binding
  /-- The model's own: the counter the free values are applied to (logs 8 and 11). -/
  tick : Nat
  /-- `PHASE` as the host last read it or got it from a wait (10_state.md R37, 45_search_loop.md R143). -/
  seenPhase : Reg Phase
  /-- The result words the host's last collection got (45_search_loop.md R143). -/
  result : Reg (List Word)
  /-- The condition the last refused `LAUNCH` failed, as the refusal named it (60_exceptions.md R150; log 33). -/
  refusal : Reg LaunchCondition
  deriving DecidableEq, Repr

/-- A lane whose registers are unwritten (10_state.md R41; 45_search_loop.md R132). -/
def Lane.blank (lid : Nat) (lseq : LaneSeq) : Lane where
  a := .unwritten
  b := .unwritten
  c := .unwritten
  d := .unwritten
  e := .unwritten
  f := .unwritten
  g := .unwritten
  h := .unwritten
  t1 := .unwritten
  t2 := .unwritten
  hp := Vector.replicate 8 .unwritten
  hc := Vector.replicate 8 .unwritten
  wp := Vector.replicate 64 .unwritten
  wc := Vector.replicate 64 .unwritten
  nonce := .unwritten
  j := .unwritten
  lid := lid
  hit := .unwritten
  lseq := lseq

/-- The state after reset of the instance `cfg` whose host memory holds `hdr` and `out` (10_state.md R41,
70_reset_and_hazards.md R161): reset does not change host memory. -/
def State.resetOf (cfg : Params) (hdr out : Buffer) : State where
  cfg := cfg
  rom := romStandard
  lanes := (List.range cfg.lanes).map (fun l => Lane.blank l .idle)
  offset := 0
  phase := .idle
  hdr := hdr
  out := out
  padgen := Vector.replicate 64 .unwritten
  pending := []
  bind := Binding.default
  tick := 0
  seenPhase := .unwritten
  result := .unwritten
  refusal := .unwritten

/-- The machine right after reset (10_state.md R41), with buffers of the sizes of 00_scope.md R13 whose words nothing
has written (logs 2, 3 and 4). -/
def State.reset : State :=
  State.resetOf paramsReset { base := 0, words := 21, cells := [] } { base := 1024, words := 129, cells := [] }

end Sys2Proof.Machine
end

