-- ==== Sys2Proof/Machine/Words.lean ====
section
/-! DEFINITION. The word operations, the round functions and the schedule functions as pure functions of words
(40_round_functions.md R81 to R91, 41_message_schedule.md R96 and R97). -/

namespace Sys2Proof.Machine

/-- `ADD(x, y) = (x + y) mod 2^32` (R81). -/
def addW (x y : Word) : Word := BitVec.ofNat 32 (x.toNat + y.toNat)

/-- `AND` (R82). -/
def andW (x y : Word) : Word := x &&& y

/-- `OR` (R83). -/
def orW (x y : Word) : Word := x ||| y

/-- `XOR` (R84). -/
def xorW (x y : Word) : Word := x ^^^ y

/-- `NOT(x) = 0xFFFFFFFF ^ x` (R85). -/
def notW (x : Word) : Word := 0xFFFFFFFF#32 ^^^ x

/-- `ROTR(x, n)`: the amount is taken modulo 32 (R86). -/
def rotrW (x : Word) (n : Nat) : Word :=
  let m := n % 32
  if m = 0 then x else (x >>> m) ||| (x <<< (32 - m))

/-- `SHR(x, n)` for an amount in 0..31, zeros entering at bit 31 (R87). -/
def shrW (x : Word) (n : BitVec 5) : Word := x >>> n.toNat

/-- `BSIG0` (R88). -/
def bsig0W (a : Word) : Word := xorW (xorW (rotrW a 2) (rotrW a 13)) (rotrW a 22)

/-- `BSIG1` (R89). -/
def bsig1W (e : Word) : Word := xorW (xorW (rotrW e 6) (rotrW e 11)) (rotrW e 25)

/-- `CH` (R90). -/
def chW (e f g : Word) : Word := xorW (andW e f) (andW (notW e) g)

/-- `MAJ` (R91). -/
def majW (a b c : Word) : Word := xorW (xorW (andW a b) (andW a c)) (andW b c)

/-- `SSIG0` (41_message_schedule.md R96). -/
def ssig0W (x : Word) : Word := xorW (xorW (rotrW x 7) (rotrW x 18)) (shrW x 3)

/-- `SSIG1` (R97). -/
def ssig1W (x : Word) : Word := xorW (xorW (rotrW x 17) (rotrW x 19)) (shrW x 10)

end Sys2Proof.Machine
end

