-- ==== Sys2Proof/Machine/Ops.lean ====
section
/-! DEFINITION. The named operations over registers, memory, buffers and lanes. The block raises no exception
(60_exceptions.md R146, R152, R153), so there is no exception to take and none to return from. -/

namespace Sys2Proof.Machine

/-- Read a lane register; a register that holds no value in this batch faults (10_state.md R27). -/
def Reg.get {α : Type} : Reg α → Except Fault α
  | .holds v => .ok v
  | .unwritten => .error .unwrittenRegister

/-- Element `n` of a schedule; every rule's index is below 64. -/
def at64 (n : Nat) : Fin 64 := Fin.ofNat 64 n

/-- Write element `k` of a register group and leave the others. -/
def setAt {n : Nat} (x : Vector (Reg Word) n) (k : Fin n) (v : Word) : Vector (Reg Word) n :=
  x.set k.val (.holds v) k.isLt

/-- Read the word at an index. -/
def Memory.read : Memory → Nat → Word
  | [], _ => Memory.unlisted
  | (k, v) :: rest, i => if k = i then v else Memory.read rest i

/-- Write the word at an index and keep the canonical form: a word that reads as an unlisted one is not listed. -/
def Memory.write : Memory → Nat → Word → Memory
  | [], i, v => if v = Memory.unlisted then [] else [(i, v)]
  | (k, w) :: rest, i, v =>
    if i < k then (if v = Memory.unlisted then (k, w) :: rest else (i, v) :: (k, w) :: rest)
    else if i = k then (if v = Memory.unlisted then rest else (i, v) :: rest)
    else (k, w) :: Memory.write rest i v

/-- `MemRead(buffer + i, 4)` (00_scope.md R17): one whole word. -/
def Buffer.read (b : Buffer) (i : Nat) : Except Fault Word :=
  if i < b.words then .ok (Memory.read b.cells i) else .error .undefinedRead

/-- `MemWrite(buffer + i, 4, v)` (00_scope.md R17): one whole word, written at once (20_memory.md R50). -/
def Buffer.write (b : Buffer) (i : Nat) (v : Word) : Except Fault Buffer :=
  if i < b.words then .ok { b with cells := Memory.write b.cells i v } else .error .undefinedWrite

/-- The bytes of one word in the host's byte-addressed memory (00_scope.md R11), the lowest address first. -/
def hostBytes (o : ByteOrder) (w : Word) : List (BitVec 8) :=
  [w.extractLsb' (8 * o.at0.val) 8, w.extractLsb' (8 * o.at1.val) 8,
   w.extractLsb' (8 * o.at2.val) 8, w.extractLsb' (8 * o.at3.val) 8]

/-- A buffer's words in the host's byte-addressed memory: one cell for each byte, from the buffer's base on
(00_scope.md R11, R12). -/
def Buffer.hostCells (o : ByteOrder) (b : Buffer) : List Host.Cell :=
  (List.range b.words).flatMap fun i =>
    (hostBytes o (Memory.read b.cells i)).mapIdx fun k v => (b.base + 4 * i + k, v)

/-- Put lane `l`'s registers back. -/
def State.setLane (s : State) (l : Nat) (r : Lane) : State := { s with lanes := s.lanes.set l r }

/-- Perform an operation of one lane on the lane the request names; the other lanes and the rest of the state are
untouched (10_state.md R29). -/
def onLane (s : State) (op : Lane → Except Fault Lane) : Host.Outcome State Fault Refusal :=
  match s.lanes[s.bind.lane]? with
  | none => .refused .noSuchLane
  | some r =>
    match op r with
    | .ok r' => .next (s.setLane s.bind.lane r')
    | .error f => .fault f

/-- Perform an operation of one lane that may write `OUT`. -/
def onLaneOut (s : State) (op : Lane → Buffer → Except Fault (Lane × Buffer)) : Host.Outcome State Fault Refusal :=
  match s.lanes[s.bind.lane]? with
  | none => .refused .noSuchLane
  | some r =>
    match op r s.out with
    | .ok (r', out') => .next { s.setLane s.bind.lane r' with out := out' }
    | .error f => .fault f

end Sys2Proof.Machine
end

