-- ==== Sys2Proof/Machine/Operands.lean ====
section
/-! DEFINITION. The operands a listing line names: words of registers, elements, literals, and the hash state and the
schedule of a layer (30_encoding.md R72, R75). -/

namespace Sys2Proof.Machine

/-- The register or element a name stands for. -/
def WordReg.cell (r : Lane) : WordReg → Reg Word
  | .a => r.a
  | .b => r.b
  | .c => r.c
  | .d => r.d
  | .e => r.e
  | .f => r.f
  | .g => r.g
  | .h => r.h
  | .t1 => r.t1
  | .t2 => r.t2
  | .nonce => r.nonce
  | .hp k => r.hp[k]
  | .hc k => r.hc[k]
  | .wp k => r.wp[k]
  | .wc k => r.wc[k]

/-- Write a word to the register or element a name stands for. -/
def WordReg.write (r : Lane) (v : Word) : WordReg → Lane
  | .a => { r with a := .holds v }
  | .b => { r with b := .holds v }
  | .c => { r with c := .holds v }
  | .d => { r with d := .holds v }
  | .e => { r with e := .holds v }
  | .f => { r with f := .holds v }
  | .g => { r with g := .holds v }
  | .h => { r with h := .holds v }
  | .t1 => { r with t1 := .holds v }
  | .t2 => { r with t2 := .holds v }
  | .nonce => { r with nonce := .holds v }
  | .hp k => { r with hp := setAt r.hp k v }
  | .hc k => { r with hc := setAt r.hc k v }
  | .wp k => { r with wp := setAt r.wp k v }
  | .wc k => { r with wc := setAt r.wc k v }

/-- The word a source operand gives; an unwritten register faults (10_state.md R27). -/
def Src.value (r : Lane) : Src → Except Fault Word
  | .reg n => (n.cell r).get
  | .lit w => .ok w

/-- The hash state of a layer: `HP` or `HC` (30_encoding.md R72). -/
def Lane.hash (r : Lane) : Layer → HashRegs
  | .pow => r.hp
  | .chain => r.hc

/-- Write the hash state of a layer. -/
def Lane.setHash (r : Lane) (x : HashRegs) : Layer → Lane
  | .pow => { r with hp := x }
  | .chain => { r with hc := x }

/-- The schedule of a layer: `WP` or `WC` (30_encoding.md R72). -/
def Lane.schedule (r : Lane) : Layer → SchedRegs
  | .pow => r.wp
  | .chain => r.wc

/-- Write the schedule of a layer. -/
def Lane.setSchedule (r : Lane) (w : SchedRegs) : Layer → Lane
  | .pow => { r with wp := w }
  | .chain => { r with wc := w }

/-- Word `i` of the schedule being compressed: a lane's own, or `WPAD` (42_compression.md R112). -/
def schedWord (rom : Rom) (r : Lane) (n : SchedName) (i : Fin 64) : Except Fault Word :=
  match n with
  | .wp => (r.wp[i]).get
  | .wc => (r.wc[i]).get
  | .wpad => .ok rom.wPad[i]

/-- The eight words of a hash state. -/
def hashValue (x : HashRegs) : Except Fault (Vector Word 8) := do
  let x0 ← (x[0]).get
  let x1 ← (x[1]).get
  let x2 ← (x[2]).get
  let x3 ← (x[3]).get
  let x4 ← (x[4]).get
  let x5 ← (x[5]).get
  let x6 ← (x[6]).get
  let x7 ← (x[7]).get
  .ok #v[x0, x1, x2, x3, x4, x5, x6, x7]

/-- A hash state that holds eight words. -/
def hashHolding (x : Vector Word 8) : HashRegs :=
  #v[.holds x[0], .holds x[1], .holds x[2], .holds x[3], .holds x[4], .holds x[5], .holds x[6], .holds x[7]]

end Sys2Proof.Machine
end

