-- ==== Sys2Proof/Machine/Flags.lean ====
section
/-! DEFINITION. The success predicate, the result slot and the found flag. The block has no condition code: the found
flag, word 128 of `OUT`, is its only flag (10_state.md R39). -/

namespace Sys2Proof.Machine

/-- `SUCCESS_PRED` on a final digest (00_scope.md R9); the last word is word 7 (30_encoding.md R67). -/
def predHolds (p : SuccessPred) (fd : Vector Word 8) : Bool :=
  match p with
  | .lastWordZero => decide (fd[7] = 0#32)
  | .lastWordMasked mask => decide (fd[7] &&& mask = 0#32)
  | .custom id => Config.customPred id fd

/-- The found flag's index (20_memory.md R44). -/
def foundSlot : Nat := 128

/-- `NONCE & 0x7F`, the result slot of a nonce (30_encoding.md R68). -/
def slotOf (nonce : Word) : Nat := (nonce &&& 0x7F#32).toNat

end Sys2Proof.Machine
end

