-- ==== Sys2Proof/Machine/WordOps.lean ====
section
/-! DEFINITION. The meanings of the word operations and the round functions (40_round_functions.md R81 to R91) and of
the schedule functions (41_message_schedule.md R96, R97): pure functions of the operand words whose result goes to the
register the listing line names (30_encoding.md R72, R75). They write nothing else and set no flag. -/

namespace Sys2Proof.Machine

/-- One source word. -/
def wordOp1 (s : State) (f : Word → Word) : Host.Outcome State Fault Refusal :=
  onLane s fun r => do
    let x ← s.bind.x.value r
    .ok (s.bind.dst.write r (f x))

/-- Two source words. -/
def wordOp2 (s : State) (f : Word → Word → Word) : Host.Outcome State Fault Refusal :=
  onLane s fun r => do
    let x ← s.bind.x.value r
    let y ← s.bind.y.value r
    .ok (s.bind.dst.write r (f x y))

/-- Three source words. -/
def wordOp3 (s : State) (f : Word → Word → Word → Word) : Host.Outcome State Fault Refusal :=
  onLane s fun r => do
    let x ← s.bind.x.value r
    let y ← s.bind.y.value r
    let z ← s.bind.z.value r
    .ok (s.bind.dst.write r (f x y z))

/-- `ADD` (R81). -/
def execAdd (s : State) : Host.Outcome State Fault Refusal := wordOp2 s addW

/-- `AND` (R82). -/
def execAnd (s : State) : Host.Outcome State Fault Refusal := wordOp2 s andW

/-- `OR` (R83). -/
def execOr (s : State) : Host.Outcome State Fault Refusal := wordOp2 s orW

/-- `XOR` (R84). -/
def execXor (s : State) : Host.Outcome State Fault Refusal := wordOp2 s xorW

/-- `NOT` (R85). -/
def execNot (s : State) : Host.Outcome State Fault Refusal := wordOp1 s notW

/-- `ROTR #n` (R86): the amount is zero-extended (R70). -/
def execRotr (n : BitVec 5) (s : State) : Host.Outcome State Fault Refusal := wordOp1 s fun x => rotrW x n.toNat

/-- `SHR #n` (R87). -/
def execShr (n : BitVec 5) (s : State) : Host.Outcome State Fault Refusal := wordOp1 s fun x => shrW x n

/-- `BSIG0` (R88). -/
def execBsig0 (s : State) : Host.Outcome State Fault Refusal := wordOp1 s bsig0W

/-- `BSIG1` (R89). -/
def execBsig1 (s : State) : Host.Outcome State Fault Refusal := wordOp1 s bsig1W

/-- `CH` (R90). -/
def execCh (s : State) : Host.Outcome State Fault Refusal := wordOp3 s chW

/-- `MAJ` (R91). -/
def execMaj (s : State) : Host.Outcome State Fault Refusal := wordOp3 s majW

/-- `SSIG0` (41_message_schedule.md R96). -/
def execSsig0 (s : State) : Host.Outcome State Fault Refusal := wordOp1 s ssig0W

/-- `SSIG1` (R97). -/
def execSsig1 (s : State) : Host.Outcome State Fault Refusal := wordOp1 s ssig1W

end Sys2Proof.Machine
end

