-- ==== Sys2Proof/Machine/Schedule.lean ====
section
/-! DEFINITION. The message schedule expander (41_message_schedule.md R98 to R103). -/

namespace Sys2Proof.Machine

/-- `EXPAND_STEP i` on a schedule, for i in 16..63: reads `W[i-16]`, `W[i-15]`, `W[i-7]` and `W[i-2]` and writes only
`W[i]` (R98). -/
def expandAt (w : SchedRegs) (i : Nat) : Except Fault SchedRegs := do
  let w16 ← (w[at64 (i - 16)]).get
  let w15 ← (w[at64 (i - 15)]).get
  let w7 ← (w[at64 (i - 7)]).get
  let w2 ← (w[at64 (i - 2)]).get
  .ok (setAt w (at64 i) (addW (addW (addW w16 (ssig0W w15)) w7) (ssig1W w2)))

/-- The first `n` steps of an expansion, in increasing order of the index (R99). -/
def expandFirst : Nat → SchedRegs → Except Fault SchedRegs
  | 0, w => .ok w
  | n + 1, w => do
    let w' ← expandFirst n w
    expandAt w' (16 + n)

/-- `EXPAND`: the 48 steps for i = 16, ..., 63 (R99). -/
def expandAll (w : SchedRegs) : Except Fault SchedRegs := expandFirst 48 w

/-- A schedule whose words 0..15 hold a raw block and whose other words are unwritten. -/
def rawSchedule (m : Vector Word 16) : SchedRegs :=
  (#v[.holds m[0], .holds m[1], .holds m[2], .holds m[3], .holds m[4], .holds m[5], .holds m[6], .holds m[7],
     .holds m[8], .holds m[9], .holds m[10], .holds m[11], .holds m[12], .holds m[13], .holds m[14], .holds m[15]] : Vector (Reg Word) 16)
  ++ (Vector.replicate 48 .unwritten : Vector (Reg Word) 48)

/-- `EXPAND` on the schedule of a layer of a lane, in place. -/
def expandLayer (y : Layer) (r : Lane) : Except Fault Lane := do
  let w ← expandAll (r.schedule y)
  .ok (r.setSchedule w y)

/-- `EXPAND_STEP #i` on the schedule of the invoking layer (R98). An index below 16 is invalid (30_encoding.md R73 (c);
no word spells one). -/
def execExpandStep (i : BitVec 6) (s : State) : Host.Outcome State Fault Refusal :=
  if 16 ≤ i.toNat then
    onLane s fun r => do
      let w ← expandAt (r.schedule s.bind.layer) i.toNat
      .ok (r.setSchedule w s.bind.layer)
  else .refused (.invalidOperation .scheduleIndex)

/-- `EXPAND` on the schedule of the invoking layer (R99). -/
def execExpand (s : State) : Host.Outcome State Fault Refusal := onLane s (expandLayer s.bind.layer)

/-- `PADGEN`: `EXPAND(PADRAW)`, which writes no lane register (R101) and no table (10_state.md R35). -/
def execPadgen (s : State) : Host.Outcome State Fault Refusal :=
  match expandAll (rawSchedule s.rom.padRaw) with
  | .ok w => .next { s with padgen := w }
  | .error f => .fault f

end Sys2Proof.Machine
end

