-- ==== Sys2Proof/Machine/Compress.lean ====
section
/-! DEFINITION. The compression function in both call shapes (42_compression.md R106 to R113). -/

namespace Sys2Proof.Machine

/-- `INIT_IV` on the hash state of a layer (R106): what it held is discarded. -/
def initIvLayer (rom : Rom) (y : Layer) (r : Lane) : Lane := r.setHash (hashHolding rom.iv) y

/-- `K[i]`: row i / 8 of the table, place i mod 8 in the row (10_state.md R31). -/
def Rom.roundConstant (rom : Rom) (i : Fin 64) : Word :=
  let row := rom.k[i.val / 8]'(by omega)
  row[i.val % 8]'(by omega)

/-- One round with the round constant `k` and the schedule word `w` (R108): `T1` and `T2` are computed from the
registers at the start of the round and the eight registers are then written together (70_reset_and_hazards.md
R167). -/
def roundWith (k w : Word) (r : Lane) : Except Fault Lane := do
  let a ← r.a.get
  let b ← r.b.get
  let c ← r.c.get
  let d ← r.d.get
  let e ← r.e.get
  let f ← r.f.get
  let g ← r.g.get
  let h ← r.h.get
  let t1 := addW (addW (addW (addW h (bsig1W e)) (chW e f g)) k) w
  let t2 := addW (bsig0W a) (majW a b c)
  .ok { r with
    t1 := .holds t1
    t2 := .holds t2
    h := .holds g
    g := .holds f
    f := .holds e
    e := .holds (addW d t1)
    d := .holds c
    c := .holds b
    b := .holds a
    a := .holds (addW t1 t2) }

/-- `ROUND i` over the named schedule (R108). -/
def roundAt (rom : Rom) (n : SchedName) (i : Fin 64) (r : Lane) : Except Fault Lane := do
  let w ← schedWord rom r n i
  roundWith (rom.roundConstant i) w r

/-- Rounds 0, 1, ..., n − 1, in order (R109). -/
def roundsFirst (rom : Rom) (sched : SchedName) : Nat → Lane → Except Fault Lane
  | 0, r => .ok r
  | n + 1, r => do
    let r' ← roundsFirst rom sched n r
    roundAt rom sched (at64 n) r'

/-- The working registers take the hash state's words (R107). -/
def loadWorking (x : HashRegs) (r : Lane) : Except Fault Lane := do
  let v ← hashValue x
  .ok { r with
    a := .holds v[0]
    b := .holds v[1]
    c := .holds v[2]
    d := .holds v[3]
    e := .holds v[4]
    f := .holds v[5]
    g := .holds v[6]
    h := .holds v[7] }

/-- The feed-forward: the working registers are added into the hash state (R107). -/
def feedForward (y : Layer) (r : Lane) : Except Fault Lane := do
  let v ← hashValue (r.hash y)
  let a ← r.a.get
  let b ← r.b.get
  let c ← r.c.get
  let d ← r.d.get
  let e ← r.e.get
  let f ← r.f.get
  let g ← r.g.get
  let h ← r.h.get
  .ok (r.setHash (hashHolding #v[addW v[0] a, addW v[1] b, addW v[2] c, addW v[3] d,
    addW v[4] e, addW v[5] f, addW v[6] g, addW v[7] h]) y)

/-- A compression of the hash state of layer `y` over a schedule: one operation for both call shapes (R112). -/
def compressOver (rom : Rom) (y : Layer) (sched : SchedName) (r : Lane) : Except Fault Lane := do
  let r1 ← loadWorking (r.hash y) r
  let r2 ← roundsFirst rom sched 64 r1
  feedForward y r2

/-- The schedule that belongs to a layer. -/
def layerSched : Layer → SchedName
  | .pow => .wp
  | .chain => .wc

/-- `COMPRESS.W`: `HP` with `WP`, or `HC` with `WC` (R109). -/
def compressWLayer (rom : Rom) (y : Layer) (r : Lane) : Except Fault Lane := compressOver rom y (layerSched y) r

/-- `COMPRESS.P`: `HC` with `WPAD`, with no re-initialisation and no expansion (R111; 30_encoding.md R72). -/
def compressPLane (rom : Rom) (r : Lane) : Except Fault Lane := compressOver rom .chain .wpad r

/-- `INIT_IV` (R106). -/
def execInitIv (s : State) : Host.Outcome State Fault Refusal :=
  onLane s fun r => .ok (initIvLayer s.rom s.bind.layer r)

/-- `ROUND #i` (R108): the index is zero-extended (30_encoding.md R70). -/
def execRound (i : BitVec 6) (s : State) : Host.Outcome State Fault Refusal :=
  onLane s (roundAt s.rom s.bind.sched (at64 i.toNat))

/-- `COMPRESS.W` (R109). -/
def execCompressW (s : State) : Host.Outcome State Fault Refusal := onLane s (compressWLayer s.rom s.bind.layer)

/-- `COMPRESS.P` (R111). -/
def execCompressP (s : State) : Host.Outcome State Fault Refusal := onLane s (compressPLane s.rom)

end Sys2Proof.Machine
end

