-- ==== Sys2Proof/Machine/Layers.lean ====
section
/-! DEFINITION. The PoW layer (43_pow_layer.md R114 to R118) and the chain layer (44_chain_layer.md R119 to R124). -/

namespace Sys2Proof.Machine

/-- Write the words of `MemRead(HDR + from + k, 4)` for each `k` of a list into a schedule at `k`. -/
def loadHeader (hdr : Buffer) (start : Nat) : List Nat → SchedRegs → Except Fault SchedRegs
  | [], w => .ok w
  | k :: rest, w => do
    let v ← hdr.read (start + k)
    loadHeader hdr start rest (setAt w (at64 k) v)

/-- The raw block of the PoW layer (R116; 30_encoding.md R64): `HDR[8..21)` with word 3 replaced by the nonce, in the
lane's own copy, then `POWPAD`. `HDR[11]` is never read (R115). -/
def powBlock (rom : Rom) (hdr : Buffer) (nonce : Word) (w : SchedRegs) : Except Fault SchedRegs := do
  let w1 ← loadHeader hdr 8 [0, 1, 2, 4, 5, 6, 7, 8, 9, 10, 11, 12] w
  let w2 := setAt w1 3 nonce
  let w3 := setAt w2 13 rom.powPad[0]
  let w4 := setAt w3 14 rom.powPad[1]
  .ok (setAt w4 15 rom.powPad[2])

/-- The PoW layer: raw block, `INIT_IV HP`, `EXPAND WP`, `COMPRESS.W HP, WP` (R116). DESIGN CHOICE
(log 32; safe): `NONCE` is read before the header, whose words may be read at any time (92_eei_decisions.md D28). -/
def powHashLane (rom : Rom) (hdr : Buffer) (r : Lane) : Except Fault Lane := do
  let nonce ← r.nonce.get
  let w ← powBlock rom hdr nonce r.wp
  let r1 := initIvLayer rom .pow { r with wp := w }
  let r2 ← expandLayer .pow r1
  compressWLayer rom .pow r2

/-- The first raw block of the chain layer (44_chain_layer.md R121; 30_encoding.md R65): `HDR[0..8)`, then the PoW
digest. -/
def chainBlock (hdr : Buffer) (dg : Vector Word 8) (w : SchedRegs) : Except Fault SchedRegs := do
  let w1 ← loadHeader hdr 0 [0, 1, 2, 3, 4, 5, 6, 7] w
  let w2 := setAt (setAt (setAt (setAt w1 8 dg[0]) 9 dg[1]) 10 dg[2]) 11 dg[3]
  .ok (setAt (setAt (setAt (setAt w2 12 dg[4]) 13 dg[5]) 14 dg[6]) 15 dg[7])

/-- The chain layer: raw block, `INIT_IV HC`, `EXPAND WC`, `COMPRESS.W HC, WC`, `COMPRESS.P HC` with nothing in between
(44_chain_layer.md R121, R122; 70_reset_and_hazards.md R168). DESIGN CHOICE (log 32; safe): `HP` is read before the header, whose words may be
read at any time (92_eei_decisions.md D28). -/
def chainHashLane (rom : Rom) (hdr : Buffer) (r : Lane) : Except Fault Lane := do
  let dg ← hashValue r.hp
  let w ← chainBlock hdr dg r.wc
  let r1 := initIvLayer rom .chain { r with wc := w }
  let r2 ← expandLayer .chain r1
  let r3 ← compressWLayer rom .chain r2
  compressPLane rom r3

/-- `POW_HASH` (43_pow_layer.md R116). -/
def execPowHash (s : State) : Host.Outcome State Fault Refusal := onLane s (powHashLane s.rom s.hdr)

/-- `CHAIN_HASH` (44_chain_layer.md R121). -/
def execChainHash (s : State) : Host.Outcome State Fault Refusal := onLane s (chainHashLane s.rom s.hdr)

end Sys2Proof.Machine
end

