-- ==== Sys2Proof/Machine/Search.lean ====
section
/-! DEFINITION. The operations of one trial and of one lane's share of a batch (45_search_loop.md R126 to R131). -/

namespace Sys2Proof.Machine

/-- `NONCE <- (OFFSET + LID * ITERS + J) mod 2^32` (R126). -/
def nonceOf (cfg : Params) (offset : Word) (lid j : Nat) : Word :=
  BitVec.ofNat 32 (offset.toNat + lid * cfg.iters + j)

/-- `NONCE_GEN` on a lane (R126). -/
def nonceGenLane (cfg : Params) (offset : Word) (r : Lane) : Except Fault Lane := do
  let j ← r.j.get
  .ok { r with nonce := .holds (nonceOf cfg offset r.lid j) }

/-- `TEST` on a lane: `HIT <- SUCCESS_PRED(HC[0..8))` (R127). -/
def testLane (cfg : Params) (r : Lane) : Except Fault Lane := do
  let fd ← hashValue r.hc
  .ok { r with hit := .holds (predHolds cfg.pred fd) }

/-- `RECORD` of a lane (R128): on a hit the found flag and then the slot of the nonce's low 7 bits, otherwise no
write. `OUT` is never read. DESIGN CHOICE (log 32; safe): an unwritten `NONCE` is named before a short buffer. -/
def recordLane (cfg : Params) (r : Lane) (out : Buffer) : Except Fault Buffer := do
  let hit ← r.hit.get
  if hit then do
    let nonce ← r.nonce.get
    let out1 ← out.write foundSlot cfg.foundValue.word
    out1.write (slotOf nonce) nonce
  else .ok out

/-- `TRIAL` of a lane: `NONCE_GEN`, `POW_HASH`, `CHAIN_HASH`, `TEST`, `RECORD`, each on the previous one's result
(R130). `s` gives what the lanes share and do not write: the parameters, `OFFSET`, `ROM` and `HDR`. -/
def trialLane (s : State) (r : Lane) (out : Buffer) : Except Fault (Lane × Buffer) := do
  let r1 ← nonceGenLane s.cfg s.offset r
  let r2 ← powHashLane s.rom s.hdr r1
  let r3 ← chainHashLane s.rom s.hdr r2
  let r4 ← testLane s.cfg r3
  let out' ← recordLane s.cfg r4 out
  .ok (r4, out')

/-- One pass of a lane's loop: `J <- j; LSEQ <- Run(j)`, then the trial (R131). -/
def trialAt (s : State) (j : Nat) (r : Lane) (out : Buffer) : Except Fault (Lane × Buffer) :=
  trialLane s { r with j := .holds j, lseq := .run j } out

/-- Trials 0, 1, ..., n − 1 of a lane, in order: no early exit (R131). -/
def trialsFirst (s : State) : Nat → Lane → Buffer → Except Fault (Lane × Buffer)
  | 0, r, out => .ok (r, out)
  | n + 1, r, out => do
    let p ← trialsFirst s n r out
    trialAt s n p.1 p.2

/-- `LANE_RUN` of a lane: its ITERS trials, then `LSEQ <- Done` (R131). -/
def laneRunLane (s : State) (r : Lane) (out : Buffer) : Except Fault (Lane × Buffer) := do
  let p ← trialsFirst s s.cfg.iters r out
  .ok ({ p.1 with lseq := .done }, p.2)

/-- `NONCE_GEN` (R126). -/
def execNonceGen (s : State) : Host.Outcome State Fault Refusal := onLane s (nonceGenLane s.cfg s.offset)

/-- `TEST` (R127). -/
def execTest (s : State) : Host.Outcome State Fault Refusal := onLane s (testLane s.cfg)

/-- `RECORD` (R128). -/
def execRecord (s : State) : Host.Outcome State Fault Refusal :=
  onLaneOut s fun r out => do
    let out' ← recordLane s.cfg r out
    .ok (r, out')

/-- `TRIAL` (R130). -/
def execTrial (s : State) : Host.Outcome State Fault Refusal := onLaneOut s (trialLane s)

/-- `LANE_RUN` (R131). -/
def execLaneRun (s : State) : Host.Outcome State Fault Refusal := onLaneOut s (laneRunLane s)

end Sys2Proof.Machine
end

