-- ==== Sys2Proof/Machine/Batch.lean ====
section
/-! DEFINITION. The batch: `LAUNCH` (45_search_loop.md R132), the lanes stepped one trial at a time in any order
(R139), completion (R133), and the host's moves around a batch (R143, 70_reset_and_hazards.md R161). -/

namespace Sys2Proof.Machine

/-- The first failing condition of admission, if any (R132, in the order of 60_exceptions.md R150). -/
def launchFailure (s : State) : Option LaunchCondition :=
  if s.phase = .running then some .phase
  else if s.hdr.words ≠ 21 then some .headerSize
  else if s.out.words ≠ 129 then some .outputSize
  else if s.hdr.base % 4 ≠ 0 ∨ s.out.base % 4 ≠ 0 then some .placement
  else none

/-- A lane at the start of a batch: every register but LID unwritten, `J <- 0`, `LSEQ` at its first trial or already
done (R132). -/
def launchLane (cfg : Params) (r : Lane) : Lane :=
  { Lane.blank r.lid (if 0 < cfg.iters then .run 0 else .done) with j := .holds 0 }

/-- `LAUNCH offset` (R132): neither buffer is read or written. -/
def execLaunch (s : State) : Host.Outcome State Fault Refusal :=
  match launchFailure s with
  | some c => .refused (.launchContract c)
  | none => .next { s with
      offset := s.bind.offset
      lanes := s.lanes.map (launchLane s.cfg)
      phase := .running }

/-- Whether a lane has finished its share. -/
def Lane.isDone (r : Lane) : Bool := decide (r.lseq = .done)

/-- The lanes in `Run(j)`, by index from `from`. -/
def unfinished : Nat → List Lane → List Nat
  | _, [] => []
  | l, r :: rest =>
    match r.lseq with
    | .run _ => l :: unfinished (l + 1) rest
    | .idle => unfinished (l + 1) rest
    | .done => unfinished (l + 1) rest

/-- The platform's choice among the unfinished lanes (20_memory.md R54). -/
def pick : List Nat → Nat → Option Nat
  | [], _ => none
  | [l], _ => some l
  | l :: l' :: rest, choice => (l :: l' :: rest)[choice % (rest.length + 2)]?

/-- The sequencer of a lane in `Run(j)`: trial j, then `Run(j+1)` or `Done` (10_state.md R28). -/
def laneSequence (s : State) (r : Lane) (out : Buffer) : Except Fault (Lane × Buffer) :=
  match r.lseq with
  | .run j => do
    let p ← trialAt s j r out
    .ok ({ p.1 with lseq := if j + 1 < s.cfg.iters then .run (j + 1) else .done }, p.2)
  | .idle => .ok (r, out)
  | .done => .ok (r, out)

/-- Lane `l` performs its next trial, whole (R139). -/
def laneStep (s : State) (l : Nat) : Host.Outcome State Fault Refusal :=
  match s.lanes[l]? with
  | none => .refused .noSuchLane
  | some r =>
    match laneSequence s r s.out with
    | .ok (r', out') => .next { s.setLane l r' with out := out' }
    | .error f => .fault f

/-- One step of a running batch with the platform's choice: `PHASE <- Done` once every lane is done (R133), otherwise
one trial of the chosen unfinished lane (R139). A lane that is neither finished nor running waits for ever; `LAUNCH`
leaves none. -/
def batchStep (choice : Nat) (s : State) : Host.Outcome State Fault Refusal :=
  if s.lanes.all Lane.isDone then .next { s with phase := .done }
  else
    match pick (unfinished 0 s.lanes) choice with
    | some l => laneStep s l
    | none => .next s

/-- The lanes' step of a running batch: the choice is a free value (log 8). -/
def agentsStep (s : State) : Host.Outcome State Fault Refusal :=
  batchStep (Config.laneChoice s.tick) { s with tick := s.tick + 1 }

/-- A host write to a buffer, which the host makes only outside a batch (20_memory.md R63, 70_reset_and_hazards.md
R164). -/
def hostWrite (s : State) (b : Except Fault Buffer) (put : Buffer → State) : Host.Outcome State Fault Refusal :=
  if s.phase = .running then .refused .hostAccess
  else
    match b with
    | .ok b' => .next (put b')
    | .error f => .fault f

/-- The host reads all of `OUT`, which it does only after completion (20_memory.md R53, 70_reset_and_hazards.md
R170). -/
def hostCollect (s : State) : Host.Outcome State Fault Refusal :=
  if s.phase = .done then
    .next { s with result := .holds ((List.range s.out.words).map (Memory.read s.out.cells)) }
  else .refused .hostAccess

/-- `OUT` after a reset that abandons a batch: every word is a free value (R161, U15; log 11). -/
def abandonOut (tick : Nat) (b : Buffer) : Buffer :=
  { b with cells := (List.range b.words).foldl (fun m k => Memory.write m k (Config.outAfterReset tick k)) b.cells }

/-- Reset (70_reset_and_hazards.md R161): the block takes its state after reset; host memory is kept, but for `OUT`
where a batch was running. -/
def hostReset (s : State) : Host.Outcome State Fault Refusal :=
  let out' := if s.phase = .running then abandonOut s.tick s.out else s.out
  .next { State.resetOf s.cfg s.hdr out' with
    pending := s.pending
    tick := s.tick + 1
    seenPhase := s.seenPhase
    result := s.result
    refusal := s.refusal }

/-- The host reads `PHASE`, whatever it is (10_state.md R37); nothing else changes. -/
def hostReadPhase (s : State) : Host.Outcome State Fault Refusal := .next { s with seenPhase := .holds s.phase }

/-- The host waits for `PHASE = Done` (R143): while the batch runs the lanes go on and the host stays, in `Done` it
goes on, and in `Idle` there is nothing that could end its wait. -/
def hostWait (s : State) (rest : List Request) : Host.Outcome State Fault Refusal :=
  match s.phase with
  | .running => agentsStep s
  | .done => .next { s with pending := rest, seenPhase := .holds .done }
  | .idle => .next s

end Sys2Proof.Machine
end

