-- ==== Sys2Proof/Machine/Dispatch.lean ====
section
/-! DEFINITION. One arm per operation of the map (30_encoding.md R71), each one direct call of its meaning. -/

namespace Sys2Proof.Machine

def exec (i : Instr) (s : State) : Host.Outcome State Fault Refusal :=
  match i with
  | .add => Sys2Proof.Machine.execAdd s
  | .and => Sys2Proof.Machine.execAnd s
  | .or => Sys2Proof.Machine.execOr s
  | .xor => Sys2Proof.Machine.execXor s
  | .not => Sys2Proof.Machine.execNot s
  | .rotr n => Sys2Proof.Machine.execRotr n s
  | .shr n => Sys2Proof.Machine.execShr n s
  | .bsig0 => Sys2Proof.Machine.execBsig0 s
  | .bsig1 => Sys2Proof.Machine.execBsig1 s
  | .ch => Sys2Proof.Machine.execCh s
  | .maj => Sys2Proof.Machine.execMaj s
  | .ssig0 => Sys2Proof.Machine.execSsig0 s
  | .ssig1 => Sys2Proof.Machine.execSsig1 s
  | .expandStep k => Sys2Proof.Machine.execExpandStep k s
  | .expand => Sys2Proof.Machine.execExpand s
  | .padgen => Sys2Proof.Machine.execPadgen s
  | .initIv => Sys2Proof.Machine.execInitIv s
  | .round k => Sys2Proof.Machine.execRound k s
  | .compressW => Sys2Proof.Machine.execCompressW s
  | .compressP => Sys2Proof.Machine.execCompressP s
  | .powHash => Sys2Proof.Machine.execPowHash s
  | .chainHash => Sys2Proof.Machine.execChainHash s
  | .nonceGen => Sys2Proof.Machine.execNonceGen s
  | .test => Sys2Proof.Machine.execTest s
  | .record => Sys2Proof.Machine.execRecord s
  | .trial => Sys2Proof.Machine.execTrial s
  | .laneRun => Sys2Proof.Machine.execLaneRun s
  | .launch => Sys2Proof.Machine.execLaunch s

end Sys2Proof.Machine
end

