-- ==== Sys2Proof/Machine/Cycle.lean ====
section
/-! DEFINITION. What one step does: serve the host's next request, or else let the lanes of a running batch go on. -/

namespace Sys2Proof.Machine

/-- After a refused `LAUNCH` the block's state is what it was before it and the run goes on: the host may launch again,
and a running batch continues (60_exceptions.md R152, R160; 93_implementation_defined.md U14; log 33). The condition
the refusal names (R150) is kept in `State.refusal`. Every other outcome stands. -/
def goOn (s : State) : Host.Outcome State Fault Refusal → Host.Outcome State Fault Refusal
  | .next t => .next t
  | .fault f => .fault f
  | .refused (.launchContract c) => .next { s with refusal := .holds c }
  | .refused r => .refused r

/-- Perform an operation with the operands given beside it. -/
def serveInstr (s : State) (i : Instr) (b : Binding) : Host.Outcome State Fault Refusal :=
  goOn s (exec i { s with bind := b })

/-- Perform the operation a word spells with the operands given beside it; an invalid word is refused
(30_encoding.md R73). -/
def serveOp (s : State) (word : OpWord) (b : Binding) : Host.Outcome State Fault Refusal :=
  match decode word with
  | .ok i => serveInstr s i b
  | .error why => .refused (.invalidOperation why)

/-- The operands of the host's `LAUNCH offset` (45_search_loop.md R132). -/
def Binding.launch (offset : Word) : Binding := { Binding.default with offset := offset }

/-- Serve one move of the host; `rest` are the requests after it (45_search_loop.md R143). -/
def serveHost (m : HostMove) (rest : List Request) (s : State) : Host.Outcome State Fault Refusal :=
  match m with
  | .launch offset => serveInstr { s with pending := rest } .launch (Binding.launch offset)
  | .writeHdr i v => hostWrite s (s.hdr.write i v) fun b => { s with pending := rest, hdr := b }
  | .writeOut i v => hostWrite s (s.out.write i v) fun b => { s with pending := rest, out := b }
  | .zeroOut => hostWrite s (.ok { s.out with cells := [] }) fun b => { s with pending := rest, out := b }
  | .placeHdr base words =>
    hostWrite s (.ok { base := base, words := words, cells := [] }) fun b => { s with pending := rest, hdr := b }
  | .placeOut base words =>
    hostWrite s (.ok { base := base, words := words, cells := [] }) fun b => { s with pending := rest, out := b }
  | .readPhase => hostReadPhase { s with pending := rest }
  | .wait => hostWait s rest
  | .collect => hostCollect { s with pending := rest }

/-- Serve one request; `rest` are the requests after it. -/
def serve (m : Request) (rest : List Request) (s : State) : Host.Outcome State Fault Refusal :=
  match m with
  | .host m => serveHost m rest s
  | .listing word b => serveOp { s with pending := rest } word b
  | .reset => hostReset { s with pending := rest }

/-- One step of the whole machine. With no request and no batch running the block waits for the host. -/
def cycle (s : State) : Host.Outcome State Fault Refusal :=
  match s.pending with
  | m :: rest => serve m rest s
  | [] =>
    match s.phase with
    | .running => agentsStep s
    | .idle => .next s
    | .done => .next s

/-- The machine with one operation word as its next request (log 6). -/
def placeWord (s : State) (word : OpWord) : State :=
  { s with pending := .listing word Binding.default :: s.pending }

end Sys2Proof.Machine
end

