-- ==== Sys2Proof/Machine/Step.lean ====
section
/-! DEFINITION. The machine's step, and the state whose next step runs a given operation word. -/

namespace Sys2Proof.Machine

/-- One step: the next request, or one step of the running batch. -/
def step (s : State) : Host.Outcome State Fault Refusal := cycle s

/-- The state with the operation word `w` as the next request. Every operation word is 16 bits (30_encoding.md R74),
so there are no operand words after it. -/
def State.withFetchWord (s : State) (nbits w : Nat) : State :=
  placeWord s (BitVec.ofNat 16 (w % 2 ^ nbits))

end Sys2Proof.Machine
end

