-- ==== Sys2Proof/Safety.lean ====
section
/-! DEFINITION. The terms in which claims are stated: the invariant of the machine, the functions the rules give for the
schedule, the compression, the two layers and a trial ("as a function"), written with the library's own word
operations and not with the machine's, SHA-256 over bytes, and what a batch has recorded so far. -/

namespace Sys2Proof.Machine

/-! ## The invariant -/

/-- A lane in `Run(j)` has j in [0, ITERS) (10_state.md R28). -/
def LaneSeq.inRange (iters : Nat) : LaneSeq → Bool
  | .run j => decide (j < iters)
  | .idle => true
  | .done => true

/-- The buffers of an admitted launch (45_search_loop.md R132). -/
abbrev State.conforming (s : State) : Prop :=
  s.hdr.words = 21 ∧ s.out.words = 129 ∧ s.hdr.base % 4 = 0 ∧ s.out.base % 4 = 0

/-- What every step keeps: the tables hold their values (10_state.md R35), memory is canonical, the lanes are
0, 1, ..., LANES − 1 each with its own index (R19, R24), their sequencers are in range (R28), and while a batch runs the
buffers are those of an admitted launch and no lane is idle (45_search_loop.md R132). -/
abbrev State.inv (s : State) : Prop :=
  s.rom = romStandard ∧ s.hdr.wf = true ∧ s.out.wf = true ∧ s.lanes.map Lane.lid = List.range s.cfg.lanes ∧
  (∀ r ∈ s.lanes, r.lseq.inRange s.cfg.iters = true) ∧
  (s.phase = .running → s.conforming ∧ ∀ r ∈ s.lanes, r.lseq ≠ .idle)

/-! ## The functions of the rules -/

/-- `BSIG0` (40_round_functions.md R88). -/
def Ref.bsig0 (x : Word) : Word := x.rotateRight 2 ^^^ x.rotateRight 13 ^^^ x.rotateRight 22

/-- `BSIG1` (R89). -/
def Ref.bsig1 (x : Word) : Word := x.rotateRight 6 ^^^ x.rotateRight 11 ^^^ x.rotateRight 25

/-- `SSIG0` (41_message_schedule.md R96). -/
def Ref.ssig0 (x : Word) : Word := x.rotateRight 7 ^^^ x.rotateRight 18 ^^^ (x >>> 3)

/-- `SSIG1` (R97). -/
def Ref.ssig1 (x : Word) : Word := x.rotateRight 17 ^^^ x.rotateRight 19 ^^^ (x >>> 10)

/-- `CH` (40_round_functions.md R90). -/
def Ref.ch (e f g : Word) : Word := (e &&& f) ^^^ (~~~e &&& g)

/-- `MAJ` (R91). -/
def Ref.maj (a b c : Word) : Word := (a &&& b) ^^^ (a &&& c) ^^^ (b &&& c)

/-- A list of schedule words with `n` more words appended, each by the recurrence of R98. -/
def Ref.extend : Nat → List Word → List Word
  | 0, w => w
  | n + 1, w =>
    let v := Ref.extend n w
    v ++ [v.getD n 0 + Ref.ssig0 (v.getD (n + 1) 0) + v.getD (n + 9) 0 + Ref.ssig1 (v.getD (n + 14) 0)]

/-- `EXPAND(m)`, the 64-word schedule of a 16-word raw block (R99). -/
def Ref.expand (m : List Word) : List Word := Ref.extend 48 m

/-- The eight working registers as values. -/
structure Working where
  a : Word
  b : Word
  c : Word
  d : Word
  e : Word
  f : Word
  g : Word
  h : Word
  deriving DecidableEq, Repr

/-- `T1` of a round (42_compression.md R108). -/
def Ref.t1 (k w : Word) (x : Working) : Word := x.h + Ref.bsig1 x.e + Ref.ch x.e x.f x.g + k + w

/-- `T2` of a round (R108). -/
def Ref.t2 (x : Working) : Word := Ref.bsig0 x.a + Ref.maj x.a x.b x.c

/-- One round (R108). -/
def Ref.round (k w : Word) (x : Working) : Working where
  a := Ref.t1 k w x + Ref.t2 x
  b := x.a
  c := x.b
  d := x.c
  e := x.d + Ref.t1 k w x
  f := x.e
  g := x.f
  h := x.g

/-- The 64 round constants in order (10_state.md R31). -/
def Ref.k : List Word := kRows.toList.flatMap Vector.toList

/-- Rounds 0, ..., n − 1 over a schedule. -/
def Ref.rounds (w : List Word) : Nat → Working → Working
  | 0, x => x
  | n + 1, x => Ref.round (Ref.k.getD n 0) (w.getD n 0) (Ref.rounds w n x)

/-- `COMPRESS.W(X, W)` as a function (R109). -/
def Ref.compress (x : Vector Word 8) (w : List Word) : Vector Word 8 :=
  let r := Ref.rounds w 64
    { a := x[0], b := x[1], c := x[2], d := x[3], e := x[4], f := x[5], g := x[6], h := x[7] }
  #v[x[0] + r.a, x[1] + r.b, x[2] + r.c, x[3] + r.d, x[4] + r.e, x[5] + r.f, x[6] + r.g, x[7] + r.h]

/-- `POW(base, n)` (43_pow_layer.md R116). -/
def Ref.pow (base : List Word) (n : Word) : Vector Word 8 :=
  Ref.compress ivTable (Ref.expand (base.take 3 ++ [n] ++ (base.drop 4).take 9 ++ powPadTable.toList))

/-- `CHAIN(prefix, d)` (44_chain_layer.md R121): the second block is the expanded `PADRAW`. -/
def Ref.chain (head : List Word) (d : Vector Word 8) : Vector Word 8 :=
  Ref.compress (Ref.compress ivTable (Ref.expand (head ++ d.toList))) (Ref.expand padRawTable.toList)

/-- `n` words of the header buffer from word `start` on. -/
def State.headerWords (s : State) (start n : Nat) : List Word :=
  (List.range n).map fun k => Memory.read s.hdr.cells (start + k)

/-- `DG` of a trial with nonce `n`. -/
def State.dg (s : State) (n : Word) : Vector Word 8 := Ref.pow (s.headerWords 8 13) n

/-- `FD(n) = CHAIN(HDR[0..8), POW(HDR[8..21), n))` (45_search_loop.md R130). -/
def State.fd (s : State) (n : Word) : Vector Word 8 := Ref.chain (s.headerWords 0 8) (s.dg n)

/-- `hit(n) = SUCCESS_PRED(FD(n))` (R130). -/
def State.hits (s : State) (n : Word) : Bool := predHolds s.cfg.pred (s.fd n)

/-- The nonce of trial `j` of lane `l`: `(OFFSET + l * ITERS + j) mod 2^32` (R126, R129). -/
def State.nonceAt (s : State) (l j : Nat) : Word :=
  s.offset + BitVec.ofNat 32 l * BitVec.ofNat 32 s.cfg.iters + BitVec.ofNat 32 j

/-- What a trial with nonce `n` leaves in `OUT` (R128). -/
def State.recorded (s : State) (n : Word) (m : Memory) : Memory :=
  if s.hits n then Memory.write (Memory.write m 128 s.cfg.foundValue.word) (n.toNat % 128) n else m

/-- What trials 0, ..., n − 1 of lane `l` leave in `OUT`, in this order (R131). -/
def State.recordedFirst (s : State) (l : Nat) : Nat → Memory → Memory
  | 0, m => m
  | n + 1, m => s.recorded (s.nonceAt l n) (s.recordedFirst l n m)

/-- A schedule whose 64 words are all written, with the words of a list. -/
abbrev SchedRegs.are (x : SchedRegs) (w : List Word) : Prop :=
  w.length = 64 ∧ ∀ i : Fin 64, x[i] = .holds (w.getD i.val 0)

/-- A schedule whose first 16 words are written, with the words of a raw block. -/
abbrev SchedRegs.startsWith (x : SchedRegs) (m : List Word) : Prop :=
  m.length = 16 ∧ ∀ i : Fin 64, i.val < 16 → x[i] = .holds (m.getD i.val 0)

/-- The eight working registers of a lane hold the values `x`. -/
abbrev Lane.working (r : Lane) (x : Working) : Prop :=
  r.a = .holds x.a ∧ r.b = .holds x.b ∧ r.c = .holds x.c ∧ r.d = .holds x.d ∧
  r.e = .holds x.e ∧ r.f = .holds x.f ∧ r.g = .holds x.g ∧ r.h = .holds x.h

/-! ## What an operation may write -/

/-- The bits of IMM8 that must be 0 (30_encoding.md R70). -/
def reservedImm : Instr → BitVec 8
  | .rotr _ | .shr _ => 0xE0#8
  | .expandStep _ | .round _ => 0xC0#8
  | .add | .and | .or | .xor | .not | .bsig0 | .bsig1 | .ch | .maj | .ssig0 | .ssig1 | .expand | .padgen
  | .initIv | .compressW | .compressP | .powHash | .chainHash | .nonceGen | .test | .record | .trial
  | .laneRun | .launch => 0xFF#8

/-- The pure functions of operand words: OPC 0x01 to 0x21 (30_encoding.md R72). -/
def isWordOp : Instr → Bool
  | .add | .and | .or | .xor | .not | .rotr _ | .shr _ | .bsig0 | .bsig1 | .ch | .maj | .ssig0 | .ssig1 => true
  | .expandStep _ | .expand | .padgen | .initIv | .round _ | .compressW | .compressP | .powHash | .chainHash
  | .nonceGen | .test | .record | .trial | .laneRun | .launch => false

/-- The source words a word operation reads, in order (30_encoding.md R71, R75). -/
def sourcesOf (b : Binding) : Instr → List Src
  | .add | .and | .or | .xor => [b.x, b.y]
  | .not | .rotr _ | .shr _ | .bsig0 | .bsig1 | .ssig0 | .ssig1 => [b.x]
  | .ch | .maj => [b.x, b.y, b.z]
  | .expandStep _ | .expand | .padgen | .initIv | .round _ | .compressW | .compressP | .powHash | .chainHash
  | .nonceGen | .test | .record | .trial | .laneRun | .launch => []

/-- The rows of the register table of 10_state.md R25, and the sequencer. -/
inductive RegGroup where
  | working | temporaries | hp | hc | wp | wc | nonce | j | lid | hit | lseq
  deriving DecidableEq, Repr

/-- The row a listing line's destination belongs to. -/
def WordReg.group : WordReg → RegGroup
  | .a | .b | .c | .d | .e | .f | .g | .h => .working
  | .t1 | .t2 => .temporaries
  | .nonce => .nonce
  | .hp _ => .hp
  | .hc _ => .hc
  | .wp _ => .wp
  | .wc _ => .wc

/-- A row of the register table is the same in two lanes. -/
def RegGroup.same (r r' : Lane) : RegGroup → Prop
  | .working => r'.a = r.a ∧ r'.b = r.b ∧ r'.c = r.c ∧ r'.d = r.d ∧ r'.e = r.e ∧ r'.f = r.f ∧ r'.g = r.g ∧ r'.h = r.h
  | .temporaries => r'.t1 = r.t1 ∧ r'.t2 = r.t2
  | .hp => r'.hp = r.hp
  | .hc => r'.hc = r.hc
  | .wp => r'.wp = r.wp
  | .wc => r'.wc = r.wc
  | .nonce => r'.nonce = r.nonce
  | .j => r'.j = r.j
  | .lid => r'.lid = r.lid
  | .hit => r'.hit = r.hit
  | .lseq => r'.lseq = r.lseq

/-- The rows an operation writes, from the column "written by" of R25 (a composite operation writes what its parts
write, 30_encoding.md R76; a word operation writes its listing line's destination; `LAUNCH` empties every register but
LID, 45_search_loop.md R132). -/
def writtenBy (b : Binding) : Instr → List RegGroup
  | .add | .and | .or | .xor | .not | .rotr _ | .shr _ | .bsig0 | .bsig1 | .ch | .maj | .ssig0 | .ssig1 =>
    [b.dst.group]
  | .expandStep _ | .expand => [match b.layer with | .pow => .wp | .chain => .wc]
  | .padgen => []
  | .initIv => [match b.layer with | .pow => .hp | .chain => .hc]
  | .round _ => [.working, .temporaries]
  | .compressW => [.working, .temporaries, match b.layer with | .pow => .hp | .chain => .hc]
  | .compressP => [.working, .temporaries, .hc]
  | .powHash => [.working, .temporaries, .wp, .hp]
  | .chainHash => [.working, .temporaries, .wc, .hc]
  | .nonceGen => [.nonce]
  | .test => [.hit]
  | .record => []
  | .trial => [.working, .temporaries, .hp, .hc, .wp, .wc, .nonce, .hit]
  | .laneRun => [.working, .temporaries, .hp, .hc, .wp, .wc, .nonce, .j, .hit, .lseq]
  | .launch => [.working, .temporaries, .hp, .hc, .wp, .wc, .nonce, .j, .hit, .lseq]

/-- Everything of the state but the lanes, `OUT`'s contents, `OFFSET`, `PHASE` and the result of `PADGEN`. -/
abbrev State.sameFrame (s t : State) : Prop :=
  t.cfg = s.cfg ∧ t.rom = s.rom ∧ t.hdr = s.hdr ∧ t.out.base = s.out.base ∧ t.out.words = s.out.words ∧
  t.pending = s.pending ∧ t.bind = s.bind ∧ t.tick = s.tick ∧ t.seenPhase = s.seenPhase ∧ t.result = s.result ∧
  t.refusal = s.refusal ∧ t.lanes.length = s.lanes.length

/-- The next step is the lanes': the host asks for nothing, or waits (45_search_loop.md R143). -/
abbrev State.hostQuiet (s : State) : Prop := s.pending = [] ∨ ∃ rest, s.pending = .host .wait :: rest

/-! ## SHA-256 over bytes (FIPS 180-4, 00_scope.md R2; 20_memory.md R48) -/

/-- A word's bytes, the most significant first. -/
def Ref.bytesOf (w : Word) : List (BitVec 8) :=
  [w.extractLsb' 24 8, w.extractLsb' 16 8, w.extractLsb' 8 8, w.extractLsb' 0 8]

/-- The words' bytes, most significant first. -/
def Ref.serialise (w : List Word) : List (BitVec 8) := w.flatMap Ref.bytesOf

/-- The message with its padding: the marker byte, zeros up to a multiple of 64 bytes, the 64-bit bit length. -/
def Ref.padded (msg : List (BitVec 8)) : List (BitVec 8) :=
  msg ++ [0x80#8] ++ List.replicate ((119 - msg.length % 64) % 64) 0#8 ++
    Ref.serialise [BitVec.ofNat 32 (8 * msg.length / 2 ^ 32), BitVec.ofNat 32 (8 * msg.length)]

/-- Word `k` of a byte string: bytes 4k to 4k + 3, most significant first. -/
def Ref.wordAt (bytes : List (BitVec 8)) (k : Nat) : Word :=
  (bytes.getD (4 * k) 0 ++ bytes.getD (4 * k + 1) 0 ++ bytes.getD (4 * k + 2) 0 ++ bytes.getD (4 * k + 3) 0 :
    BitVec (8 + 8 + 8 + 8))

/-- The hash state after the first `n` blocks of a padded message. -/
def Ref.afterBlocks (bytes : List (BitVec 8)) : Nat → Vector Word 8
  | 0 => ivTable
  | n + 1 => Ref.compress (Ref.afterBlocks bytes n)
      (Ref.expand ((List.range 16).map fun i => Ref.wordAt bytes (16 * n + i)))

/-- SHA-256 of a byte string, as bytes. -/
def Ref.sha256 (msg : List (BitVec 8)) : List (BitVec 8) :=
  Ref.serialise (Ref.afterBlocks (Ref.padded msg) ((Ref.padded msg).length / 64)).toList

/-! ## What a batch has recorded -/

/-- Lane `l` has performed its trial `j` in the batch under way or just ended (10_state.md R28). -/
def State.performed (s : State) (l j : Nat) : Prop :=
  ∃ r, s.lanes[l]? = some r ∧
    match r.lseq with
    | .idle => False
    | .run k => j < k
    | .done => j < s.cfg.iters

/-- Trial `j` of lane `l` has been performed, has succeeded, and its nonce belongs to slot `k`. -/
def State.scored (s : State) (k l j : Nat) : Prop :=
  s.performed l j ∧ s.hits (s.nonceAt l j) = true ∧ (s.nonceAt l j).toNat % 128 = k

/-- `last_k(l)` is the nonce of trial `j`: the last performed one of lane `l` that scored in slot `k` (20_memory.md
R57). -/
def State.lastScored (s : State) (k l j : Nat) : Prop :=
  s.scored k l j ∧ ∀ j', j < j' → ¬ s.scored k l j'

/-- `OUT` is what the performed trials may have left from the launch content `m` (20_memory.md R56 to R58): a slot
holds the last nonce some lane scored in it, or its launch content if no trial scored in it; the flag holds
`FOUND_VALUE` if some trial succeeded, or its launch content. -/
structure State.records (s : State) (m : Memory) : Prop where
  slot_scored : ∀ k, k < 128 → (∃ l j, s.scored k l j) →
    ∃ l j, s.lastScored k l j ∧ Memory.read s.out.cells k = s.nonceAt l j
  slot_clear : ∀ k, k < 128 → (¬ ∃ l j, s.scored k l j) → Memory.read s.out.cells k = Memory.read m k
  flag_set : (∃ k l j, s.scored k l j) → Memory.read s.out.cells 128 = s.cfg.foundValue.word
  flag_clear : (¬ ∃ k l j, s.scored k l j) → Memory.read s.out.cells 128 = Memory.read m 128

/-- The steps of a batch under the platform's choices, in this order (20_memory.md R54). -/
def batchRun : List Nat → State → Host.Outcome State Fault Refusal
  | [], s => .next s
  | c :: rest, s =>
    match batchStep c s with
    | .next t => batchRun rest t
    | .fault f => .fault f
    | .refused f => .refused f

/-- How many trials the unfinished lanes still have to perform (45_search_loop.md R140). -/
def State.remaining (s : State) : Nat :=
  (s.lanes.map fun r => match r.lseq with
    | .run j => s.cfg.iters - j
    | .idle => 0
    | .done => 0).sum

end Sys2Proof.Machine
end

