-- ==== Sys2Proof/Certificates/Slice0/Obligations.lean ====
section
/-! DEFINITION. The statements for the provers: each formalises rules of spec/, over every state, every instance of the
parameters and every operand. -/

open Sys2Proof Sys2Proof.Machine

/-! ## Encoding -/

/-- R71: the operation map, row by row, with the immediates of R70. -/
def Obligations.OperationMapDecodes : Prop :=
  decode 0x0100#16 = .ok .add ∧ decode 0x0200#16 = .ok .and ∧ decode 0x0300#16 = .ok .or ∧
  decode 0x0400#16 = .ok .xor ∧ decode 0x0500#16 = .ok .not ∧
  (∀ n : BitVec 5, decode (0x06#8 ++ (0#3 ++ n) : BitVec (8 + (3 + 5))) = .ok (.rotr n)) ∧
  (∀ n : BitVec 5, decode (0x07#8 ++ (0#3 ++ n) : BitVec (8 + (3 + 5))) = .ok (.shr n)) ∧
  decode 0x1000#16 = .ok .bsig0 ∧ decode 0x1100#16 = .ok .bsig1 ∧ decode 0x1200#16 = .ok .ch ∧
  decode 0x1300#16 = .ok .maj ∧ decode 0x2000#16 = .ok .ssig0 ∧ decode 0x2100#16 = .ok .ssig1 ∧
  (∀ i : BitVec 6, 16 ≤ i.toNat → decode (0x22#8 ++ (0#2 ++ i) : BitVec (8 + (2 + 6))) = .ok (.expandStep i)) ∧
  decode 0x2300#16 = .ok .expand ∧ decode 0x2400#16 = .ok .padgen ∧ decode 0x3000#16 = .ok .initIv ∧
  (∀ i : BitVec 6, decode (0x31#8 ++ (0#2 ++ i) : BitVec (8 + (2 + 6))) = .ok (.round i)) ∧
  decode 0x3200#16 = .ok .compressW ∧ decode 0x3300#16 = .ok .compressP ∧ decode 0x4000#16 = .ok .powHash ∧
  decode 0x5000#16 = .ok .chainHash ∧ decode 0x6000#16 = .ok .nonceGen ∧ decode 0x6100#16 = .ok .test ∧
  decode 0x6200#16 = .ok .record ∧ decode 0x6300#16 = .ok .trial ∧ decode 0x6400#16 = .ok .laneRun ∧
  decode 0x6500#16 = .ok .launch

/-- R69 to R71: the word of a well-formed operation decodes to it. -/
def Obligations.DecodeOfEncodeIsTheOperation : Prop :=
  ∀ i : Instr, i.wf = true → decode (encode i) = .ok i

/-- R73 (the decoder is total and no word has two readings): a word that decodes is the word of the operation it
decodes to, and that operation is well-formed. -/
def Obligations.EncodeOfDecodeIsTheWord : Prop :=
  ∀ (w : OpWord) (i : Instr), decode w = .ok i → i.wf = true ∧ encode i = w

/-- R73: a word is invalid exactly for the reasons (a), (b) and (c), and a request for an invalid word is refused. -/
def Obligations.InvalidWordsAreRefused : Prop :=
  ∀ w : OpWord,
    ((∀ i, opcode i ≠ opcField w) → decode w = .error .opcode) ∧
    (∀ i, opcode i = opcField w → immField w &&& reservedImm i ≠ 0#8 → decode w = .error .immediate) ∧
    (opcField w = 0x22#8 → immField w &&& 0xC0#8 = 0#8 → (immField w).toNat < 16 →
      decode w = .error .scheduleIndex) ∧
    (∀ i, opcode i = opcField w → immField w &&& reservedImm i = 0#8 →
      (opcField w = 0x22#8 → 16 ≤ (immField w).toNat) → ∃ i', decode w = .ok i' ∧ encode i' = w) ∧
    (∀ (s : State) (b : Binding) (rest : List Request) (v : Invalid), s.pending = .listing w b :: rest →
      decode w = .error v → step s = .refused (.invalidOperation v))

/-- R72, R132: a step whose next request is an operation (a word of a listing that decodes, or the host's
`LAUNCH offset`) performs it with the operands given beside it; `withFetchWord` is such a request. A refused `LAUNCH`
goes on with the state as it was (R160; the form of going on is the model's, log 33). -/
def Obligations.StepRunsTheDecodedOperation : Prop :=
  ∀ (s u : State) (i : Instr),
    ((∃ w b rest, s.pending = .listing w b :: rest ∧ decode w = .ok i ∧ u = { s with pending := rest, bind := b }) ∨
      (∃ offset rest, s.pending = .host (.launch offset) :: rest ∧ i = .launch ∧
        u = { s with pending := rest, bind := { Binding.default with offset := offset } }) ∨
      (∃ (s0 : State) (w : OpWord), decode w = .ok i ∧ s = s0.withFetchWord 16 w.toNat ∧ u = { s0 with bind := Binding.default })) →
    ((∀ c, exec i u ≠ .refused (.launchContract c)) → step s = exec i u) ∧
    (∀ c, exec i u = .refused (.launchContract c) → step s = .next { u with bind := s.bind, refusal := .holds c })

/-! ## Word operations and round functions -/

/-- R81, the grouping of longer sums included. -/
def Obligations.AddAnswersTheWrappedSum : Prop :=
  decode 0x0100#16 = .ok .add ∧
  (∀ x y z : Word, addW (addW x y) z = addW x (addW y z) ∧ addW x y = addW y x) ∧
  ∀ (s : State) (r : Lane) (x y : Word), s.lanes[s.bind.lane]? = some r →
    s.bind.x.value r = .ok x → s.bind.y.value r = .ok y →
    ∃ v : Word, v.toNat = (x.toNat + y.toNat) % 2 ^ 32 ∧
      exec .add s = .next (s.setLane s.bind.lane (s.bind.dst.write r v))

/-- R82 to R85: bit k of the result for every bit. -/
def Obligations.LogicOperationsWorkBitByBit : Prop :=
  decode 0x0200#16 = .ok .and ∧ decode 0x0300#16 = .ok .or ∧ decode 0x0400#16 = .ok .xor ∧
  decode 0x0500#16 = .ok .not ∧
  ∀ (s : State) (r : Lane) (x : Word), s.lanes[s.bind.lane]? = some r → s.bind.x.value r = .ok x →
    (∃ v : Word, (∀ k, k < 32 → v.getLsbD k = !x.getLsbD k) ∧
      exec .not s = .next (s.setLane s.bind.lane (s.bind.dst.write r v))) ∧
    ∀ y : Word, s.bind.y.value r = .ok y →
      (∃ v : Word, (∀ k, k < 32 → v.getLsbD k = (x.getLsbD k && y.getLsbD k)) ∧
        exec .and s = .next (s.setLane s.bind.lane (s.bind.dst.write r v))) ∧
      (∃ v : Word, (∀ k, k < 32 → v.getLsbD k = (x.getLsbD k || y.getLsbD k)) ∧
        exec .or s = .next (s.setLane s.bind.lane (s.bind.dst.write r v))) ∧
      (∃ v : Word, (∀ k, k < 32 → v.getLsbD k = (x.getLsbD k != y.getLsbD k)) ∧
        exec .xor s = .next (s.setLane s.bind.lane (s.bind.dst.write r v)))

/-- R86 for the operation and for the function `rotr` with any amount. -/
def Obligations.RotateMovesEachBit : Prop :=
  (∀ (x : Word) (n k : Nat), k < 32 → (rotrW x n).getLsbD k = x.getLsbD ((k + n) % 32)) ∧
  (∀ imm : BitVec 8, imm &&& 0xE0#8 ≠ 0#8 → decode (0x06#8 ++ imm : BitVec (8 + 8)) = .error .immediate) ∧
  ∀ (n : BitVec 5) (s : State) (r : Lane) (x : Word), s.lanes[s.bind.lane]? = some r → s.bind.x.value r = .ok x →
    decode (0x06#8 ++ (0#3 ++ n) : BitVec (8 + (3 + 5))) = .ok (.rotr n) ∧
    ∃ v : Word, (∀ k, k < 32 → v.getLsbD k = x.getLsbD ((k + n.toNat) % 32)) ∧
      exec (.rotr n) s = .next (s.setLane s.bind.lane (s.bind.dst.write r v))

/-- R87. -/
def Obligations.ShiftRightDividesByAPowerOfTwo : Prop :=
  (∀ imm : BitVec 8, imm &&& 0xE0#8 ≠ 0#8 → decode (0x07#8 ++ imm : BitVec (8 + 8)) = .error .immediate) ∧
  ∀ (n : BitVec 5) (s : State) (r : Lane) (x : Word), s.lanes[s.bind.lane]? = some r → s.bind.x.value r = .ok x →
    decode (0x07#8 ++ (0#3 ++ n) : BitVec (8 + (3 + 5))) = .ok (.shr n) ∧
    ∃ v : Word, v.toNat = x.toNat / 2 ^ n.toNat ∧
      exec (.shr n) s = .next (s.setLane s.bind.lane (s.bind.dst.write r v))

/-- R88, R89, R96 and R97. -/
def Obligations.SigmasAnswerTheirRotations : Prop :=
  decode 0x1000#16 = .ok .bsig0 ∧ decode 0x1100#16 = .ok .bsig1 ∧
  decode 0x2000#16 = .ok .ssig0 ∧ decode 0x2100#16 = .ok .ssig1 ∧
  ∀ (s : State) (r : Lane) (x : Word), s.lanes[s.bind.lane]? = some r → s.bind.x.value r = .ok x →
    exec .bsig0 s = .next (s.setLane s.bind.lane
      (s.bind.dst.write r (x.rotateRight 2 ^^^ x.rotateRight 13 ^^^ x.rotateRight 22))) ∧
    exec .bsig1 s = .next (s.setLane s.bind.lane
      (s.bind.dst.write r (x.rotateRight 6 ^^^ x.rotateRight 11 ^^^ x.rotateRight 25))) ∧
    exec .ssig0 s = .next (s.setLane s.bind.lane
      (s.bind.dst.write r (x.rotateRight 7 ^^^ x.rotateRight 18 ^^^ (x >>> 3)))) ∧
    exec .ssig1 s = .next (s.setLane s.bind.lane
      (s.bind.dst.write r (x.rotateRight 17 ^^^ x.rotateRight 19 ^^^ (x >>> 10))))

/-- R90 and R91: the pseudocode and what it says of each bit. -/
def Obligations.ChooseAndMajorityWorkBitByBit : Prop :=
  decode 0x1200#16 = .ok .ch ∧ decode 0x1300#16 = .ok .maj ∧
  ∀ (s : State) (r : Lane) (x y z : Word), s.lanes[s.bind.lane]? = some r →
    s.bind.x.value r = .ok x → s.bind.y.value r = .ok y → s.bind.z.value r = .ok z →
    (∃ v : Word, v = (x &&& y) ^^^ (~~~x &&& z) ∧
      (∀ k, k < 32 → v.getLsbD k = if x.getLsbD k then y.getLsbD k else z.getLsbD k) ∧
      exec .ch s = .next (s.setLane s.bind.lane (s.bind.dst.write r v))) ∧
    (∃ v : Word, v = (x &&& y) ^^^ (x &&& z) ^^^ (y &&& z) ∧
      (∀ k, k < 32 → v.getLsbD k =
        decide (2 ≤ (x.getLsbD k).toNat + (y.getLsbD k).toNat + (z.getLsbD k).toNat)) ∧
      exec .maj s = .next (s.setLane s.bind.lane (s.bind.dst.write r v)))

/-- R93 (a), (b) and (c), of the functions the machine uses. -/
def Obligations.RoundFunctionLaws : Prop :=
  (∀ x y : Word, bsig0W (x ^^^ y) = bsig0W x ^^^ bsig0W y) ∧
  (∀ x y : Word, bsig1W (x ^^^ y) = bsig1W x ^^^ bsig1W y) ∧
  (∀ (x y : Word) (n : Nat), rotrW (x ^^^ y) n = rotrW x n ^^^ rotrW y n) ∧
  (∀ e f g : Word, (e &&& f) &&& (~~~e &&& g) = 0#32 ∧ chW e f g = (e &&& f) ||| (~~~e &&& g) ∧
    chW e f g = (e &&& f) + (~~~e &&& g)) ∧
  (∀ a b c : Word, majW a b c = (a &&& b) ||| (a &&& c) ||| (b &&& c)) ∧
  (∀ a b c : Word, majW a b c = majW b a c ∧ majW a b c = majW a c b)

/-- R72, R92, section 1 of 40_round_functions.md: a word operation changes the destination of its listing line and
nothing else. -/
def Obligations.WordOperationsChangeOnlyTheirDestination : Prop :=
  ∀ (i : Instr) (s t : State), isWordOp i = true → exec i s = .next t →
    ∃ r r', s.lanes[s.bind.lane]? = some r ∧ t.lanes[s.bind.lane]? = some r' ∧
      t = s.setLane s.bind.lane r' ∧
      (∃ v, s.bind.dst.cell r' = .holds v) ∧
      (∀ n : WordReg, n ≠ s.bind.dst → n.cell r' = n.cell r) ∧
      r'.j = r.j ∧ r'.lid = r.lid ∧ r'.hit = r.hit ∧ r'.lseq = r.lseq ∧
      (∀ a, Memory.read t.out.cells a = Memory.read s.out.cells a) ∧
      (∀ a, Memory.read t.hdr.cells a = Memory.read s.hdr.cells a)

/-! ## Unwritten registers -/

/-- R27: an operation that reads a register with no value in this batch faults. That J's "no value" at reset (R41) is
this state is log 1 (DEDUCED); that `TEST` reads every word of `HC` under the default predicate too is log 26 (DEDUCED);
that `POW_HASH`, `CHAIN_HASH` and `RECORD` name this fault before that of a short buffer is log 32 (DESIGN CHOICE). -/
def Obligations.ReadingAnUnwrittenRegisterFaults : Prop :=
  ∀ (s : State) (r : Lane), s.lanes[s.bind.lane]? = some r →
    (∀ (i : Instr) (n : WordReg), .reg n ∈ sourcesOf s.bind i → n.cell r = .unwritten →
      exec i s = .fault .unwrittenRegister) ∧
    (∀ (k : BitVec 6) (d : Nat), 16 ≤ k.toNat → d ∈ [2, 7, 15, 16] →
      (r.schedule s.bind.layer)[at64 (k.toNat - d)] = .unwritten →
      exec (.expandStep k) s = .fault .unwrittenRegister) ∧
    (∀ k : Fin 16, (r.schedule s.bind.layer)[at64 k.val] = .unwritten →
      exec .expand s = .fault .unwrittenRegister) ∧
    (∀ k : BitVec 6, (r.a = .unwritten ∨ r.b = .unwritten ∨ r.c = .unwritten ∨ r.d = .unwritten ∨
        r.e = .unwritten ∨ r.f = .unwritten ∨ r.g = .unwritten ∨ r.h = .unwritten ∨
        (s.bind.sched = .wp ∧ r.wp[at64 k.toNat] = .unwritten) ∨
        (s.bind.sched = .wc ∧ r.wc[at64 k.toNat] = .unwritten)) →
      exec (.round k) s = .fault .unwrittenRegister) ∧
    (∀ k : Fin 8, (r.hash s.bind.layer)[k] = .unwritten → exec .compressW s = .fault .unwrittenRegister) ∧
    (∀ k : Fin 64, (r.schedule s.bind.layer)[k] = .unwritten → exec .compressW s = .fault .unwrittenRegister) ∧
    (∀ k : Fin 8, r.hc[k] = .unwritten →
      exec .compressP s = .fault .unwrittenRegister ∧ exec .test s = .fault .unwrittenRegister) ∧
    (r.nonce = .unwritten → exec .powHash s = .fault .unwrittenRegister) ∧
    (∀ k : Fin 8, r.hp[k] = .unwritten → exec .chainHash s = .fault .unwrittenRegister) ∧
    (r.j = .unwritten → exec .nonceGen s = .fault .unwrittenRegister ∧ exec .trial s = .fault .unwrittenRegister) ∧
    (r.hit = .unwritten → exec .record s = .fault .unwrittenRegister) ∧
    (r.hit = .holds true → r.nonce = .unwritten → exec .record s = .fault .unwrittenRegister)

/-- R27 (second sentence), R146: the steps of a batch never fault and are never refused. -/
def Obligations.BatchStepsNeverStop : Prop :=
  ∀ s : State, s.inv → s.phase = .running → s.hostQuiet → ∃ t, step s = .next t

/-! ## The message schedule -/

/-- R98, and R73 (c) for the index no word spells. -/
def Obligations.ExpandStepWritesOneWord : Prop :=
  (∀ k : BitVec 6, 16 ≤ k.toNat →
    decode (0x22#8 ++ (0#2 ++ k) : BitVec (8 + (2 + 6))) = .ok (.expandStep k) ∧
    ∀ (s : State) (r : Lane) (w16 w15 w7 w2 : Word), s.lanes[s.bind.lane]? = some r →
      (r.schedule s.bind.layer)[at64 (k.toNat - 16)] = .holds w16 →
      (r.schedule s.bind.layer)[at64 (k.toNat - 15)] = .holds w15 →
      (r.schedule s.bind.layer)[at64 (k.toNat - 7)] = .holds w7 →
      (r.schedule s.bind.layer)[at64 (k.toNat - 2)] = .holds w2 →
      exec (.expandStep k) s = .next (s.setLane s.bind.lane (r.setSchedule
        (setAt (r.schedule s.bind.layer) (at64 k.toNat) (w16 + Ref.ssig0 w15 + w7 + Ref.ssig1 w2)) s.bind.layer))) ∧
  (∀ (k : BitVec 6) (s : State) (r : Lane) (d : Nat), 16 ≤ k.toNat → s.lanes[s.bind.lane]? = some r →
    d ∈ [2, 7, 15, 16] → (r.schedule s.bind.layer)[at64 (k.toNat - d)] = .unwritten →
    exec (.expandStep k) s = .fault .unwrittenRegister) ∧
  (∀ k : BitVec 6, k.toNat < 16 →
    decode (0x22#8 ++ (0#2 ++ k) : BitVec (8 + (2 + 6))) = .error .scheduleIndex ∧
    ∀ s : State, exec (.expandStep k) s = .refused (.invalidOperation .scheduleIndex))

/-- R99: words 0..15 stay, words 16..63 follow the recurrence, whatever they held. -/
def Obligations.ExpandExtendsTheRawBlock : Prop :=
  decode 0x2300#16 = .ok .expand ∧
  ∀ (s : State) (r : Lane) (m : List Word), s.lanes[s.bind.lane]? = some r →
    SchedRegs.startsWith (r.schedule s.bind.layer) m →
    ∃ w : List Word, w.length = 64 ∧ w.take 16 = m ∧
      (∀ i, 16 ≤ i → i < 64 → w.getD i 0 = w.getD (i - 16) 0 + Ref.ssig0 (w.getD (i - 15) 0) + w.getD (i - 7) 0 +
        Ref.ssig1 (w.getD (i - 2) 0)) ∧
      ∃ x : SchedRegs, SchedRegs.are x w ∧
        exec .expand s = .next (s.setLane s.bind.lane (r.setSchedule x s.bind.layer))

/-- R33, R101 to R103: `PADGEN` gives `EXPAND(PADRAW)`, which is `WPAD`, and writes nothing else. That the result goes to
`State.padgen` is the model's own choice (log 14, DESIGN CHOICE). -/
def Obligations.PadgenGivesThePaddingSchedule : Prop :=
  decode 0x2400#16 = .ok .padgen ∧
  padRawTable.toList = [0x80000000#32] ++ List.replicate 14 0#32 ++ [0x00000200#32] ∧
  wPadTable.toList = Ref.expand padRawTable.toList ∧
  ∀ s : State, ∃ x : SchedRegs, SchedRegs.are x (Ref.expand s.rom.padRaw.toList) ∧
    exec .padgen s = .next { s with padgen := x } ∧
    (s.rom = romStandard → ∀ k : Fin 64, x[k] = .holds s.rom.wPad[k])

/-! ## The compression -/

/-- R106. -/
def Obligations.InitIvLoadsTheInitialValue : Prop :=
  decode 0x3000#16 = .ok .initIv ∧
  ∀ (s : State) (r : Lane), s.lanes[s.bind.lane]? = some r → s.rom = romStandard →
    ∃ x : HashRegs, x[0] = .holds 0x6a09e667 ∧ x[1] = .holds 0xbb67ae85 ∧ x[2] = .holds 0x3c6ef372 ∧
      x[3] = .holds 0xa54ff53a ∧ x[4] = .holds 0x510e527f ∧ x[5] = .holds 0x9b05688c ∧ x[6] = .holds 0x1f83d9ab ∧
      x[7] = .holds 0x5be0cd19 ∧
      exec .initIv s = .next (s.setLane s.bind.lane (r.setHash x s.bind.layer))

/-- R108 and R167. -/
def Obligations.RoundUpdatesTheWorkingRegisters : Prop :=
  ∀ (k : BitVec 6) (s : State) (r : Lane) (x : Working) (w c : Word), s.lanes[s.bind.lane]? = some r →
    s.rom = romStandard → r.working x → schedWord s.rom r s.bind.sched (at64 k.toNat) = .ok w →
    c = Ref.k.getD k.toNat 0 →
    decode (0x31#8 ++ (0#2 ++ k) : BitVec (8 + (2 + 6))) = .ok (.round k) ∧
    exec (.round k) s = .next (s.setLane s.bind.lane { r with
      t1 := .holds (x.h + Ref.bsig1 x.e + Ref.ch x.e x.f x.g + c + w)
      t2 := .holds (Ref.bsig0 x.a + Ref.maj x.a x.b x.c)
      h := .holds x.g
      g := .holds x.f
      f := .holds x.e
      e := .holds (x.d + (x.h + Ref.bsig1 x.e + Ref.ch x.e x.f x.g + c + w))
      d := .holds x.c
      c := .holds x.b
      b := .holds x.a
      a := .holds ((x.h + Ref.bsig1 x.e + Ref.ch x.e x.f x.g + c + w) + (Ref.bsig0 x.a + Ref.maj x.a x.b x.c)) })

/-- R107 and R109: the hash state becomes `COMPRESS.W(X, W)`, the working registers hold the values after round 63, and
only these, `T1` and `T2` are written. -/
def Obligations.CompressWCompressesTheLayersSchedule : Prop :=
  decode 0x3200#16 = .ok .compressW ∧
  ∀ (s : State) (r : Lane) (v : Vector Word 8) (w : List Word), s.lanes[s.bind.lane]? = some r →
    s.rom = romStandard → r.hash s.bind.layer = hashHolding v → SchedRegs.are (r.schedule s.bind.layer) w →
    ∃ r' t1 t2,
      exec .compressW s = .next (s.setLane s.bind.lane r') ∧
      r'.working (Ref.rounds w 64 ⟨v[0], v[1], v[2], v[3], v[4], v[5], v[6], v[7]⟩) ∧
      r' = { r.setHash (hashHolding (Ref.compress v w)) s.bind.layer with
        t1 := .holds t1, t2 := .holds t2, a := r'.a, b := r'.b, c := r'.c, d := r'.d, e := r'.e, f := r'.f,
        g := r'.g, h := r'.h }

/-- R111: `HC` becomes `COMPRESS.W(HC, WPAD)`; no schedule is read or written. -/
def Obligations.CompressPCompressesThePaddingSchedule : Prop :=
  decode 0x3300#16 = .ok .compressP ∧
  ∀ (s : State) (r : Lane) (v : Vector Word 8), s.lanes[s.bind.lane]? = some r → s.rom = romStandard →
    r.hc = hashHolding v →
    ∃ r' t1 t2,
      exec .compressP s = .next (s.setLane s.bind.lane r') ∧
      r'.working (Ref.rounds (Ref.expand padRawTable.toList) 64 ⟨v[0], v[1], v[2], v[3], v[4], v[5], v[6], v[7]⟩) ∧
      r' = { r with
        hc := hashHolding (Ref.compress v (Ref.expand padRawTable.toList)),
        t1 := .holds t1, t2 := .holds t2, a := r'.a, b := r'.b, c := r'.c, d := r'.d, e := r'.e, f := r'.f,
        g := r'.g, h := r'.h }

/-- R112: the two call shapes agree in every result. -/
def Obligations.TheTwoCompressionsAgree : Prop :=
  ∀ (s : State) (r : Lane), s.lanes[s.bind.lane]? = some r → s.bind.layer = .chain →
    (∀ k : Fin 64, r.wc[k] = .holds s.rom.wPad[k]) → exec .compressP s = exec .compressW s

/-- R113: over a padded single-block message the pipeline gives the message's SHA-256 digest. -/
def Obligations.SingleBlockPipelineIsSha256 : Prop :=
  ∀ (s : State) (r : Lane) (msg : List (BitVec 8)), msg.length ≤ 55 → s.rom = romStandard →
    s.lanes[s.bind.lane]? = some r →
    SchedRegs.startsWith (r.schedule s.bind.layer) ((List.range 16).map (Ref.wordAt (Ref.padded msg))) →
    ∃ s1 s2 s3 r' d, exec .initIv s = .next s1 ∧ exec .expand s1 = .next s2 ∧ exec .compressW s2 = .next s3 ∧
      s3.lanes[s.bind.lane]? = some r' ∧ r'.hash s.bind.layer = hashHolding d ∧
      Ref.serialise d.toList = Ref.sha256 msg

/-! ## The layers -/

/-- R116: the PoW layer's schedule and digest, whatever the lane held before. -/
def Obligations.PowHashAnswersThePowDigest : Prop :=
  decode 0x4000#16 = .ok .powHash ∧
  ∀ (s : State) (r : Lane) (n : Word), s.lanes[s.bind.lane]? = some r → s.rom = romStandard →
    21 ≤ s.hdr.words → r.nonce = .holds n →
    ∃ r', exec .powHash s = .next (s.setLane s.bind.lane r') ∧
      r'.hp = hashHolding (Ref.pow (s.headerWords 8 13) n) ∧
      SchedRegs.are r'.wp (Ref.expand (s.headerWords 8 3 ++ [n] ++ s.headerWords 12 9 ++
        [0x80000000#32, 0x00000000#32, 0x000001a0#32])) ∧
      r'.hc = r.hc ∧ r'.wc = r.wc ∧ r'.nonce = r.nonce ∧ r'.j = r.j ∧ r'.lid = r.lid ∧ r'.hit = r.hit ∧
      r'.lseq = r.lseq

/-- R118: the PoW digest, serialised big endian, is SHA-256 of the 52 bytes of the nonce-bearing base. -/
def Obligations.PowDigestIsSha256OfTheBase : Prop :=
  ∀ (s : State) (r : Lane) (n : Word), s.lanes[s.bind.lane]? = some r → s.rom = romStandard →
    21 ≤ s.hdr.words → r.nonce = .holds n →
    ∃ r' d, exec .powHash s = .next (s.setLane s.bind.lane r') ∧ r'.hp = hashHolding d ∧
      Ref.serialise d.toList = Ref.sha256 (Ref.serialise (s.headerWords 8 3 ++ [n] ++ s.headerWords 12 9))

/-- R121 and R122. -/
def Obligations.ChainHashAnswersTheFinalDigest : Prop :=
  decode 0x5000#16 = .ok .chainHash ∧
  ∀ (s : State) (r : Lane) (d : Vector Word 8), s.lanes[s.bind.lane]? = some r → s.rom = romStandard →
    8 ≤ s.hdr.words → r.hp = hashHolding d →
    ∃ r', exec .chainHash s = .next (s.setLane s.bind.lane r') ∧
      r'.hc = hashHolding (Ref.chain (s.headerWords 0 8) d) ∧
      SchedRegs.are r'.wc (Ref.expand (s.headerWords 0 8 ++ d.toList)) ∧
      r'.hp = r.hp ∧ r'.wp = r.wp ∧ r'.nonce = r.nonce ∧ r'.j = r.j ∧ r'.lid = r.lid ∧ r'.hit = r.hit ∧
      r'.lseq = r.lseq

/-- R123: the final digest, serialised big endian, is SHA-256 of the 64 bytes of the header's first words and the PoW
digest. -/
def Obligations.FinalDigestIsSha256OfTheChainMessage : Prop :=
  ∀ (s : State) (r : Lane) (d : Vector Word 8), s.lanes[s.bind.lane]? = some r → s.rom = romStandard →
    8 ≤ s.hdr.words → r.hp = hashHolding d →
    ∃ r' fd, exec .chainHash s = .next (s.setLane s.bind.lane r') ∧ r'.hc = hashHolding fd ∧
      Ref.serialise fd.toList = Ref.sha256 (Ref.serialise (s.headerWords 0 8 ++ d.toList))

/-- R115, R124: header word 11 has no effect on anything any operation does. -/
def Obligations.HeaderWordElevenHasNoEffect : Prop :=
  ∀ (i : Instr) (s t : State) (v : Word), s.hdr.wf = true → exec i s = .next t →
    exec i { s with hdr := { s.hdr with cells := Memory.write s.hdr.cells 11 v } } =
      .next { t with hdr := { s.hdr with cells := Memory.write s.hdr.cells 11 v } }

/-! ## The operations of a trial -/

/-- R126. -/
def Obligations.NonceGenComputesTheTrialNonce : Prop :=
  decode 0x6000#16 = .ok .nonceGen ∧
  ∀ (s : State) (r : Lane) (j : Nat), s.lanes[s.bind.lane]? = some r → r.j = .holds j →
    ∃ n : Word, n.toNat = (s.offset.toNat + r.lid * s.cfg.iters + j) % 2 ^ 32 ∧
      exec .nonceGen s = .next (s.setLane s.bind.lane { r with nonce := .holds n })

/-- R126, R129: the nonces the machine gives the trials of the lanes are consecutive from `OFFSET`, cover
`LANES * ITERS` of them, and where `LANES * ITERS ≤ 2^32` no two trials share one; `NONCE_GEN` leaves that nonce. -/
def Obligations.LaneRangesCoverConsecutiveNonces : Prop :=
  ∀ s : State,
    (∀ (r : Lane) (j : Nat), s.lanes[s.bind.lane]? = some r → r.j = .holds j →
      exec .nonceGen s = .next (s.setLane s.bind.lane
        { r with nonce := .holds (nonceOf s.cfg s.offset r.lid j) })) ∧
    (∀ l j, nonceOf s.cfg s.offset l j = s.offset + BitVec.ofNat 32 (l * s.cfg.iters + j)) ∧
    (∀ l j, s.nonceAt l j = nonceOf s.cfg s.offset l j) ∧
    (∀ m, m < s.cfg.lanes * s.cfg.iters →
      ∃ l j, l < s.cfg.lanes ∧ j < s.cfg.iters ∧ nonceOf s.cfg s.offset l j = s.offset + BitVec.ofNat 32 m) ∧
    (s.cfg.lanes * s.cfg.iters ≤ 2 ^ 32 → ∀ l j l' j', l < s.cfg.lanes → j < s.cfg.iters → l' < s.cfg.lanes →
      j' < s.cfg.iters → nonceOf s.cfg s.offset l j = nonceOf s.cfg s.offset l' j' → l = l' ∧ j = j')

/-- R127, with the default predicate of R9 written out. -/
def Obligations.TestJudgesTheFinalDigest : Prop :=
  decode 0x6100#16 = .ok .test ∧
  ∀ (s : State) (r : Lane) (fd : Vector Word 8), s.lanes[s.bind.lane]? = some r → r.hc = hashHolding fd →
    ∃ hit : Bool, hit = predHolds s.cfg.pred fd ∧
      (s.cfg.pred = .lastWordZero → (hit = true ↔ fd[7] = 0x00000000#32)) ∧
      exec .test s = .next (s.setLane s.bind.lane { r with hit := .holds hit })

/-- R128: on a hit the flag and then the slot; otherwise nothing at all. -/
def Obligations.RecordWritesTheFlagAndTheSlot : Prop :=
  decode 0x6200#16 = .ok .record ∧
  ∀ (s : State) (r : Lane), s.lanes[s.bind.lane]? = some r →
    (r.hit = .holds false → exec .record s = .next s) ∧
    (∀ n : Word, r.hit = .holds true → r.nonce = .holds n → 129 ≤ s.out.words →
      exec .record s = .next { s with out := { s.out with
        cells := Memory.write (Memory.write s.out.cells 128 s.cfg.foundValue.word) (n.toNat % 128) n } })

/-- R130: the trial's nonce, digests, verdict and record. -/
def Obligations.TrialComputesTheFinalDigest : Prop :=
  decode 0x6300#16 = .ok .trial ∧
  ∀ (s : State) (r : Lane) (j : Nat) (n : Word), s.lanes[s.bind.lane]? = some r → s.rom = romStandard →
    21 ≤ s.hdr.words → 129 ≤ s.out.words → r.j = .holds j →
    n = BitVec.ofNat 32 (s.offset.toNat + r.lid * s.cfg.iters + j) →
    ∃ r', exec .trial s = .next { s.setLane s.bind.lane r' with
        out := { s.out with cells := s.recorded n s.out.cells } } ∧
      r'.nonce = .holds n ∧ r'.hp = hashHolding (s.dg n) ∧ r'.hc = hashHolding (s.fd n) ∧
      r'.hit = .holds (s.hits n) ∧ r'.j = r.j ∧ r'.lid = r.lid ∧ r'.lseq = r.lseq

/-- R131: all ITERS trials in order, whatever succeeds, then `Done`. -/
def Obligations.LaneRunPerformsEveryTrial : Prop :=
  decode 0x6400#16 = .ok .laneRun ∧
  ∀ (s : State) (r : Lane), s.lanes[s.bind.lane]? = some r → s.rom = romStandard →
    21 ≤ s.hdr.words → 129 ≤ s.out.words →
    ∃ r', exec .laneRun s = .next { s.setLane s.bind.lane r' with
        out := { s.out with cells := s.recordedFirst r.lid s.cfg.iters s.out.cells } } ∧
      r'.lseq = .done ∧ r'.lid = r.lid ∧
      (∀ j, s.cfg.iters = j + 1 → r'.j = .holds j ∧ r'.nonce = .holds (s.nonceAt r.lid j) ∧
        r'.hp = hashHolding (s.dg (s.nonceAt r.lid j)) ∧ r'.hc = hashHolding (s.fd (s.nonceAt r.lid j)) ∧
        r'.hit = .holds (s.hits (s.nonceAt r.lid j))) ∧
      (s.cfg.iters = 0 → r' = { r with lseq := .done })

/-! ## What operations leave alone -/

/-- R25, R29: a row of the register table changes only in the lane of the operation and only by an operation of the
row's "written by" column. -/
def Obligations.RegistersChangeOnlyByTheirOperations : Prop :=
  ∀ (i : Instr) (s t : State) (l : Nat) (r r' : Lane) (g : RegGroup), exec i s = .next t →
    s.lanes[l]? = some r → t.lanes[l]? = some r' →
    (i ≠ .launch ∧ l ≠ s.bind.lane) ∨ g ∉ writtenBy s.bind i → g.same r r'

/-- R29, R36, R37, R52: what no operation changes, and what only one of them does. -/
def Obligations.OperationsLeaveTheRestAlone : Prop :=
  ∀ (i : Instr) (s t : State), exec i s = .next t →
    s.sameFrame t ∧
    (i ≠ .launch → t.offset = s.offset ∧ t.phase = s.phase ∧
      ∀ l, l ≠ s.bind.lane → t.lanes[l]? = s.lanes[l]?) ∧
    (i ≠ .padgen → t.padgen = s.padgen) ∧
    (i ≠ .record → i ≠ .trial → i ≠ .laneRun → t.out = s.out) ∧
    (i = .padgen ∨ i = .record → t.lanes = s.lanes)

/-- R51, R52: of the output buffer, a recording operation changes the flag and the slots of its nonces only. -/
def Obligations.RecordingLeavesOtherWordsAlone : Prop :=
  ∀ (s t : State) (r : Lane) (a : Nat), s.out.wf = true → s.lanes[s.bind.lane]? = some r → a ≠ foundSlot →
    (exec .record s = .next t → (∀ n, r.nonce = .holds n → a ≠ slotOf n) →
      Memory.read t.out.cells a = Memory.read s.out.cells a) ∧
    (exec .trial s = .next t → (∀ j, r.j = .holds j → a ≠ slotOf (nonceOf s.cfg s.offset r.lid j)) →
      Memory.read t.out.cells a = Memory.read s.out.cells a) ∧
    (exec .laneRun s = .next t → (∀ j, j < s.cfg.iters → a ≠ slotOf (nonceOf s.cfg s.offset r.lid j)) →
      Memory.read t.out.cells a = Memory.read s.out.cells a)

/-- R44, R128: the block never reads the output buffer. What an operation writes there is a list of writes, each the
found value into the flag or a word into its own slot, and neither the list nor anything else the operation does depends
on the buffer's contents: with other contents every word is left the same by both runs, or by both as it was. -/
def Obligations.OutputBufferIsNeverRead : Prop :=
  ∀ (i : Instr) (s t : State), exec i s = .next t →
    ∃ writes : List (Nat × Word),
      (∀ w ∈ writes, w = (foundSlot, s.cfg.foundValue.word) ∨ w.1 = slotOf w.2) ∧
      t.out.cells = writes.foldl (fun m w => Memory.write m w.1 w.2) s.out.cells ∧
      ∀ m m' : Memory, m' = writes.foldl (fun m w => Memory.write m w.1 w.2) m →
        exec i { s with out := { s.out with cells := m } } = .next { t with out := { t.out with cells := m' } } ∧
        (s.out.cells.wf = true → m.wf = true → ∀ k,
          Memory.read m' k = Memory.read t.out.cells k ∨
          (Memory.read m' k = Memory.read m k ∧ Memory.read t.out.cells k = Memory.read s.out.cells k))

/-- R130, R134, R156: what a trial does to its lane does not depend on the other lanes. -/
def Obligations.TrialsDoNotDependOnOtherLanes : Prop :=
  ∀ (s s' t : State), s'.cfg = s.cfg → s'.rom = s.rom → s'.offset = s.offset → s'.hdr = s.hdr → s'.bind = s.bind →
    s'.out.words = s.out.words → s'.lanes[s.bind.lane]? = s.lanes[s.bind.lane]? → exec .trial s = .next t →
    ∃ t', exec .trial s' = .next t' ∧ t'.lanes[s.bind.lane]? = t.lanes[s.bind.lane]?

/-! ## The batch -/

/-- R132. -/
def Obligations.LaunchStartsABatch : Prop :=
  decode 0x6500#16 = .ok .launch ∧
  (∀ s : State, s.phase ≠ .running → s.conforming →
    ∃ lanes' : List Lane,
      exec .launch s = .next { s with offset := s.bind.offset, lanes := lanes', phase := .running } ∧
      lanes'.length = s.lanes.length ∧
      ∀ (l : Nat) (r : Lane), s.lanes[l]? = some r →
        lanes'[l]? = some { Lane.blank r.lid (if 0 < s.cfg.iters then .run 0 else .done) with j := .holds 0 }) ∧
  ∀ s : State, ¬ (s.phase ≠ .running ∧ s.conforming) → ∃ c, exec .launch s = .refused (.launchContract c)

/-- R132, R147, R148, R150: a launch that is not admitted is refused with the first failing condition. -/
def Obligations.LaunchIsRefusedOutsideItsContract : Prop :=
  ∀ s : State,
    (s.phase = .running → exec .launch s = .refused (.launchContract .phase)) ∧
    (s.phase ≠ .running → s.hdr.words ≠ 21 → exec .launch s = .refused (.launchContract .headerSize)) ∧
    (s.phase ≠ .running → s.hdr.words = 21 → s.out.words ≠ 129 →
      exec .launch s = .refused (.launchContract .outputSize)) ∧
    (s.phase ≠ .running → s.hdr.words = 21 → s.out.words = 129 →
      (s.hdr.base % 4 ≠ 0 ∨ s.out.base % 4 ≠ 0) → exec .launch s = .refused (.launchContract .placement))

/-- R133. -/
def Obligations.BatchCompletesWhenEveryLaneIsDone : Prop :=
  ∀ s : State, s.phase = .running → s.hostQuiet → (∀ r ∈ s.lanes, r.lseq = .done) →
    step s = .next { s with phase := .done, tick := s.tick + 1 }

/-- R54, R139: the next step of a batch may be any unfinished lane's. -/
def Obligations.AnyUnfinishedLaneMayGoNext : Prop :=
  ∀ (s : State) (l : Nat) (r : Lane) (j : Nat), s.lanes[l]? = some r → r.lseq = .run j →
    ∃ c, batchStep c s = laneStep s l

/-- R28, R139: a lane in `Run(j)` performs trial j whole and goes to `Run(j+1)` or `Done`. -/
def Obligations.LaneStepPerformsItsNextTrial : Prop :=
  ∀ (s : State) (l : Nat) (r : Lane) (j : Nat), s.inv → s.conforming → s.lanes[l]? = some r → r.lseq = .run j →
    ∃ r', laneStep s l = .next { s.setLane l r' with
        out := { s.out with cells := s.recorded (s.nonceAt l j) s.out.cells } } ∧
      r'.lid = l ∧ r'.j = .holds j ∧ r'.nonce = .holds (s.nonceAt l j) ∧
      r'.hc = hashHolding (s.fd (s.nonceAt l j)) ∧ r'.hit = .holds (s.hits (s.nonceAt l j)) ∧
      r'.lseq = if j + 1 < s.cfg.iters then .run (j + 1) else .done

/-- R55 to R58: a launch starts with nothing recorded, `OUT` being the launch content, and each step of a batch keeps
`OUT` what the performed trials may have left from it. -/
def Obligations.BatchStepsKeepTheRecord : Prop :=
  (∀ s t : State, exec .launch s = .next t → t.records s.out.cells) ∧
  ∀ (s t : State) (m : Memory), s.inv → s.phase = .running → s.hostQuiet → s.records m → step s = .next t →
    t.records m

/-- R57 and R58: the final words of a batch, relative to its launch content. -/
def Obligations.FinalWordsOfABatch : Prop :=
  ∀ (s t u : State) (n : Nat), s.inv → s.pending = [] → exec .launch s = .next t → core.run n t = .next u →
    u.phase = .done →
    (∀ k, k < 128 →
      ((∃ l j, l < s.cfg.lanes ∧ j < s.cfg.iters ∧ t.hits (t.nonceAt l j) = true ∧ (t.nonceAt l j).toNat % 128 = k) →
        ∃ l j, l < s.cfg.lanes ∧ j < s.cfg.iters ∧ t.hits (t.nonceAt l j) = true ∧
          (t.nonceAt l j).toNat % 128 = k ∧ Memory.read u.out.cells k = t.nonceAt l j ∧
          ∀ j', j < j' → j' < s.cfg.iters → t.hits (t.nonceAt l j') = true →
            (t.nonceAt l j').toNat % 128 ≠ k) ∧
      ((∀ l j, l < s.cfg.lanes → j < s.cfg.iters → t.hits (t.nonceAt l j) = true →
          (t.nonceAt l j).toNat % 128 ≠ k) →
        Memory.read u.out.cells k = Memory.read s.out.cells k)) ∧
    ((∃ l j, l < s.cfg.lanes ∧ j < s.cfg.iters ∧ t.hits (t.nonceAt l j) = true) →
      Memory.read u.out.cells 128 = s.cfg.foundValue.word) ∧
    ((∀ l j, l < s.cfg.lanes → j < s.cfg.iters → t.hits (t.nonceAt l j) = false) →
      Memory.read u.out.cells 128 = Memory.read s.out.cells 128)

/-- R57, R138: whichever lane scored in a slot, some order of the lanes leaves that lane's last scoring nonce there. -/
def Obligations.EverySurvivorOfACollisionIsPossible : Prop :=
  ∀ (s t : State) (l j : Nat), s.inv → exec .launch s = .next t → l < s.cfg.lanes → j < s.cfg.iters →
    t.hits (t.nonceAt l j) = true →
    (∀ j', j < j' → j' < s.cfg.iters → t.hits (t.nonceAt l j') = true →
      (t.nonceAt l j').toNat % 128 ≠ (t.nonceAt l j).toNat % 128) →
    ∃ choices u, batchRun choices t = .next u ∧ u.phase = .done ∧
      Memory.read u.out.cells ((t.nonceAt l j).toNat % 128) = t.nonceAt l j

/-- R135 (a), (b), (c), R136 and R137: what the host may rely on after a batch over a zeroed output buffer. -/
def Obligations.BatchGuarantee : Prop :=
  ∀ (s t u : State) (n : Nat), s.inv → s.pending = [] →
    (∀ k, k < 129 → Memory.read s.out.cells k = 0#32) →
    exec .launch s = .next t → core.run n t = .next u → u.phase = .done →
    (Memory.read u.out.cells 128 ≠ 0#32 ↔
      ∃ l j, l < s.cfg.lanes ∧ j < s.cfg.iters ∧ t.hits (t.nonceAt l j) = true) ∧
    (∀ k, k < 128 →
      ((∀ l j, l < s.cfg.lanes → j < s.cfg.iters → t.hits (t.nonceAt l j) = true →
        (t.nonceAt l j).toNat % 128 ≠ k) → Memory.read u.out.cells k = 0#32) ∧
      ((∃ l j, l < s.cfg.lanes ∧ j < s.cfg.iters ∧ t.hits (t.nonceAt l j) = true ∧
        (t.nonceAt l j).toNat % 128 = k) →
        ∃ l j, l < s.cfg.lanes ∧ j < s.cfg.iters ∧ t.hits (t.nonceAt l j) = true ∧
          (t.nonceAt l j).toNat % 128 = k ∧ Memory.read u.out.cells k = t.nonceAt l j)) ∧
    (Memory.read u.out.cells 128 ≠ 0#32 → ∃ k, k < 128 ∧ t.hits (Memory.read u.out.cells k) = true) ∧
    (∀ l j, l < s.cfg.lanes → j < s.cfg.iters → t.hits (t.nonceAt l j) = true →
      (∀ l' j', l' < s.cfg.lanes → j' < s.cfg.iters → t.hits (t.nonceAt l' j') = true →
        t.nonceAt l' j' = t.nonceAt l j) →
      Memory.read u.out.cells 128 ≠ 0#32 ∧
        Memory.read u.out.cells ((t.nonceAt l j).toNat % 128) = t.nonceAt l j)

/-- R140: a running batch performs one trial a step and completes after exactly the trials left; the model's chooser
picks unfinished lanes only (log 18), which is the spec's assumption of fairness. -/
def Obligations.BatchTerminates : Prop :=
  ∀ s : State, s.inv → s.phase = .running → s.pending = [] →
    (∀ k, k ≤ s.remaining → ∃ t, core.run k s = .next t ∧ t.phase = .running ∧ t.remaining = s.remaining - k) ∧
    ∃ t, core.run (s.remaining + 1) s = .next t ∧ t.phase = .done

/-! ## Rules of the whole machine -/

/-- R37: `Running` is entered by `LAUNCH` only and left by completion (or a reset) only. -/
def Obligations.OnlyLaunchAndCompletionMoveThePhase : Prop :=
  ∀ s t : State, step s = .next t →
    (s.phase = .running → t.phase = .running ∨
      (t.phase = .done ∧ (∀ r ∈ s.lanes, r.lseq = .done) ∧ t.out = s.out ∧ s.hostQuiet) ∨
      (t.phase = .idle ∧ ∃ rest, s.pending = .reset :: rest)) ∧
    (s.phase ≠ .running → t.phase = .running →
      (∃ w b rest, s.pending = .listing w b :: rest ∧ decode w = .ok .launch) ∨
        ∃ offset rest, s.pending = .host (.launch offset) :: rest)

/-- R39: the found flag, once set, is never cleared within a batch. -/
def Obligations.FoundFlagIsNeverClearedInABatch : Prop :=
  ∀ s t : State, s.out.wf = true → s.phase = .running → step s = .next t →
    t.phase ≠ .idle → Memory.read s.out.cells 128 ≠ 0#32 → Memory.read t.out.cells 128 ≠ 0#32

/-- R43, R63: no step of a batch changes the header buffer or the offset. -/
def Obligations.HeaderAndOffsetAreConstantInABatch : Prop :=
  ∀ s t : State, s.phase = .running → step s = .next t →
    t.hdr = s.hdr ∧ (t.phase ≠ .idle → t.offset = s.offset)

/-- R35, R38: no step changes the parameters or the tables. -/
def Obligations.ParametersAndTablesNeverChange : Prop :=
  ∀ s t : State, step s = .next t → t.cfg = s.cfg ∧ (s.rom = romStandard → t.rom = romStandard)

/-- The invariant is kept by every step, from every state that has it. -/
def Obligations.EveryStepKeepsTheInvariant : Prop :=
  ∀ s t : State, s.inv → step s = .next t → t.inv

/-- The invariant holds at reset, of every instance with canonical host memory. -/
def Obligations.ResetHasTheInvariant : Prop :=
  State.reset.inv ∧
  ∀ (cfg : Params) (hdr out : Buffer), hdr.wf = true → out.wf = true → (State.resetOf cfg hdr out).inv

/-- R41: what the spec gives of the state after reset. -/
def Obligations.ResetLeavesTheSpecsState : Prop :=
  ∀ (cfg : Params) (hdr out : Buffer),
    (State.resetOf cfg hdr out).phase = .idle ∧
    (State.resetOf cfg hdr out).rom.iv = ivTable ∧ (State.resetOf cfg hdr out).rom.k = kRows ∧
    (State.resetOf cfg hdr out).rom.powPad = powPadTable ∧ (State.resetOf cfg hdr out).rom.padRaw = padRawTable ∧
    (State.resetOf cfg hdr out).rom.wPad = wPadTable ∧
    (State.resetOf cfg hdr out).hdr = hdr ∧ (State.resetOf cfg hdr out).out = out ∧
    (State.resetOf cfg hdr out).lanes.length = cfg.lanes ∧
    ∀ l, l < cfg.lanes → ∃ r, (State.resetOf cfg hdr out).lanes[l]? = some r ∧ r.lid = l ∧ r.lseq = .idle ∧
      r.j = .unwritten ∧ r.hit = .unwritten ∧ ∀ n : WordReg, n.cell r = .unwritten

/-- R53, R63, R164, R170: in `Running` no host access to a buffer is served, and `OUT` is read in `Done` only, where
the host gets every word. -/
def Obligations.HostReachesBuffersOnlyOutsideABatch : Prop :=
  ∀ (s : State) (m : HostMove) (rest : List Request), s.pending = .host m :: rest →
    (s.phase = .running → (m = .zeroOut ∨ m = .collect ∨ (∃ i v, m = .writeHdr i v ∨ m = .writeOut i v) ∨
        ∃ base words, m = .placeHdr base words ∨ m = .placeOut base words) →
      step s = .refused .hostAccess) ∧
    (s.phase ≠ .done → m = .collect → step s = .refused .hostAccess) ∧
    (s.phase = .done → m = .collect → step s = .next { s with
      pending := rest
      result := .holds ((List.range s.out.words).map fun k => Memory.read s.out.cells k) }) ∧
    (∀ i v, s.phase ≠ .running → m = .writeHdr i v → i < s.hdr.words → step s = .next { s with
      pending := rest, hdr := { s.hdr with cells := Memory.write s.hdr.cells i v } }) ∧
    (∀ i v, s.phase ≠ .running → m = .writeOut i v → i < s.out.words → step s = .next { s with
      pending := rest, out := { s.out with cells := Memory.write s.out.cells i v } }) ∧
    (s.phase ≠ .running → m = .zeroOut → ∃ t, step s = .next t ∧ t.hdr = s.hdr ∧ t.pending = rest ∧
      ∀ k, Memory.read t.out.cells k = 0#32)

/-- R161: a reset outside a batch gives the state after reset and keeps host memory. In `Running` (U15) the contents of
`OUT` are free values (log 11), so nothing is said of them. -/
def Obligations.ResetGivesTheStateAfterReset : Prop :=
  ∀ (s : State) (rest : List Request), s.pending = .reset :: rest →
    ∃ t, step s = .next t ∧ t.phase = .idle ∧ t.cfg = s.cfg ∧ t.rom = romStandard ∧ t.hdr = s.hdr ∧
      t.pending = rest ∧ t.out.base = s.out.base ∧ t.out.words = s.out.words ∧
      (s.phase ≠ .running → t.out = s.out) ∧
      t.lanes = (List.range s.cfg.lanes).map fun l => Lane.blank l .idle

/-- R37, R143, R154: the host reads `PHASE` in every phase; a wait gives it `PHASE` in `Done` and holds it back before;
and no move of the host, `LAUNCH` apart, changes a lane, a table, `OFFSET` or `PHASE` (a wait in `Running` lets the lanes
go on). That a wait in `Idle` leaves the state as it is, is the model's reading (log 13). -/
def Obligations.TheHostReadsThePhaseAndTouchesNoLane : Prop :=
  ∀ (s : State) (rest : List Request),
    (s.pending = .host .readPhase :: rest →
      step s = .next { s with pending := rest, seenPhase := .holds s.phase }) ∧
    (s.pending = .host .wait :: rest →
      (s.phase = .done → step s = .next { s with pending := rest, seenPhase := .holds .done }) ∧
      (s.phase = .idle → step s = .next s) ∧
      (s.phase = .running → ∀ t, step s = .next t →
        t.pending = s.pending ∧ t.seenPhase = s.seenPhase ∧ t.result = s.result ∧ t.hdr = s.hdr)) ∧
    (∀ (m : HostMove) (t : State), s.pending = .host m :: rest → (∀ offset, m ≠ .launch offset) → m ≠ .wait →
      step s = .next t → t.lanes = s.lanes ∧ t.rom = s.rom ∧ t.offset = s.offset ∧ t.phase = s.phase ∧
        t.cfg = s.cfg ∧ t.padgen = s.padgen ∧ t.pending = rest)
end

