-- ==== Sys2Proof/Laws/Memory.lean ====
section
/-! SUPPORT. The canonical form of memory: every operation keeps it, a read after a write gives the word written, and
canonical memories that read alike are equal. -/

namespace Sys2Proof.Machine

/-- A canonical memory from `lo` on is one from any lower index on. -/
theorem Memory.wfFrom_mono {m : Memory} {lo lo' : Nat} (h : Memory.wfFrom lo m = true) (hle : lo' ≤ lo) :
    Memory.wfFrom lo' m = true := by
  cases m with
  | nil => rfl
  | cons c rest =>
    simp only [Memory.wfFrom, Bool.and_eq_true, decide_eq_true_eq] at h ⊢
    exact ⟨⟨by omega, h.1.2⟩, h.2⟩

/-- A write at or above `lo` keeps the form from `lo` on. -/
theorem Memory.wfFrom_write {m : Memory} {lo i : Nat} (v : Word) (h : Memory.wfFrom lo m = true) (hi : lo ≤ i) :
    Memory.wfFrom lo (Memory.write m i v) = true := by
  induction m generalizing lo with
  | nil => by_cases hv : v = Memory.unlisted <;> simp [Memory.write, Memory.wfFrom, hv, hi]
  | cons c rest ih =>
    obtain ⟨k, w⟩ := c
    have hc := h
    simp only [Memory.wfFrom, Bool.and_eq_true, decide_eq_true_eq] at hc
    obtain ⟨⟨hk, hw⟩, hr⟩ := hc
    simp only [Memory.write]
    split
    · rename_i hlt
      split
      · exact h
      · rename_i hv
        simp only [Memory.wfFrom, Bool.and_eq_true, decide_eq_true_eq]
        exact ⟨⟨hi, hv⟩, ⟨⟨by omega, hw⟩, hr⟩⟩
    · split
      · rename_i _ he
        subst he
        split
        · exact Memory.wfFrom_mono hr (by omega)
        · rename_i hv
          simp only [Memory.wfFrom, Bool.and_eq_true, decide_eq_true_eq]
          exact ⟨⟨hi, hv⟩, hr⟩
      · simp only [Memory.wfFrom, Bool.and_eq_true, decide_eq_true_eq]
        exact ⟨⟨hk, hw⟩, ih hr (by omega)⟩

/-- A write keeps the canonical form. -/
theorem Memory.wf_write {m : Memory} (i : Nat) (v : Word) (h : m.wf = true) : (Memory.write m i v).wf = true :=
  Memory.wfFrom_write v h (Nat.zero_le i)

/-- Below `lo` a canonical memory lists nothing. -/
theorem Memory.read_below {m : Memory} {lo i : Nat} (h : Memory.wfFrom lo m = true) (hi : i < lo) :
    Memory.read m i = Memory.unlisted := by
  induction m generalizing lo with
  | nil => rfl
  | cons c rest ih =>
    obtain ⟨k, w⟩ := c
    simp only [Memory.wfFrom, Bool.and_eq_true, decide_eq_true_eq] at h
    simp only [Memory.read]
    rw [if_neg (by omega)]
    exact ih h.2 (by omega)

/-- A read after a write to the same word gives the word written. -/
theorem Memory.read_write_same {m : Memory} {lo : Nat} (i : Nat) (v : Word) (h : Memory.wfFrom lo m = true) :
    Memory.read (Memory.write m i v) i = v := by
  induction m generalizing lo with
  | nil => by_cases hv : v = Memory.unlisted <;> simp [Memory.write, Memory.read, hv]
  | cons c rest ih =>
    obtain ⟨k, w⟩ := c
    simp only [Memory.wfFrom, Bool.and_eq_true, decide_eq_true_eq] at h
    simp only [Memory.write]
    split
    · split
      · rename_i hlt hv
        simp only [Memory.read]
        rw [if_neg (by omega), hv]
        exact Memory.read_below h.2 (by omega)
      · simp [Memory.read]
    · split
      · rename_i _ he
        subst he
        split
        · rename_i hv
          rw [hv]
          exact Memory.read_below h.2 (by omega)
        · simp [Memory.read]
      · rename_i _ hne
        simp only [Memory.read]
        rw [if_neg (fun e => hne e.symm)]
        exact ih h.2

/-- A write leaves every other word alone. -/
theorem Memory.read_write_ne {m : Memory} {lo i j : Nat} (v : Word) (h : Memory.wfFrom lo m = true) (hne : j ≠ i) :
    Memory.read (Memory.write m i v) j = Memory.read m j := by
  induction m generalizing lo with
  | nil => by_cases hv : v = Memory.unlisted <;> simp [Memory.write, Memory.read, hv, Ne.symm hne]
  | cons c rest ih =>
    obtain ⟨k, w⟩ := c
    simp only [Memory.wfFrom, Bool.and_eq_true, decide_eq_true_eq] at h
    simp only [Memory.write]
    split
    · split
      · rfl
      · simp [Memory.read, Ne.symm hne]
    · split
      · rename_i _ he
        subst he
        split
        · simp [Memory.read, Ne.symm hne]
        · simp [Memory.read, Ne.symm hne]
      · simp only [Memory.read]
        rw [ih h.2]

/-- A cell of a memory after a write is the written one or was there before. -/
theorem Memory.mem_write {m : Memory} {i : Nat} {v : Word} {c : Nat × Word} (h : c ∈ Memory.write m i v) :
    c.1 = i ∨ c ∈ m := by
  induction m with
  | nil =>
    by_cases hv : v = Memory.unlisted
    · simp [Memory.write, hv] at h
    · simp [Memory.write, hv] at h
      exact .inl (by rw [h])
  | cons d rest ih =>
    obtain ⟨k, w⟩ := d
    simp only [Memory.write] at h
    split at h
    · split at h
      · exact .inr h
      · rcases List.mem_cons.mp h with rfl | h
        · exact .inl rfl
        · exact .inr h
    · split at h
      · split at h
        · exact .inr (List.mem_cons_of_mem _ h)
        · rcases List.mem_cons.mp h with rfl | h
          · exact .inl rfl
          · exact .inr (List.mem_cons_of_mem _ h)
      · rcases List.mem_cons.mp h with rfl | h
        · exact .inr List.mem_cons_self
        · exact (ih h).imp id (List.mem_cons_of_mem _)

/-- A listed index reads as something else than an unlisted one. -/
theorem Memory.read_head {k : Nat} {v : Word} {rest : Memory} : Memory.read ((k, v) :: rest) k = v := by
  simp [Memory.read]

/-- Canonical memories that read alike are equal. -/
theorem Memory.ext_of_wfFrom {m m' : Memory} {lo : Nat} (h : Memory.wfFrom lo m = true)
    (h' : Memory.wfFrom lo m' = true) (he : ∀ k, Memory.read m k = Memory.read m' k) : m = m' := by
  induction m generalizing m' lo with
  | nil =>
    cases m' with
    | nil => rfl
    | cons c' rest' =>
      obtain ⟨k', v'⟩ := c'
      simp only [Memory.wfFrom, Bool.and_eq_true, decide_eq_true_eq] at h'
      exact absurd ((he k').symm.trans rfl) (by rw [Memory.read_head]; exact h'.1.2)
  | cons c rest ih =>
    obtain ⟨k, v⟩ := c
    have hc := h
    simp only [Memory.wfFrom, Bool.and_eq_true, decide_eq_true_eq] at hc
    cases m' with
    | nil => exact absurd ((he k).trans rfl) (by rw [Memory.read_head]; exact hc.1.2)
    | cons c' rest' =>
      obtain ⟨k', v'⟩ := c'
      have hc' := h'
      simp only [Memory.wfFrom, Bool.and_eq_true, decide_eq_true_eq] at hc'
      have hk : k = k' := by
        rcases Nat.lt_trichotomy k k' with hlt | heq | hgt
        · have hz : Memory.read ((k', v') :: rest') k = Memory.unlisted :=
            Memory.read_below (lo := k') (by simp [Memory.wfFrom, hc'.1.2, hc'.2]) hlt
          have := he k
          rw [Memory.read_head, hz] at this
          exact absurd this hc.1.2
        · exact heq
        · have hz : Memory.read ((k, v) :: rest) k' = Memory.unlisted :=
            Memory.read_below (lo := k) (by simp [Memory.wfFrom, hc.1.2, hc.2]) hgt
          have := he k'
          rw [Memory.read_head, hz] at this
          exact absurd this.symm hc'.1.2
      subst hk
      have hv : v = v' := by
        have := he k
        rwa [Memory.read_head, Memory.read_head] at this
      subst hv
      have hrest : rest = rest' := ih hc.2 hc'.2 fun i => by
        by_cases hi : i = k
        · subst hi
          rw [Memory.read_below hc.2 (Nat.lt_succ_self i), Memory.read_below hc'.2 (Nat.lt_succ_self i)]
        · have := he i
          simpa [Memory.read, Ne.symm hi] using this
      rw [hrest]

/-- Canonical memories that read alike are equal, so equal memories are equal data (log 5). -/
theorem Memory.ext_of_wf {m m' : Memory} (h : m.wf = true) (h' : m'.wf = true)
    (he : ∀ k, Memory.read m k = Memory.read m' k) : m = m' := Memory.ext_of_wfFrom h h' he

/-- All a write of a buffer can do: the index exists, and the contents are those of the memory write. -/
theorem Buffer.write_eq_ok {b b' : Buffer} {i : Nat} {v : Word} :
    b.write i v = .ok b' ↔ i < b.words ∧ b' = { b with cells := Memory.write b.cells i v } := by
  simp only [Buffer.write]
  split
  · rename_i h
    simp [h, eq_comm]
  · rename_i h
    simp [h]

/-- All a read of a buffer can do: the index exists, and the word is the memory's. -/
theorem Buffer.read_eq_ok {b : Buffer} {i : Nat} {v : Word} :
    b.read i = .ok v ↔ i < b.words ∧ v = Memory.read b.cells i := by
  simp only [Buffer.read]
  split
  · rename_i h
    simp [h, eq_comm]
  · rename_i h
    simp [h]

/-- A buffer write keeps the buffer's form. -/
theorem Buffer.wf_write {b b' : Buffer} {i : Nat} {v : Word} (h : b.wf = true) (hw : b.write i v = .ok b') :
    b'.wf = true := by
  obtain ⟨hi, rfl⟩ := Buffer.write_eq_ok.mp hw
  simp only [Buffer.wf, Bool.and_eq_true, List.all_eq_true, decide_eq_true_eq] at h ⊢
  refine ⟨Memory.wf_write i v h.1, fun c hc => ?_⟩
  rcases Memory.mem_write hc with e | hc
  · rw [e]; exact hi
  · exact h.2 c hc

/-- A buffer with nothing listed has the form. -/
theorem Buffer.wf_empty (base words : Nat) : Buffer.wf { base := base, words := words, cells := [] } = true := rfl

/-- The contents a batch's abandonment leaves keep the form. -/
theorem abandonOut_wf {b : Buffer} (tick : Nat) (h : b.wf = true) : (abandonOut tick b).wf = true := by
  have key : ∀ (ks : List Nat) (c : Memory), (∀ k ∈ ks, k < b.words) → Buffer.wf { b with cells := c } = true →
      Buffer.wf { b with
        cells := ks.foldl (fun m k => Memory.write m k (Config.outAfterReset tick k)) c } = true := by
    intro ks
    induction ks with
    | nil => intro c _ hc; exact hc
    | cons k ks ih =>
      intro c hks hc
      exact ih _ (fun k' hk' => hks k' (List.mem_cons_of_mem _ hk'))
        (Buffer.wf_write (i := k) (v := Config.outAfterReset tick k) hc
          (Buffer.write_eq_ok.mpr ⟨hks k List.mem_cons_self, rfl⟩))
  exact key _ _ (fun k hk => List.mem_range.mp hk) h

/-- The memory of the reset state is canonical. -/
theorem reset_memory_wf : State.reset.hdr.wf = true ∧ State.reset.out.wf = true := by decide

end Sys2Proof.Machine
end

