-- ==== Sys2Proof/Laws/State.lean ====
section
/-! SUPPORT. One lemma per field per update of the state and of a lane. -/

namespace Sys2Proof.Machine

/-! ## `State.setLane` -/

@[simp] theorem State.setLane_lanes (s : State) (l : Nat) (r : Lane) : (s.setLane l r).lanes = s.lanes.set l r := rfl
@[simp] theorem State.setLane_cfg (s : State) (l : Nat) (r : Lane) : (s.setLane l r).cfg = s.cfg := rfl
@[simp] theorem State.setLane_rom (s : State) (l : Nat) (r : Lane) : (s.setLane l r).rom = s.rom := rfl
@[simp] theorem State.setLane_offset (s : State) (l : Nat) (r : Lane) : (s.setLane l r).offset = s.offset := rfl
@[simp] theorem State.setLane_phase (s : State) (l : Nat) (r : Lane) : (s.setLane l r).phase = s.phase := rfl
@[simp] theorem State.setLane_hdr (s : State) (l : Nat) (r : Lane) : (s.setLane l r).hdr = s.hdr := rfl
@[simp] theorem State.setLane_out (s : State) (l : Nat) (r : Lane) : (s.setLane l r).out = s.out := rfl
@[simp] theorem State.setLane_padgen (s : State) (l : Nat) (r : Lane) : (s.setLane l r).padgen = s.padgen := rfl
@[simp] theorem State.setLane_pending (s : State) (l : Nat) (r : Lane) : (s.setLane l r).pending = s.pending := rfl
@[simp] theorem State.setLane_bind (s : State) (l : Nat) (r : Lane) : (s.setLane l r).bind = s.bind := rfl
@[simp] theorem State.setLane_tick (s : State) (l : Nat) (r : Lane) : (s.setLane l r).tick = s.tick := rfl
@[simp] theorem State.setLane_seenPhase (s : State) (l : Nat) (r : Lane) : (s.setLane l r).seenPhase = s.seenPhase := rfl
@[simp] theorem State.setLane_refusal (s : State) (l : Nat) (r : Lane) : (s.setLane l r).refusal = s.refusal := rfl
@[simp] theorem State.setLane_result (s : State) (l : Nat) (r : Lane) : (s.setLane l r).result = s.result := rfl

/-! ## `placeWord` and `State.withFetchWord` -/

@[simp] theorem placeWord_pending (s : State) (w : OpWord) :
    (placeWord s w).pending = .listing w Binding.default :: s.pending := rfl
@[simp] theorem placeWord_cfg (s : State) (w : OpWord) : (placeWord s w).cfg = s.cfg := rfl
@[simp] theorem placeWord_rom (s : State) (w : OpWord) : (placeWord s w).rom = s.rom := rfl
@[simp] theorem placeWord_lanes (s : State) (w : OpWord) : (placeWord s w).lanes = s.lanes := rfl
@[simp] theorem placeWord_offset (s : State) (w : OpWord) : (placeWord s w).offset = s.offset := rfl
@[simp] theorem placeWord_phase (s : State) (w : OpWord) : (placeWord s w).phase = s.phase := rfl
@[simp] theorem placeWord_hdr (s : State) (w : OpWord) : (placeWord s w).hdr = s.hdr := rfl
@[simp] theorem placeWord_out (s : State) (w : OpWord) : (placeWord s w).out = s.out := rfl
@[simp] theorem placeWord_padgen (s : State) (w : OpWord) : (placeWord s w).padgen = s.padgen := rfl
@[simp] theorem placeWord_bind (s : State) (w : OpWord) : (placeWord s w).bind = s.bind := rfl
@[simp] theorem placeWord_tick (s : State) (w : OpWord) : (placeWord s w).tick = s.tick := rfl
@[simp] theorem placeWord_seenPhase (s : State) (w : OpWord) : (placeWord s w).seenPhase = s.seenPhase := rfl
@[simp] theorem placeWord_refusal (s : State) (w : OpWord) : (placeWord s w).refusal = s.refusal := rfl
@[simp] theorem placeWord_result (s : State) (w : OpWord) : (placeWord s w).result = s.result := rfl

theorem State.withFetchWord_eq (s : State) (nbits w : Nat) :
    s.withFetchWord nbits w = placeWord s (BitVec.ofNat 16 (w % 2 ^ nbits)) := rfl

/-! ## `State.resetOf` -/

@[simp] theorem State.resetOf_cfg (cfg : Params) (hdr out : Buffer) :
    (State.resetOf cfg hdr out).cfg = cfg := rfl
@[simp] theorem State.resetOf_rom (cfg : Params) (hdr out : Buffer) :
    (State.resetOf cfg hdr out).rom = romStandard := rfl
@[simp] theorem State.resetOf_lanes (cfg : Params) (hdr out : Buffer) :
    (State.resetOf cfg hdr out).lanes = (List.range cfg.lanes).map fun l => Lane.blank l .idle := rfl
@[simp] theorem State.resetOf_offset (cfg : Params) (hdr out : Buffer) :
    (State.resetOf cfg hdr out).offset = 0 := rfl
@[simp] theorem State.resetOf_phase (cfg : Params) (hdr out : Buffer) :
    (State.resetOf cfg hdr out).phase = .idle := rfl
@[simp] theorem State.resetOf_hdr (cfg : Params) (hdr out : Buffer) :
    (State.resetOf cfg hdr out).hdr = hdr := rfl
@[simp] theorem State.resetOf_out (cfg : Params) (hdr out : Buffer) :
    (State.resetOf cfg hdr out).out = out := rfl
@[simp] theorem State.resetOf_padgen (cfg : Params) (hdr out : Buffer) :
    (State.resetOf cfg hdr out).padgen = Vector.replicate 64 .unwritten := rfl
@[simp] theorem State.resetOf_pending (cfg : Params) (hdr out : Buffer) :
    (State.resetOf cfg hdr out).pending = [] := rfl
@[simp] theorem State.resetOf_bind (cfg : Params) (hdr out : Buffer) :
    (State.resetOf cfg hdr out).bind = Binding.default := rfl
@[simp] theorem State.resetOf_tick (cfg : Params) (hdr out : Buffer) :
    (State.resetOf cfg hdr out).tick = 0 := rfl
@[simp] theorem State.resetOf_refusal (cfg : Params) (hdr out : Buffer) :
    (State.resetOf cfg hdr out).refusal = .unwritten := rfl
@[simp] theorem State.resetOf_seenPhase (cfg : Params) (hdr out : Buffer) :
    (State.resetOf cfg hdr out).seenPhase = .unwritten := rfl
@[simp] theorem State.resetOf_result (cfg : Params) (hdr out : Buffer) :
    (State.resetOf cfg hdr out).result = .unwritten := rfl

/-! ## `Lane.blank` -/

@[simp] theorem Lane.blank_a (lid : Nat) (q : LaneSeq) : (Lane.blank lid q).a = .unwritten := rfl
@[simp] theorem Lane.blank_b (lid : Nat) (q : LaneSeq) : (Lane.blank lid q).b = .unwritten := rfl
@[simp] theorem Lane.blank_c (lid : Nat) (q : LaneSeq) : (Lane.blank lid q).c = .unwritten := rfl
@[simp] theorem Lane.blank_d (lid : Nat) (q : LaneSeq) : (Lane.blank lid q).d = .unwritten := rfl
@[simp] theorem Lane.blank_e (lid : Nat) (q : LaneSeq) : (Lane.blank lid q).e = .unwritten := rfl
@[simp] theorem Lane.blank_f (lid : Nat) (q : LaneSeq) : (Lane.blank lid q).f = .unwritten := rfl
@[simp] theorem Lane.blank_g (lid : Nat) (q : LaneSeq) : (Lane.blank lid q).g = .unwritten := rfl
@[simp] theorem Lane.blank_h (lid : Nat) (q : LaneSeq) : (Lane.blank lid q).h = .unwritten := rfl
@[simp] theorem Lane.blank_t1 (lid : Nat) (q : LaneSeq) : (Lane.blank lid q).t1 = .unwritten := rfl
@[simp] theorem Lane.blank_t2 (lid : Nat) (q : LaneSeq) : (Lane.blank lid q).t2 = .unwritten := rfl
@[simp] theorem Lane.blank_hp (lid : Nat) (q : LaneSeq) : (Lane.blank lid q).hp = Vector.replicate 8 .unwritten := rfl
@[simp] theorem Lane.blank_hc (lid : Nat) (q : LaneSeq) : (Lane.blank lid q).hc = Vector.replicate 8 .unwritten := rfl
@[simp] theorem Lane.blank_wp (lid : Nat) (q : LaneSeq) : (Lane.blank lid q).wp = Vector.replicate 64 .unwritten := rfl
@[simp] theorem Lane.blank_wc (lid : Nat) (q : LaneSeq) : (Lane.blank lid q).wc = Vector.replicate 64 .unwritten := rfl
@[simp] theorem Lane.blank_nonce (lid : Nat) (q : LaneSeq) : (Lane.blank lid q).nonce = .unwritten := rfl
@[simp] theorem Lane.blank_j (lid : Nat) (q : LaneSeq) : (Lane.blank lid q).j = .unwritten := rfl
@[simp] theorem Lane.blank_lid (lid : Nat) (q : LaneSeq) : (Lane.blank lid q).lid = lid := rfl
@[simp] theorem Lane.blank_hit (lid : Nat) (q : LaneSeq) : (Lane.blank lid q).hit = .unwritten := rfl
@[simp] theorem Lane.blank_lseq (lid : Nat) (q : LaneSeq) : (Lane.blank lid q).lseq = q := rfl

/-! ## `Lane.setHash` and `Lane.setSchedule` -/

@[simp] theorem Lane.setHash_a (r : Lane) (x : HashRegs) (y : Layer) : (r.setHash x y).a = r.a := by
  cases y <;> rfl
@[simp] theorem Lane.setHash_b (r : Lane) (x : HashRegs) (y : Layer) : (r.setHash x y).b = r.b := by
  cases y <;> rfl
@[simp] theorem Lane.setHash_c (r : Lane) (x : HashRegs) (y : Layer) : (r.setHash x y).c = r.c := by
  cases y <;> rfl
@[simp] theorem Lane.setHash_d (r : Lane) (x : HashRegs) (y : Layer) : (r.setHash x y).d = r.d := by
  cases y <;> rfl
@[simp] theorem Lane.setHash_e (r : Lane) (x : HashRegs) (y : Layer) : (r.setHash x y).e = r.e := by
  cases y <;> rfl
@[simp] theorem Lane.setHash_f (r : Lane) (x : HashRegs) (y : Layer) : (r.setHash x y).f = r.f := by
  cases y <;> rfl
@[simp] theorem Lane.setHash_g (r : Lane) (x : HashRegs) (y : Layer) : (r.setHash x y).g = r.g := by
  cases y <;> rfl
@[simp] theorem Lane.setHash_h (r : Lane) (x : HashRegs) (y : Layer) : (r.setHash x y).h = r.h := by
  cases y <;> rfl
@[simp] theorem Lane.setHash_t1 (r : Lane) (x : HashRegs) (y : Layer) : (r.setHash x y).t1 = r.t1 := by
  cases y <;> rfl
@[simp] theorem Lane.setHash_t2 (r : Lane) (x : HashRegs) (y : Layer) : (r.setHash x y).t2 = r.t2 := by
  cases y <;> rfl
@[simp] theorem Lane.setHash_wp (r : Lane) (x : HashRegs) (y : Layer) : (r.setHash x y).wp = r.wp := by
  cases y <;> rfl
@[simp] theorem Lane.setHash_wc (r : Lane) (x : HashRegs) (y : Layer) : (r.setHash x y).wc = r.wc := by
  cases y <;> rfl
@[simp] theorem Lane.setHash_nonce (r : Lane) (x : HashRegs) (y : Layer) : (r.setHash x y).nonce = r.nonce := by
  cases y <;> rfl
@[simp] theorem Lane.setHash_j (r : Lane) (x : HashRegs) (y : Layer) : (r.setHash x y).j = r.j := by
  cases y <;> rfl
@[simp] theorem Lane.setHash_lid (r : Lane) (x : HashRegs) (y : Layer) : (r.setHash x y).lid = r.lid := by
  cases y <;> rfl
@[simp] theorem Lane.setHash_hit (r : Lane) (x : HashRegs) (y : Layer) : (r.setHash x y).hit = r.hit := by
  cases y <;> rfl
@[simp] theorem Lane.setHash_lseq (r : Lane) (x : HashRegs) (y : Layer) : (r.setHash x y).lseq = r.lseq := by
  cases y <;> rfl
@[simp] theorem Lane.hash_setHash (r : Lane) (x : HashRegs) (y : Layer) : (r.setHash x y).hash y = x := by
  cases y <;> rfl
@[simp] theorem Lane.setHash_pow_hc (r : Lane) (x : HashRegs) : (r.setHash x .pow).hc = r.hc := rfl
@[simp] theorem Lane.setHash_pow_hp (r : Lane) (x : HashRegs) : (r.setHash x .pow).hp = x := rfl
@[simp] theorem Lane.setHash_chain_hp (r : Lane) (x : HashRegs) : (r.setHash x .chain).hp = r.hp := rfl
@[simp] theorem Lane.setHash_chain_hc (r : Lane) (x : HashRegs) : (r.setHash x .chain).hc = x := rfl
@[simp] theorem Lane.schedule_setHash (r : Lane) (x : HashRegs) (y z : Layer) :
    (r.setHash x y).schedule z = r.schedule z := by
  cases y <;> cases z <;> rfl
@[simp] theorem Lane.setSchedule_a (r : Lane) (w : SchedRegs) (y : Layer) : (r.setSchedule w y).a = r.a := by
  cases y <;> rfl
@[simp] theorem Lane.setSchedule_b (r : Lane) (w : SchedRegs) (y : Layer) : (r.setSchedule w y).b = r.b := by
  cases y <;> rfl
@[simp] theorem Lane.setSchedule_c (r : Lane) (w : SchedRegs) (y : Layer) : (r.setSchedule w y).c = r.c := by
  cases y <;> rfl
@[simp] theorem Lane.setSchedule_d (r : Lane) (w : SchedRegs) (y : Layer) : (r.setSchedule w y).d = r.d := by
  cases y <;> rfl
@[simp] theorem Lane.setSchedule_e (r : Lane) (w : SchedRegs) (y : Layer) : (r.setSchedule w y).e = r.e := by
  cases y <;> rfl
@[simp] theorem Lane.setSchedule_f (r : Lane) (w : SchedRegs) (y : Layer) : (r.setSchedule w y).f = r.f := by
  cases y <;> rfl
@[simp] theorem Lane.setSchedule_g (r : Lane) (w : SchedRegs) (y : Layer) : (r.setSchedule w y).g = r.g := by
  cases y <;> rfl
@[simp] theorem Lane.setSchedule_h (r : Lane) (w : SchedRegs) (y : Layer) : (r.setSchedule w y).h = r.h := by
  cases y <;> rfl
@[simp] theorem Lane.setSchedule_t1 (r : Lane) (w : SchedRegs) (y : Layer) : (r.setSchedule w y).t1 = r.t1 := by
  cases y <;> rfl
@[simp] theorem Lane.setSchedule_t2 (r : Lane) (w : SchedRegs) (y : Layer) : (r.setSchedule w y).t2 = r.t2 := by
  cases y <;> rfl
@[simp] theorem Lane.setSchedule_hp (r : Lane) (w : SchedRegs) (y : Layer) : (r.setSchedule w y).hp = r.hp := by
  cases y <;> rfl
@[simp] theorem Lane.setSchedule_hc (r : Lane) (w : SchedRegs) (y : Layer) : (r.setSchedule w y).hc = r.hc := by
  cases y <;> rfl
@[simp] theorem Lane.setSchedule_nonce (r : Lane) (w : SchedRegs) (y : Layer) : (r.setSchedule w y).nonce = r.nonce := by
  cases y <;> rfl
@[simp] theorem Lane.setSchedule_j (r : Lane) (w : SchedRegs) (y : Layer) : (r.setSchedule w y).j = r.j := by
  cases y <;> rfl
@[simp] theorem Lane.setSchedule_lid (r : Lane) (w : SchedRegs) (y : Layer) : (r.setSchedule w y).lid = r.lid := by
  cases y <;> rfl
@[simp] theorem Lane.setSchedule_hit (r : Lane) (w : SchedRegs) (y : Layer) : (r.setSchedule w y).hit = r.hit := by
  cases y <;> rfl
@[simp] theorem Lane.setSchedule_lseq (r : Lane) (w : SchedRegs) (y : Layer) : (r.setSchedule w y).lseq = r.lseq := by
  cases y <;> rfl
@[simp] theorem Lane.schedule_setSchedule (r : Lane) (w : SchedRegs) (y : Layer) :
    (r.setSchedule w y).schedule y = w := by
  cases y <;> rfl
@[simp] theorem Lane.setSchedule_pow_wc (r : Lane) (w : SchedRegs) : (r.setSchedule w .pow).wc = r.wc := rfl
@[simp] theorem Lane.setSchedule_pow_wp (r : Lane) (w : SchedRegs) : (r.setSchedule w .pow).wp = w := rfl
@[simp] theorem Lane.setSchedule_chain_wp (r : Lane) (w : SchedRegs) : (r.setSchedule w .chain).wp = r.wp := rfl
@[simp] theorem Lane.setSchedule_chain_wc (r : Lane) (w : SchedRegs) : (r.setSchedule w .chain).wc = w := rfl
@[simp] theorem Lane.hash_setSchedule (r : Lane) (w : SchedRegs) (y z : Layer) :
    (r.setSchedule w y).hash z = r.hash z := by
  cases y <;> cases z <;> rfl

/-! ## `WordReg.write` -/

@[simp] theorem WordReg.write_j (r : Lane) (v : Word) (n : WordReg) : (n.write r v).j = r.j := by
  cases n <;> rfl
@[simp] theorem WordReg.write_lid (r : Lane) (v : Word) (n : WordReg) : (n.write r v).lid = r.lid := by
  cases n <;> rfl
@[simp] theorem WordReg.write_hit (r : Lane) (v : Word) (n : WordReg) : (n.write r v).hit = r.hit := by
  cases n <;> rfl
@[simp] theorem WordReg.write_lseq (r : Lane) (v : Word) (n : WordReg) : (n.write r v).lseq = r.lseq := by
  cases n <;> rfl

theorem getElem_setAt_same {n : Nat} (x : Vector (Reg Word) n) (k : Fin n) (v : Word) : (setAt x k v)[k] = .holds v := by
  simp [setAt]

theorem getElem_setAt_ne {n : Nat} (x : Vector (Reg Word) n) (k i : Fin n) (v : Word) (h : k ≠ i) :
    (setAt x k v)[i] = x[i] := by
  have h' : k.val ≠ i.val := fun e => h (Fin.ext e)
  simp [setAt, h']

/-- The written register or element reads back. -/
@[simp] theorem WordReg.cell_write_same (r : Lane) (v : Word) (n : WordReg) : n.cell (n.write r v) = .holds v := by
  cases n <;> first | rfl | exact getElem_setAt_same _ _ _

/-- Every other register or element is unchanged. -/
theorem WordReg.cell_write_ne (r : Lane) (v : Word) (m n : WordReg) (h : m ≠ n) : n.cell (m.write r v) = n.cell r := by
  cases m <;> cases n <;>
    first
    | rfl
    | exact absurd rfl h
    | exact getElem_setAt_ne _ _ _ _ fun e => h (congrArg _ e)

end Sys2Proof.Machine
end

