-- ==== Sys2Proof/Laws/Ops.lean ====
section
/-! SUPPORT. What each shared operation can do, said once. -/

namespace Sys2Proof.Machine

/-- A sequence of two parts that may fault answers a value only through both. -/
theorem bind_eq_ok {α β : Type} {x : Except Fault α} {f : α → Except Fault β} {b : β} :
    (x >>= f) = .ok b ↔ ∃ a, x = .ok a ∧ f a = .ok b := by
  cases x with
  | error e => simp [bind, Except.bind]
  | ok a => simp [bind, Except.bind]

@[simp] theorem ok_bind {α β : Type} (a : α) (f : α → Except Fault β) : ((Except.ok a : Except Fault α) >>= f) = f a := rfl

@[simp] theorem error_bind {α β : Type} (e : Fault) (f : α → Except Fault β) :
    ((Except.error e : Except Fault α) >>= f) = .error e := rfl

@[simp] theorem Reg.get_holds {α : Type} (v : α) : (Reg.holds v).get = .ok v := rfl

@[simp] theorem Reg.get_unwritten {α : Type} : (Reg.unwritten : Reg α).get = .error .unwrittenRegister := rfl

/-- A register that reads holds the value read. -/
theorem Reg.get_eq_ok {α : Type} {x : Reg α} {v : α} : x.get = .ok v ↔ x = .holds v := by
  cases x <;> simp

/-- A register read faults only by being unwritten. -/
theorem Reg.get_eq_error {α : Type} {x : Reg α} {f : Fault} : x.get = .error f ↔ x = .unwritten ∧ f = .unwrittenRegister := by
  cases x <;> simp [eq_comm]

@[simp] theorem at64_val {n : Nat} (h : n < 64) : (at64 n).val = n := Nat.mod_eq_of_lt h

@[simp] theorem Src.value_lit (r : Lane) (w : Word) : Src.value r (.lit w) = .ok w := rfl

@[simp] theorem Src.value_reg (r : Lane) (n : WordReg) : Src.value r (.reg n) = (n.cell r).get := rfl

/-- A hash state of eight held words gives these words. -/
@[simp] theorem hashValue_hashHolding (x : Vector Word 8) : hashValue (hashHolding x) = .ok x := by
  refine congrArg Except.ok (Vector.ext fun k hk => ?_)
  interval_cases k <;> rfl

/-- An operation of a lane answers a next state exactly when the lane exists and the operation answers; it then puts
that lane back and touches nothing else. -/
theorem onLane_eq_next {s t : State} {op : Lane → Except Fault Lane} :
    onLane s op = .next t ↔
      ∃ r r', s.lanes[s.bind.lane]? = some r ∧ op r = .ok r' ∧ t = s.setLane s.bind.lane r' := by
  unfold onLane
  cases h : s.lanes[s.bind.lane]? with
  | none => simp
  | some r =>
    cases h' : op r with
    | error f => simp [h']
    | ok r' => simp [h', eq_comm]

/-- The same for an operation that may write `OUT`. -/
theorem onLaneOut_eq_next {s t : State} {op : Lane → Buffer → Except Fault (Lane × Buffer)} :
    onLaneOut s op = .next t ↔
      ∃ r r' out', s.lanes[s.bind.lane]? = some r ∧ op r s.out = .ok (r', out') ∧
        t = { s.setLane s.bind.lane r' with out := out' } := by
  unfold onLaneOut
  cases h : s.lanes[s.bind.lane]? with
  | none => simp
  | some r =>
    cases h' : op r s.out with
    | error f => simp [h']
    | ok p => obtain ⟨r', out'⟩ := p; simp [h', eq_comm]

/-- A lane's step answers a next state exactly when the lane exists and its sequencer answers. -/
theorem laneStep_eq_next {s t : State} {l : Nat} :
    laneStep s l = .next t ↔
      ∃ r r' out', s.lanes[l]? = some r ∧ laneSequence s r s.out = .ok (r', out') ∧
        t = { s.setLane l r' with out := out' } := by
  unfold laneStep
  cases h : s.lanes[l]? with
  | none => simp
  | some r =>
    cases h' : laneSequence s r s.out with
    | error f => simp [h']
    | ok p => obtain ⟨r', out'⟩ := p; simp [h', eq_comm]

/-- A step of a batch completes it, steps one unfinished lane, or finds none. -/
theorem batchStep_eq_next {s t : State} {c : Nat} (h : batchStep c s = .next t) :
    (s.lanes.all Lane.isDone = true ∧ t = { s with phase := .done }) ∨
    (∃ l, pick (unfinished 0 s.lanes) c = some l ∧ laneStep s l = .next t) ∨
    (pick (unfinished 0 s.lanes) c = none ∧ t = s) := by
  unfold batchStep at h
  split at h
  · rename_i hd
    simp only [Host.Outcome.next.injEq] at h
    exact .inl ⟨hd, h.symm⟩
  · split at h
    · rename_i l hl
      exact .inr (.inl ⟨l, hl, h⟩)
    · rename_i hn
      simp only [Host.Outcome.next.injEq] at h
      exact .inr (.inr ⟨hn, h.symm⟩)

/-- A host write answers a next state outside a batch only, with the buffer it made. -/
theorem hostWrite_eq_next {s t : State} {b : Except Fault Buffer} {put : Buffer → State} :
    hostWrite s b put = .next t ↔ s.phase ≠ .running ∧ ∃ b', b = .ok b' ∧ t = put b' := by
  unfold hostWrite
  by_cases h : s.phase = .running
  · simp [h]
  · cases b <;> simp [h, eq_comm]

/-- A launch answers a next state exactly when every condition of admission holds (45_search_loop.md R132). -/
theorem execLaunch_eq_next {s t : State} :
    execLaunch s = .next t ↔ launchFailure s = none ∧
      t = { s with offset := s.bind.offset, lanes := s.lanes.map (launchLane s.cfg), phase := .running } := by
  unfold execLaunch
  cases h : launchFailure s <;> simp [eq_comm]

/-- Admission in words (45_search_loop.md R132). -/
theorem launchFailure_eq_none {s : State} :
    launchFailure s = none ↔ s.phase ≠ .running ∧ s.hdr.words = 21 ∧ s.out.words = 129 ∧
      s.hdr.base % 4 = 0 ∧ s.out.base % 4 = 0 := by
  unfold launchFailure
  by_cases h1 : s.phase = .running
  · simp [h1]
  · by_cases h2 : s.hdr.words = 21
    · by_cases h3 : s.out.words = 129
      · by_cases h4 : s.hdr.base % 4 = 0 <;> by_cases h5 : s.out.base % 4 = 0 <;> simp [h1, h2, h3, h4, h5]
      · simp [h1, h2, h3]
    · simp [h1, h2]

/-- The found value is not zero (00_scope.md R10). -/
theorem FoundValue.ne_zero (f : FoundValue) : f.word ≠ 0#32 := by
  intro h
  have := f.nonzero
  simp [h] at this

/-- Only a refused `LAUNCH` answers otherwise than the operation does: the state is then as it was but for the condition
named. -/
theorem goOn_eq_next {s t : State} {o : Host.Outcome State Fault Refusal} :
    goOn s o = .next t ↔ o = .next t ∨ ∃ c, o = .refused (.launchContract c) ∧ t = { s with refusal := .holds c } := by
  cases o with
  | next u => simp [goOn]
  | fault f => simp [goOn]
  | refused r => cases r <;> simp [goOn, eq_comm]

/-- An outcome that is no refused `LAUNCH` stands. -/
theorem goOn_of_ne {s : State} {o : Host.Outcome State Fault Refusal}
    (h : ∀ c, o ≠ .refused (.launchContract c)) : goOn s o = o := by
  cases o with
  | next u => rfl
  | fault f => rfl
  | refused r =>
    cases r
    case launchContract c => exact absurd rfl (h c)
    all_goals rfl

/-- Serving an operation word that decodes is performing its operation with the operands given beside it. -/
theorem serveOp_ok {s : State} {w : OpWord} {b : Binding} {i : Instr} (h : decode w = .ok i) :
    serveOp s w b = serveInstr s i b := by
  simp [serveOp, h]

/-- Serving an invalid word refuses it by name (30_encoding.md R73). -/
theorem serveOp_error {s : State} {w : OpWord} {b : Binding} {v : Invalid} (h : decode w = .error v) :
    serveOp s w b = .refused (.invalidOperation v) := by
  simp [serveOp, h]

/-- A step serves the next request. -/
theorem step_cons {s : State} {m : Request} {rest : List Request} (h : s.pending = m :: rest) :
    step s = serve m rest s := by
  simp [step, cycle, h]

/-- With no request, a running batch goes on and an idle or completed block waits. -/
theorem step_nil {s : State} (h : s.pending = []) :
    step s = if s.phase = .running then agentsStep s else .next s := by
  cases hp : s.phase <;> simp [step, cycle, h, hp]

end Sys2Proof.Machine
end

