-- ==== Sys2Proof/Laws/Lane.lean ====
section
/-! SUPPORT. What each operation of a lane can do, said once: when it answers, and with what. -/

namespace Sys2Proof.Machine

/-- A hash state gives a value exactly when its eight words are written. -/
theorem hashValue_eq_ok {x : HashRegs} {v : Vector Word 8} : hashValue x = .ok v ↔ x = hashHolding v := by
  constructor
  · intro h
    simp only [hashValue, bind_eq_ok, Reg.get_eq_ok, Except.ok.injEq] at h
    obtain ⟨x0, h0, x1, h1, x2, h2, x3, h3, x4, h4, x5, h5, x6, h6, x7, h7, rfl⟩ := h
    refine Vector.ext fun k hk => ?_
    interval_cases k <;> assumption
  · rintro rfl
    exact hashValue_hashHolding v

/-- One step of an expansion answers exactly when its four words are written, and writes the one word of R98. -/
theorem expandAt_eq_ok {w w' : SchedRegs} {i : Nat} :
    expandAt w i = .ok w' ↔ ∃ w16 w15 w7 w2 : Word,
      w[at64 (i - 16)] = .holds w16 ∧ w[at64 (i - 15)] = .holds w15 ∧ w[at64 (i - 7)] = .holds w7 ∧
      w[at64 (i - 2)] = .holds w2 ∧
      w' = setAt w (at64 i) (addW (addW (addW w16 (ssig0W w15)) w7) (ssig1W w2)) := by
  simp only [expandAt, bind_eq_ok, Reg.get_eq_ok, Except.ok.injEq]
  constructor
  · rintro ⟨a, ha, b, hb, c, hc, d, hd, rfl⟩
    exact ⟨a, b, c, d, ha, hb, hc, hd, rfl⟩
  · rintro ⟨a, b, c, d, ha, hb, hc, hd, rfl⟩
    exact ⟨a, ha, b, hb, c, hc, d, hd, rfl⟩

/-- An expansion of a layer answers exactly when its steps do, and writes that schedule only. -/
theorem expandLayer_eq_ok {y : Layer} {r r' : Lane} :
    expandLayer y r = .ok r' ↔ ∃ w, expandAll (r.schedule y) = .ok w ∧ r' = r.setSchedule w y := by
  simp only [expandLayer, bind_eq_ok, Except.ok.injEq]
  constructor <;> rintro ⟨v, h, h'⟩ <;> exact ⟨v, h, h'.symm⟩

/-- `PADGEN` answers exactly when the expansion of `PADRAW` does, and writes its result only. -/
theorem execPadgen_eq_next {s t : State} :
    execPadgen s = .next t ↔ ∃ w, expandAll (rawSchedule s.rom.padRaw) = .ok w ∧ t = { s with padgen := w } := by
  unfold execPadgen
  generalize expandAll (rawSchedule s.rom.padRaw) = x
  cases x <;> simp [eq_comm]

/-- A round answers exactly when the eight working registers are written; it writes them, `T1` and `T2`. -/
theorem roundWith_eq_ok {k w : Word} {r r' : Lane} :
    roundWith k w r = .ok r' ↔ ∃ a b c d e f g h : Word,
      r.a = .holds a ∧ r.b = .holds b ∧ r.c = .holds c ∧ r.d = .holds d ∧
      r.e = .holds e ∧ r.f = .holds f ∧ r.g = .holds g ∧ r.h = .holds h ∧
      r' = { r with
        t1 := .holds (addW (addW (addW (addW h (bsig1W e)) (chW e f g)) k) w)
        t2 := .holds (addW (bsig0W a) (majW a b c))
        h := .holds g
        g := .holds f
        f := .holds e
        e := .holds (addW d (addW (addW (addW (addW h (bsig1W e)) (chW e f g)) k) w))
        d := .holds c
        c := .holds b
        b := .holds a
        a := .holds (addW (addW (addW (addW (addW h (bsig1W e)) (chW e f g)) k) w)
          (addW (bsig0W a) (majW a b c))) } := by
  simp only [roundWith, bind_eq_ok, Reg.get_eq_ok, Except.ok.injEq]
  constructor
  · rintro ⟨a, ha, b, hb, c, hc, d, hd, e, he, f, hf, g, hg, h, hh, rfl⟩
    exact ⟨a, b, c, d, e, f, g, h, ha, hb, hc, hd, he, hf, hg, hh, rfl⟩
  · rintro ⟨a, b, c, d, e, f, g, h, ha, hb, hc, hd, he, hf, hg, hh, rfl⟩
    exact ⟨a, ha, b, hb, c, hc, d, hd, e, he, f, hf, g, hg, h, hh, rfl⟩

/-- The working registers load exactly from a written hash state. -/
theorem loadWorking_eq_ok {x : HashRegs} {r r' : Lane} :
    loadWorking x r = .ok r' ↔ ∃ v, x = hashHolding v ∧ r' = { r with
      a := .holds v[0], b := .holds v[1], c := .holds v[2], d := .holds v[3],
      e := .holds v[4], f := .holds v[5], g := .holds v[6], h := .holds v[7] } := by
  simp only [loadWorking, bind_eq_ok, hashValue_eq_ok, Except.ok.injEq]
  constructor <;> rintro ⟨v, h, h'⟩ <;> exact ⟨v, h, h'.symm⟩

/-- The feed-forward answers exactly when the hash state and the working registers are written; it writes the hash
state only. -/
theorem feedForward_eq_ok {y : Layer} {r r' : Lane} :
    feedForward y r = .ok r' ↔ ∃ (v : Vector Word 8) (a b c d e f g h : Word), r.hash y = hashHolding v ∧
      r.a = .holds a ∧ r.b = .holds b ∧ r.c = .holds c ∧ r.d = .holds d ∧
      r.e = .holds e ∧ r.f = .holds f ∧ r.g = .holds g ∧ r.h = .holds h ∧
      r' = r.setHash (hashHolding #v[addW v[0] a, addW v[1] b, addW v[2] c, addW v[3] d,
        addW v[4] e, addW v[5] f, addW v[6] g, addW v[7] h]) y := by
  simp only [feedForward, bind_eq_ok, hashValue_eq_ok, Reg.get_eq_ok, Except.ok.injEq]
  constructor
  · rintro ⟨v, hv, a, ha, b, hb, c, hc, d, hd, e, he, f, hf, g, hg, h, hh, rfl⟩
    exact ⟨v, a, b, c, d, e, f, g, h, hv, ha, hb, hc, hd, he, hf, hg, hh, rfl⟩
  · rintro ⟨v, a, b, c, d, e, f, g, h, hv, ha, hb, hc, hd, he, hf, hg, hh, rfl⟩
    exact ⟨v, hv, a, ha, b, hb, c, hc, d, hd, e, he, f, hf, g, hg, h, hh, rfl⟩

/-- A compression is its three parts, each answering. -/
theorem compressOver_eq_ok {rom : Rom} {y : Layer} {n : SchedName} {r r' : Lane} :
    compressOver rom y n r = .ok r' ↔
      ∃ r1 r2, loadWorking (r.hash y) r = .ok r1 ∧ roundsFirst rom n 64 r1 = .ok r2 ∧ feedForward y r2 = .ok r' := by
  simp only [compressOver, bind_eq_ok]
  constructor
  · rintro ⟨r1, h1, r2, h2, h3⟩; exact ⟨r1, r2, h1, h2, h3⟩
  · rintro ⟨r1, r2, h1, h2, h3⟩; exact ⟨r1, h1, r2, h2, h3⟩

/-- The nonce is generated exactly when `J` is written; only `NONCE` is written. -/
theorem nonceGenLane_eq_ok {cfg : Params} {offset : Word} {r r' : Lane} :
    nonceGenLane cfg offset r = .ok r' ↔
      ∃ j, r.j = .holds j ∧ r' = { r with nonce := .holds (nonceOf cfg offset r.lid j) } := by
  simp only [nonceGenLane, bind_eq_ok, Reg.get_eq_ok, Except.ok.injEq]
  constructor <;> rintro ⟨v, h, h'⟩ <;> exact ⟨v, h, h'.symm⟩

/-- The test answers exactly when the final digest is written; only `HIT` is written. -/
theorem testLane_eq_ok {cfg : Params} {r r' : Lane} :
    testLane cfg r = .ok r' ↔
      ∃ fd, r.hc = hashHolding fd ∧ r' = { r with hit := .holds (predHolds cfg.pred fd) } := by
  simp only [testLane, bind_eq_ok, hashValue_eq_ok, Except.ok.injEq]
  constructor <;> rintro ⟨v, h, h'⟩ <;> exact ⟨v, h, h'.symm⟩

/-- All `RECORD` can do: nothing on a miss, the flag and then the slot on a hit. -/
theorem recordLane_eq_ok {cfg : Params} {r : Lane} {out out' : Buffer} :
    recordLane cfg r out = .ok out' ↔
      (r.hit = .holds false ∧ out' = out) ∨
      (r.hit = .holds true ∧ ∃ n, r.nonce = .holds n ∧ foundSlot < out.words ∧ slotOf n < out.words ∧
        out' = { out with
          cells := Memory.write (Memory.write out.cells foundSlot cfg.foundValue.word) (slotOf n) n }) := by
  simp only [recordLane, bind_eq_ok, Reg.get_eq_ok]
  constructor
  · rintro ⟨hit, hh, h⟩
    cases hit with
    | false =>
      simp only [Bool.false_eq_true, if_false, Except.ok.injEq] at h
      exact .inl ⟨hh, h.symm⟩
    | true =>
      simp only [if_true, bind_eq_ok, Reg.get_eq_ok, Buffer.write_eq_ok] at h
      obtain ⟨n, hn, o1, ⟨hf, rfl⟩, hs, rfl⟩ := h
      exact .inr ⟨hh, n, hn, hf, hs, rfl⟩
  · rintro (⟨hh, rfl⟩ | ⟨hh, n, hn, hf, hs, rfl⟩)
    · exact ⟨false, hh, by simp⟩
    · refine ⟨true, hh, ?_⟩
      simp only [if_true, bind_eq_ok, Reg.get_eq_ok, Buffer.write_eq_ok]
      exact ⟨n, hn, _, ⟨hf, rfl⟩, hs, rfl⟩

/-- A trial is its five operations in order, each answering (45_search_loop.md R130). -/
theorem trialLane_eq_ok {s : State} {r r' : Lane} {out out' : Buffer} :
    trialLane s r out = .ok (r', out') ↔
      ∃ r1 r2 r3, nonceGenLane s.cfg s.offset r = .ok r1 ∧ powHashLane s.rom s.hdr r1 = .ok r2 ∧
        chainHashLane s.rom s.hdr r2 = .ok r3 ∧ testLane s.cfg r3 = .ok r' ∧ recordLane s.cfg r' out = .ok out' := by
  simp only [trialLane, bind_eq_ok, Except.ok.injEq, Prod.mk.injEq]
  constructor
  · rintro ⟨r1, h1, r2, h2, r3, h3, r4, h4, o, h5, rfl, rfl⟩
    exact ⟨r1, r2, r3, h1, h2, h3, h4, h5⟩
  · rintro ⟨r1, r2, r3, h1, h2, h3, h4, h5⟩
    exact ⟨r1, h1, r2, h2, r3, h3, r', h4, out', h5, rfl, rfl⟩

/-- The sequencer of a lane in `Run(j)` performs trial j and goes on (10_state.md R28). -/
theorem laneSequence_run {s : State} {r r' : Lane} {out out' : Buffer} {j : Nat} (h : r.lseq = .run j) :
    laneSequence s r out = .ok (r', out') ↔
      ∃ r1, trialAt s j r out = .ok (r1, out') ∧
        r' = { r1 with lseq := if j + 1 < s.cfg.iters then .run (j + 1) else .done } := by
  simp only [laneSequence, h, bind_eq_ok, Except.ok.injEq, Prod.mk.injEq]
  constructor
  · rintro ⟨⟨r1, o⟩, h1, rfl, rfl⟩; exact ⟨r1, h1, rfl⟩
  · rintro ⟨r1, h1, rfl⟩; exact ⟨(r1, out'), h1, rfl, rfl⟩

end Sys2Proof.Machine
end

