-- ==== Sys2Proof/Laws/PerInstr.lean ====
section
/-! SUPPORT. Statements about every operation as syntax, one lemma per constructor. -/

namespace Sys2Proof.Laws

/-- The operation's word has its code in OPC and its immediate in IMM8 (30_encoding.md R69). -/
abbrev EncodedFields.Statement (i : Instr) : Prop := opcField (encode i) = opcode i ∧ immField (encode i) = imm8 i

theorem EncodedFields.add : EncodedFields.Statement .add := by decide
theorem EncodedFields.and : EncodedFields.Statement .and := by decide
theorem EncodedFields.or : EncodedFields.Statement .or := by decide
theorem EncodedFields.xor : EncodedFields.Statement .xor := by decide
theorem EncodedFields.not : EncodedFields.Statement .not := by decide
theorem EncodedFields.rotr (n : BitVec 5) : EncodedFields.Statement (.rotr n) := by
  revert n; decide
theorem EncodedFields.shr (n : BitVec 5) : EncodedFields.Statement (.shr n) := by
  revert n; decide
theorem EncodedFields.bsig0 : EncodedFields.Statement .bsig0 := by decide
theorem EncodedFields.bsig1 : EncodedFields.Statement .bsig1 := by decide
theorem EncodedFields.ch : EncodedFields.Statement .ch := by decide
theorem EncodedFields.maj : EncodedFields.Statement .maj := by decide
theorem EncodedFields.ssig0 : EncodedFields.Statement .ssig0 := by decide
theorem EncodedFields.ssig1 : EncodedFields.Statement .ssig1 := by decide
theorem EncodedFields.expandStep (k : BitVec 6) : EncodedFields.Statement (.expandStep k) := by
  revert k; decide
theorem EncodedFields.expand : EncodedFields.Statement .expand := by decide
theorem EncodedFields.padgen : EncodedFields.Statement .padgen := by decide
theorem EncodedFields.initIv : EncodedFields.Statement .initIv := by decide
theorem EncodedFields.round (k : BitVec 6) : EncodedFields.Statement (.round k) := by
  revert k; decide
theorem EncodedFields.compressW : EncodedFields.Statement .compressW := by decide
theorem EncodedFields.compressP : EncodedFields.Statement .compressP := by decide
theorem EncodedFields.powHash : EncodedFields.Statement .powHash := by decide
theorem EncodedFields.chainHash : EncodedFields.Statement .chainHash := by decide
theorem EncodedFields.nonceGen : EncodedFields.Statement .nonceGen := by decide
theorem EncodedFields.test : EncodedFields.Statement .test := by decide
theorem EncodedFields.record : EncodedFields.Statement .record := by decide
theorem EncodedFields.trial : EncodedFields.Statement .trial := by decide
theorem EncodedFields.laneRun : EncodedFields.Statement .laneRun := by decide
theorem EncodedFields.launch : EncodedFields.Statement .launch := by decide

end Sys2Proof.Laws
end

