-- ==== Sys2Proof/Laws/Step.lean ====
section
/-! SUPPORT. Everything a step of the whole machine can do, said once, and what the platform can choose. -/

namespace Sys2Proof.Machine

/-- A written element holds the word written. -/
theorem setAt_same {n : Nat} (x : Vector (Reg Word) n) (k : Fin n) (v : Word) : (setAt x k v)[k] = .holds v := by
  simp [setAt]

/-- Writing an element leaves the others. -/
theorem setAt_ne {n : Nat} (x : Vector (Reg Word) n) {k i : Fin n} (v : Word) (h : i ≠ k) : (setAt x k v)[i] = x[i] := by
  unfold setAt
  simp only [Fin.getElem_fin]
  rw [Vector.getElem_set_ne]
  omega

/-- The platform chooses one of the lanes offered. -/
theorem mem_of_pick {ls : List Nat} {c l : Nat} (h : pick ls c = some l) : l ∈ ls := by
  match ls, h with
  | [_], h => simp only [pick, Option.some.injEq] at h; simp [h]
  | _ :: _ :: _, h => exact List.mem_of_getElem? h

/-- The platform chooses nothing only where nothing is offered. -/
theorem pick_eq_none {ls : List Nat} {c : Nat} (h : pick ls c = none) : ls = [] := by
  match ls, h with
  | [], _ => rfl
  | [_], h => simp [pick] at h
  | _ :: _ :: rest, h =>
    simp only [pick, List.getElem?_eq_none_iff] at h
    have := Nat.mod_lt c (show 0 < rest.length + 2 by omega)
    simp only [List.length_cons] at h
    omega

/-- Every lane offered is the one chosen under some choice. -/
theorem exists_pick {ls : List Nat} {l : Nat} (h : l ∈ ls) : ∃ c, pick ls c = some l := by
  match ls, h with
  | [_], h => exact ⟨0, by simpa [pick, eq_comm] using h⟩
  | _ :: _ :: rest, h =>
    obtain ⟨n, hn, he⟩ := List.getElem_of_mem h
    have hn' : n < rest.length + 2 := by simpa only [List.length_cons] using hn
    exact ⟨n, by simp only [pick]; rw [Nat.mod_eq_of_lt hn', List.getElem?_eq_getElem hn, he]⟩

/-- What a next state of `step` can come from: an operation of the host or of a listing, a refused `LAUNCH`, a host write
or placement, a reading of `PHASE`, a collection, a reset, the lanes of a running batch, or nothing at all. -/
inductive StepForm (s t : State) : Prop where
  | op (i : Instr) (b : Binding) (rest : List Request) :
      ((∃ w, s.pending = .listing w b :: rest ∧ decode w = .ok i) ∨
        ∃ offset, s.pending = .host (.launch offset) :: rest ∧ i = .launch ∧ b = Binding.launch offset) →
      exec i { s with pending := rest, bind := b } = .next t → StepForm s t
  | refusedLaunch (rest : List Request) (c : LaunchCondition) :
      t = { s with pending := rest, refusal := .holds c } → StepForm s t
  | hostWrite (rest : List Request) (hdr out : Buffer) : s.phase ≠ .running →
      t = { s with pending := rest, hdr := hdr, out := out } →
      (s.hdr.wf = true → hdr.wf = true) → (s.out.wf = true → out.wf = true) → StepForm s t
  | phaseRead (rest : List Request) (p : Reg Phase) : t = { s with pending := rest, seenPhase := p } → StepForm s t
  | collect (rest : List Request) (words : Reg (List Word)) : s.phase = .done →
      t = { s with pending := rest, result := words } → StepForm s t
  | reset (rest : List Request) : s.pending = .reset :: rest → hostReset { s with pending := rest } = .next t →
      StepForm s t
  | agents : (s.pending = [] ∨ ∃ rest, s.pending = .host .wait :: rest) → s.phase = .running →
      agentsStep s = .next t → StepForm s t
  | stay : s.phase ≠ .running → t = s → StepForm s t

/-- Every next state of `step` is of one of these forms. -/
theorem step_form {s t : State} (h : step s = .next t) : StepForm s t := by
  cases hp : s.pending with
  | nil =>
    rw [step_nil hp] at h
    split at h
    · exact .agents (.inl hp) ‹_› h
    · cases h; exact .stay ‹_› rfl
  | cons m rest =>
    rw [step_cons hp] at h
    cases m with
    | listing w b =>
      simp only [serve] at h
      cases hd : decode w with
      | ok i =>
        rw [serveOp_ok hd] at h
        rcases goOn_eq_next.1 h with h | ⟨c, -, rfl⟩
        · exact .op i b rest (.inl ⟨w, hp, hd⟩) h
        · exact .refusedLaunch rest c rfl
      | error v => simp [serveOp_error hd] at h
    | reset => exact .reset rest hp h
    | host m =>
      simp only [serve] at h
      unfold serveHost at h
      cases m with
      | launch offset =>
        rcases goOn_eq_next.1 h with h | ⟨c, -, rfl⟩
        · exact .op .launch _ rest (.inr ⟨offset, hp, rfl, rfl⟩) h
        · exact .refusedLaunch rest c rfl
      | writeHdr i v =>
        obtain ⟨h1, b, hb, rfl⟩ := hostWrite_eq_next.1 h
        exact .hostWrite rest b s.out h1 rfl (fun hw => Buffer.wf_write hw hb) id
      | writeOut i v =>
        obtain ⟨h1, b, hb, rfl⟩ := hostWrite_eq_next.1 h
        exact .hostWrite rest s.hdr b h1 rfl id (fun hw => Buffer.wf_write hw hb)
      | zeroOut =>
        obtain ⟨h1, b, hb, rfl⟩ := hostWrite_eq_next.1 h
        cases hb
        exact .hostWrite rest s.hdr _ h1 rfl id (fun _ => rfl)
      | placeHdr base words =>
        obtain ⟨h1, b, hb, rfl⟩ := hostWrite_eq_next.1 h
        cases hb
        exact .hostWrite rest _ s.out h1 rfl (fun _ => rfl) id
      | placeOut base words =>
        obtain ⟨h1, b, hb, rfl⟩ := hostWrite_eq_next.1 h
        cases hb
        exact .hostWrite rest s.hdr _ h1 rfl id (fun _ => rfl)
      | readPhase =>
        simp only [hostReadPhase, Host.Outcome.next.injEq] at h
        exact .phaseRead rest _ h.symm
      | wait =>
        simp only [hostWait] at h
        split at h
        · exact .agents (.inr ⟨rest, hp⟩) ‹_› h
        · cases h; exact .phaseRead rest _ rfl
        · cases h; exact .stay (by simp [*]) rfl
      | collect =>
        simp only [hostCollect] at h
        split at h
        · cases h; exact .collect rest _ ‹_› rfl
        · cases h

end Sys2Proof.Machine
end

