-- ==== Sys2Proof/Tests/Slice0.lean ====
section
/-! SUPPORT. Tests whose expected values are the vectors of 95_test_vectors.md or the examples of the rules, and for
each statement with hypotheses a witness that meets them together. -/

namespace Sys2Proof.Machine.Tests

/-! ## Helpers -/

/-- A schedule whose 64 words are the list's. -/
def holding64 (w : List Word) : SchedRegs :=
  (List.range 64).foldl (fun x i => setAt x (at64 i) (w.getD i 0)) (Vector.replicate 64 .unwritten)

/-- A schedule whose first 16 words are the list's. -/
def holding16 (w : List Word) : SchedRegs :=
  (List.range 16).foldl (fun x i => setAt x (at64 i) (w.getD i 0)) (Vector.replicate 64 .unwritten)

/-- The padded block of the message "abc". -/
def abc : List Word := [0x61626380] ++ List.replicate 14 0 ++ [0x00000018]

/-- The words of header A (95_test_vectors.md 2.5). -/
def headerA : Memory :=
  (List.range 21).foldl (fun m k => Memory.write m k (BitVec.ofNat 32 (k * 0x01010101))) []

/-- Header B: header A with word 0 = 1. -/
def headerB : Memory := Memory.write headerA 0 1

/-- A lane that has written every register. -/
def fullLane : Lane where
  a := .holds 0x6a09e667
  b := .holds 0xbb67ae85
  c := .holds 0x3c6ef372
  d := .holds 0xa54ff53a
  e := .holds 0x510e527f
  f := .holds 0x9b05688c
  g := .holds 0x1f83d9ab
  h := .holds 0x5be0cd19
  t1 := .holds 0
  t2 := .holds 0
  hp := hashHolding ivTable
  hc := hashHolding ivTable
  wp := holding64 abc
  wc := holding64 wPadTable.toList
  nonce := .holds 0
  j := .holds 0
  lid := 0
  hit := .holds false
  lseq := .run 0

/-- Header A, an empty output buffer and one lane that has written every register, in a batch of one trial. -/
def demo : State := { State.reset with
  hdr := { State.reset.hdr with cells := headerA }
  lanes := [fullLane]
  phase := .running }

/-- `demo` with the lane changed. -/
def withLane (r : Lane) : State := { demo with lanes := [r] }

/-- `demo` with two lanes of two trials each. -/
def demo2 : State := { demo with
  cfg := { paramsReset with lanes := 2, iters := 2 }
  lanes := [fullLane, { fullLane with lid := 1, lseq := .run 1 }] }

/-- `demo` before a launch. -/
def ready : State := { demo with phase := .idle, lanes := [Lane.blank 0 .idle] }

/-- The operands `T1 <- x, y, z`. -/
def operands (x y z : Word) : Binding := { Binding.default with x := .lit x, y := .lit y, z := .lit z }

/-- The state an operation leaves, if it completes. -/
def after : Host.Outcome State Fault Refusal → Option State
  | .next s => some s
  | .fault _ => none
  | .refused _ => none

/-- The fault an operation ends in, if it does. -/
def faultOf : Host.Outcome State Fault Refusal → Option Fault
  | .next _ => none
  | .fault f => some f
  | .refused _ => none

/-- The refusal an operation ends in, if it does. -/
def refusalOf : Host.Outcome State Fault Refusal → Option Refusal
  | .next _ => none
  | .fault _ => none
  | .refused f => some f

/-- What `f` reads in lane 0 after an operation. -/
def laneAfter {α : Type} (o : Host.Outcome State Fault Refusal) (f : Lane → α) : Option α :=
  (after o).bind fun s => s.lanes[0]?.map f

/-- `T1` after a word operation on three words. -/
def wordResult (i : Instr) (x y z : Word) : Option (Reg Word) :=
  laneAfter (exec i { demo with bind := operands x y z }) Lane.t1

theorem after_some {o : Host.Outcome State Fault Refusal} (h : (after o).isSome = true) : ∃ t, o = .next t := by
  cases o with
  | next s => exact ⟨s, rfl⟩
  | fault f => exact absurd h (by simp [after])
  | refused f => exact absurd h (by simp [after])

/-! ## Well-formedness, decoding, encoding (30_encoding.md R70 to R73; 95_test_vectors.md 2.8) -/

theorem test_expandStep_15_is_ill_formed : Instr.wf (.expandStep 15) = false := by decide
theorem test_expandStep_16_is_well_formed : Instr.wf (.expandStep 16) = true := by decide
theorem test_ill_formed_term_is_refused :
    refusalOf (exec (.expandStep 15) demo) = some (.invalidOperation .scheduleIndex) := by decide

theorem test_decode_all_zero : decode 0x0000 = .error .opcode := by decide
theorem test_decode_add : decode 0x0100 = .ok .add := by decide
theorem test_decode_add_with_immediate : decode 0x0101 = .error .immediate := by decide
theorem test_decode_rotr_6 : decode 0b0000011000000110 = .ok (.rotr 6) := by decide
theorem test_decode_rotr_31 : decode 0x061f = .ok (.rotr 31) := by decide
theorem test_decode_rotr_32 : decode 0x0620 = .error .immediate := by decide
theorem test_decode_shr_10 : decode 0x070a = .ok (.shr 10) := by decide
theorem test_decode_shr_reserved : decode 0x07e0 = .error .immediate := by decide
theorem test_decode_expandStep_16 : decode 0b0010001000010000 = .ok (.expandStep 16) := by decide
theorem test_decode_expandStep_15 : decode 0x220f = .error .scheduleIndex := by decide
theorem test_decode_expandStep_63 : decode 0x223f = .ok (.expandStep 63) := by decide
theorem test_decode_expandStep_64 : decode 0x2240 = .error .immediate := by decide
theorem test_decode_round_63 : decode 0b0011000100111111 = .ok (.round 63) := by decide
theorem test_decode_round_64 : decode 0x3140 = .error .immediate := by decide
theorem test_decode_compressP : decode 0b0011001100000000 = .ok .compressP := by decide
theorem test_decode_powHash : decode 0b0100000000000000 = .ok .powHash := by decide
theorem test_decode_chainHash : decode 0b0101000000000000 = .ok .chainHash := by decide
theorem test_decode_launch : decode 0b0110010100000000 = .ok .launch := by decide
theorem test_decode_unassigned : decode 0x6600 = .error .opcode ∧ decode 0x0800 = .error .opcode ∧
    decode 0x1400 = .error .opcode ∧ decode 0xffff = .error .opcode := by decide
theorem test_encode_maj : encode .maj = 0x1300 := by decide
theorem test_encode_shr_3 : encode (.shr 3) = 0x0703 := by decide
theorem test_table_word : decodeTableWord 16 0x6400 = some .laneRun ∧ decodeTableWord 16 0 = none := by decide
theorem test_fetch_word_runs : (after (step (State.reset.withFetchWord 16 0x3000))).isSome = true ∧
    refusalOf (step (State.reset.withFetchWord 16 0)) = some (.invalidOperation .opcode) := by decide

/-! ## Word operations and round functions (95_test_vectors.md 2.1, 2.2) -/

theorem test_add_wraps : wordResult .add 0xffffffff 1 0 = some (.holds 0) := by decide
theorem test_add_iv : wordResult .add 0x6a09e667 0xbb67ae85 0 = some (.holds 0x257194ec) := by decide
theorem test_and : wordResult .and 0xf0f0f0f0 0x3c3c3c3c 0 = some (.holds 0x30303030) := by decide
theorem test_or : wordResult .or 0xf0f0f0f0 0x3c3c3c3c 0 = some (.holds 0xfcfcfcfc) := by decide
theorem test_xor : wordResult .xor 0xf0f0f0f0 0x3c3c3c3c 0 = some (.holds 0xcccccccc) := by decide
theorem test_not : wordResult .not 0xf0f0f0f0 0 0 = some (.holds 0x0f0f0f0f) := by decide
theorem test_rotr_31 : wordResult (.rotr 31) 0x80000000 0 0 = some (.holds 1) := by decide
theorem test_rotr_4 : wordResult (.rotr 4) 0x12345678 0 0 = some (.holds 0x81234567) := by decide
theorem test_rotr_function_reduces : rotrW 0x12345678 32 = 0x12345678 ∧ rotrW 0x12345678 36 = 0x81234567 := by decide
theorem test_shr_31 : wordResult (.shr 31) 0x87654321 0 0 = some (.holds 1) := by decide
theorem test_shr_10 : wordResult (.shr 10) 0xffffffff 0 0 = some (.holds 0x003fffff) := by decide
theorem test_bsig0 : wordResult .bsig0 0x12345678 0 0 = some (.holds 0x66146474) := by decide
theorem test_bsig1 : wordResult .bsig1 0x12345678 0 0 = some (.holds 0x3561abda) := by decide
theorem test_ch : wordResult .ch 0x510e527f 0x9b05688c 0x1f83d9ab = some (.holds 0x1f85c98c) := by decide
theorem test_maj : wordResult .maj 0x6a09e667 0xbb67ae85 0x3c6ef372 = some (.holds 0x3a6fe667) := by decide
theorem test_ssig0 : wordResult .ssig0 0x12345678 0 0 = some (.holds 0xe7fce6ee) := by decide
theorem test_ssig1 : wordResult .ssig1 0x12345678 0 0 = some (.holds 0xa1f78649) := by decide

/-- `E <- ADD E, E`: the source is read before the destination is written. -/
theorem test_add_source_is_destination :
    laneAfter (exec .add { demo with bind := { Binding.default with dst := .e, x := .reg .e, y := .reg .e } }) Lane.e =
      some (.holds 0xa21ca4fe) := by decide

/-! ## Schedule (95_test_vectors.md 2.3) -/

theorem test_expandStep_16 :
    laneAfter (exec (.expandStep 16) (withLane { fullLane with wp := holding16 abc })) (fun r => r.wp[16]) =
      some (.holds 0x61626380) := by decide +kernel

theorem test_expandStep_18_too_early :
    faultOf (exec (.expandStep 18) (withLane { fullLane with wp := holding16 abc })) = some .unwrittenRegister := by
  decide +kernel

theorem test_expand_abc :
    laneAfter (exec .expand (withLane { fullLane with wp := holding16 abc })) (fun r => (r.wp[17], r.wp[18], r.wp[63])) =
      some (.holds 0x000f0000, .holds 0x7da86405, .holds 0x12b1edeb) := by decide +kernel

theorem test_padgen :
    (after (exec .padgen State.reset)).map (fun s => (s.padgen[16], s.padgen[17], s.padgen[63])) =
      some (.holds 0x80000000, .holds 0x01400000, .holds 0x85a7a484) := by decide +kernel

/-! ## Compression (95_test_vectors.md 2.4, P0, P1) -/

theorem test_initIv : laneAfter (exec .initIv State.reset) (fun r => (r.hp[0], r.hp[7], r.hc[0])) =
    some (.holds 0x6a09e667, .holds 0x5be0cd19, .unwritten) := by decide

theorem test_round_0 : laneAfter (exec (.round 0) demo) (fun r => (r.a, r.e, r.h, r.t1, r.t2)) =
    some (.holds 0x5d6aebcd, .holds 0xfa2a4622, .holds 0x1f83d9ab, .holds 0x54da50e8, .holds 0x08909ae5) := by
  decide +kernel

theorem test_round_on_unwritten : faultOf (exec (.round 0) State.reset) = some .unwrittenRegister := by decide

theorem test_compressW_abc :
    laneAfter (exec .compressW (withLane { fullLane with wp := holding64 (Ref.expand abc) })) (fun r => (r.hp, r.a)) =
      some (hashHolding #v[0xba7816bf, 0x8f01cfea, 0x414140de, 0x5dae2223, 0xb00361a3, 0x96177a9c, 0xb410ff61,
        0xf20015ad], .holds 0x506e3058) := by decide +kernel

theorem test_compressW_before_expand :
    faultOf (exec .compressW (withLane { fullLane with wp := holding16 abc })) = some .unwrittenRegister := by
  decide +kernel

theorem test_compressP_iv : laneAfter (exec .compressP demo) Lane.hc =
    some (hashHolding #v[0x2661d972, 0x6bb78351, 0x5f179d74, 0x405000b8, 0x839efb14, 0x9e4d854f, 0x2fca2bc7,
      0xd6dbd831]) := by decide +kernel

/-! ## Layers (95_test_vectors.md 2.5; 43_pow_layer.md R116; 44_chain_layer.md R121) -/

theorem test_powHash_headerA : laneAfter (exec .powHash demo) (fun r => (r.hp, r.wp[3], r.wp[15])) =
    some (hashHolding #v[0x6b1c5402, 0xe616e9a9, 0xa97fd4ac, 0x3783c628, 0x0e726974, 0xa673e038, 0x8bbfab68,
      0xc0c7768a], .holds 0, .holds 0x000001a0) := by decide +kernel

theorem test_chainHash_headerA :
    laneAfter (exec .chainHash (withLane { fullLane with
      hp := hashHolding #v[0x6b1c5402, 0xe616e9a9, 0xa97fd4ac, 0x3783c628, 0x0e726974, 0xa673e038, 0x8bbfab68,
        0xc0c7768a] })) (fun r => (r.hc, r.wc[1], r.wc[8])) =
    some (hashHolding #v[0xb9ed8fb4, 0x50d7f8eb, 0xff9c0cd3, 0x46bad847, 0xa0587a52, 0xe836bd9a, 0xd30620f1,
      0xab77520c], .holds 0x01010101, .holds 0x6b1c5402) := by decide +kernel

theorem test_sha256_abc : Ref.sha256 [0x61, 0x62, 0x63] =
    Ref.serialise [0xba7816bf, 0x8f01cfea, 0x414140de, 0x5dae2223, 0xb00361a3, 0x96177a9c, 0xb410ff61,
      0xf20015ad] := by decide +kernel

theorem test_sha256_of_52_zero_bytes : Ref.sha256 (List.replicate 52 0) =
    Ref.serialise [0x7955cb2d, 0xe90dd9ef, 0xc6df9fdb, 0xf5f5d10c, 0x114f4135, 0xa9a6b52d, 0xb1003be7,
      0x49e32f7a] := by decide +kernel

theorem test_sha256_of_64_bytes : Ref.sha256 (Ref.serialise ((List.range 16).map (BitVec.ofNat 32))) =
    Ref.serialise [0x59d67963, 0xf3f53fd0, 0x16156b50, 0xd83b8c83, 0xd4068f6e, 0x2f08bc9c, 0x87f0b49c,
      0x20cf31f0] := by decide +kernel

/-! ## Search loop (95_test_vectors.md 2.6, 2.7, P2, P3, P4) -/

theorem test_nonceGen_wraps :
    laneAfter (exec .nonceGen { demo with
      cfg := { paramsReset with iters := 2 }, offset := 0xfffffffe,
      lanes := [{ fullLane with lid := 1, j := .holds 1 }] }) Lane.nonce = some (.holds 0x00000001) := by decide

theorem test_nonceGen_product_wraps :
    laneAfter (exec .nonceGen { demo with
      cfg := { paramsReset with iters := 0x40000000 }, offset := 0x12345678,
      lanes := [{ fullLane with lid := 5, j := .holds 5 }] }) Lane.nonce = some (.holds 0x5234567d) := by decide

theorem test_test_hit : laneAfter (exec .test (withLane { fullLane with
    hc := hashHolding #v[1, 2, 3, 4, 5, 6, 7, 0] })) Lane.hit = some (.holds true) := by decide

theorem test_test_miss : laneAfter (exec .test (withLane { fullLane with
    hc := hashHolding #v[0, 0, 0, 0, 0, 0, 0, 1] })) Lane.hit = some (.holds false) := by decide

theorem test_record_hit : (after (exec .record (withLane { fullLane with
    hit := .holds true, nonce := .holds 0x8290a0cb }))).map (fun s => s.out.cells) =
      some [(75, 0x8290a0cb), (128, 1)] := by decide

theorem test_record_nonce_zero : (after (exec .record (withLane { fullLane with
    hit := .holds true, nonce := .holds 0 }))).map (fun s => s.out.cells) = some [(128, 1)] := by decide

theorem test_trial_miss : (after (exec .trial demo)).map (fun s => (s.out.cells, s.hdr.cells == headerA)) =
    some ([], true) := by decide +kernel

theorem test_trial_hit : (after (exec .trial { demo with
    hdr := { demo.hdr with cells := headerB }, offset := 0x8290a0cb })).map (fun s => s.out.cells) =
      some [(75, 0x8290a0cb), (128, 1)] := by decide +kernel

theorem test_laneRun : laneAfter (exec .laneRun { State.reset with
    hdr := demo.hdr, cfg := { paramsReset with iters := 2 }, offset := 0xfffffffe })
    (fun r => (r.lseq, r.j, r.nonce, r.hc[7])) =
      some (.done, .holds 1, .holds 0xffffffff, .holds 0xa7dde9cb) := by decide +kernel

theorem test_launch : (after (exec .launch { ready with bind := { Binding.default with offset := 0x400 } })).map
    (fun s => (s.offset, s.phase, s.lanes)) =
      some (0x400, .running, [{ Lane.blank 0 (.run 0) with j := .holds 0 }]) := by decide +kernel

theorem test_launch_refusals :
    refusalOf (exec .launch demo) = some (.launchContract .phase) ∧
    refusalOf (exec .launch { ready with hdr := { ready.hdr with words := 20 } }) =
      some (.launchContract .headerSize) ∧
    refusalOf (exec .launch { ready with out := { ready.out with words := 128 } }) =
      some (.launchContract .outputSize) ∧
    refusalOf (exec .launch { ready with hdr := { ready.hdr with base := 2 } }) =
      some (.launchContract .placement) := by decide

/-- A launch with `ITERS = 0` leaves every lane done, and the next step completes the batch. -/
theorem test_empty_batch :
    (after (batchStep 0 { demo with lanes := [Lane.blank 0 .done] })).map (fun s => (s.phase, s.out.cells)) =
      some (.done, []) := by decide

/-- Whichever of two unfinished lanes the choice names goes next. -/
theorem test_pick : pick [3, 5] 4 = some 3 ∧ pick [3, 5] 7 = some 5 ∧ pick [9] 2 = some 9 ∧ pick [] 1 = none := by
  decide

/-- The bytes of a header word in the host's memory (00_scope.md R11, R12). -/
theorem test_host_bytes : hostBytes bigEndian 0x12345678 = [0x12, 0x34, 0x56, 0x78] ∧
    hostBytes { at0 := 0, at1 := 1, at2 := 2, at3 := 3 } 0x12345678 = [0x78, 0x56, 0x34, 0x12] := by decide

/-- The host neither writes nor reads a buffer in `Running`, and collects in `Done`. -/
theorem test_host_access :
    refusalOf (step { demo with pending := [.host (.writeHdr 0 1)] }) = some .hostAccess ∧
    refusalOf (step { demo with pending := [.host .collect] }) = some .hostAccess ∧
    ((after (step { demo with
      phase := .done
      pending := [.host .collect]
      out := { demo.out with words := 2, cells := [(1, 7)] } })).map State.result) = some (.holds [0, 7]) := by
  decide

/-- A `LAUNCH` in `Running` is refused and the batch continues (95_test_vectors.md 2.9; U14). -/
theorem test_refused_launch_goes_on :
    step { demo with pending := [.host (.launch 5)] } = .next { demo with refusal := .holds .phase } := rfl

/-- The host reads `PHASE` in any phase (10_state.md R37). -/
theorem test_host_reads_phase :
    (after (step { ready with pending := [.host .readPhase] })).map State.seenPhase = some (.holds .idle) ∧
    (after (step { demo with pending := [.host .readPhase] })).map State.seenPhase = some (.holds .running) := by
  decide

/-! ## Witnesses: states and operands that meet the hypotheses of the statements together -/

theorem witness_DecodeOfEncodeIsTheOperation : Instr.wf (.expandStep 16) = true ∧ Instr.wf (.rotr 31) = true := by decide

theorem witness_EncodeOfDecodeIsTheWord : decode 0x223f = .ok (.expandStep 63) ∧ decode 0x3100 = .ok (.round 0) := by
  decide

theorem witness_InvalidWordsAreRefused :
    (∀ i, opcode i ≠ opcField 0x0000) ∧
    (opcode (.rotr 0) = opcField 0x0620 ∧ immField 0x0620 &&& reservedImm (.rotr 0) ≠ 0) ∧
    (opcField 0x220f = 0x22 ∧ immField 0x220f &&& 0xC0 = 0 ∧ (immField 0x220f).toNat < 16) ∧
    (opcode (.expandStep 0) = opcField 0x2210 ∧ immField 0x2210 &&& reservedImm (.expandStep 0) = 0 ∧
      16 ≤ (immField 0x2210).toNat) ∧
    decode 0x2240 = .error .immediate := by
  refine ⟨fun i => ?_, by decide, by decide, by decide, by decide⟩
  cases i <;> simp [opcode, opcField]

theorem witness_StepRunsTheDecodedOperation :
    ((placeWord demo 0x0100).pending = .listing 0x0100 Binding.default :: [] ∧ decode 0x0100 = .ok .add ∧
      placeWord demo 0x0100 = demo.withFetchWord 16 (0x0100#16).toNat ∧
      ∀ c, exec .add { demo with bind := Binding.default } ≠ .refused (.launchContract c)) ∧
    ({ demo with pending := [.host (.launch 5)] }.pending = .host (.launch 5) :: [] ∧
      exec .launch { demo with bind := { Binding.default with offset := 5 } } = .refused (.launchContract .phase) ∧
      exec .launch { ready with bind := { Binding.default with offset := 5 } } ≠
        .refused (.launchContract .phase)) := by
  refine ⟨⟨rfl, by decide, rfl, fun c h => by cases h⟩, rfl, rfl, fun h => by cases h⟩

/-- The hypotheses of the statements on word operations: the lane exists and three sources read. -/
theorem witness_word_operands :
    (withLane fullLane).lanes[(withLane fullLane).bind.lane]? = some fullLane ∧
    (Src.reg .e).value fullLane = .ok 0x510e527f ∧ (Src.lit 5).value fullLane = .ok 5 ∧
    (Src.reg (.wp 63)).value fullLane = .ok 0 := by decide +kernel

theorem witness_WordOperationsChangeOnlyTheirDestination :
    isWordOp .add = true ∧ isWordOp (.shr 31) = true ∧ (∃ t, exec .add demo = .next t) ∧
    (∃ t, exec (.shr 31) demo = .next t) :=
  ⟨rfl, rfl, after_some (by decide), after_some (by decide)⟩

/-- A lane in which nothing is written meets every clause on registers; a lane that has only hit meets the last. The
first and the last source of an operation of three, and the last of one of two; the ends of the ranges of the index. -/
theorem witness_ReadingAnUnwrittenRegisterFaults :
    .reg .e ∈ sourcesOf { Binding.default with z := .reg .e } .maj ∧
    .reg .t1 ∈ sourcesOf { Binding.default with y := .reg .t1 } .add ∧
    .reg .nonce ∈ sourcesOf { Binding.default with x := .reg .nonce } (.rotr 31) ∧
    (16 ≤ (16#6).toNat ∧ 16 ≤ (63#6).toNat ∧ 16 ∈ [2, 7, 15, 16] ∧
      ((Lane.blank 0 .idle).schedule .chain)[at64 ((63#6).toNat - 2)] = .unwritten) ∧
    ((Lane.blank 0 .idle).schedule .chain)[(63 : Fin 64)] = .unwritten ∧
    State.reset.lanes[State.reset.bind.lane]? = some (Lane.blank 0 .idle) ∧
    (WordReg.cell (Lane.blank 0 .idle) (.wp 63) = .unwritten) ∧
    (Lane.blank 0 .idle).h = .unwritten ∧ (Lane.blank 0 .idle).wp[at64 63] = .unwritten ∧
    (Lane.blank 0 .idle).wc[at64 0] = .unwritten ∧ ((Lane.blank 0 .idle).schedule .pow)[at64 (16 - 16)] = .unwritten ∧
    ((Lane.blank 0 .idle).hash .pow)[(7 : Fin 8)] = .unwritten ∧ (Lane.blank 0 .idle).hc[(0 : Fin 8)] = .unwritten ∧
    (Lane.blank 0 .idle).hp[(7 : Fin 8)] = .unwritten ∧ (Lane.blank 0 .idle).nonce = .unwritten ∧
    (Lane.blank 0 .idle).j = .unwritten ∧ (Lane.blank 0 .idle).hit = .unwritten ∧
    { Lane.blank 0 .idle with hit := .holds true }.nonce = .unwritten := by decide

/-- The hypotheses on a running batch: the invariant, `PHASE = Running`, no request or a waiting host. -/
theorem witness_running_batch :
    demo.inv ∧ demo.phase = .running ∧ demo.hostQuiet ∧ demo2.inv ∧
    State.hostQuiet { demo with pending := [.host .wait, .host .collect] } := by
  refine ⟨by decide +kernel, rfl, .inl rfl, by decide +kernel, .inr ⟨_, rfl⟩⟩

theorem witness_BatchStepsNeverStop : demo.inv ∧ demo.phase = .running ∧ demo.hostQuiet :=
  ⟨witness_running_batch.1, rfl, .inl rfl⟩

theorem witness_ExpandStepWritesOneWord :
    demo.lanes[demo.bind.lane]? = some fullLane ∧ 16 ≤ (63#6).toNat ∧
    (fullLane.schedule demo.bind.layer)[at64 (63 - 16)] = .holds 0 ∧
    (fullLane.schedule demo.bind.layer)[at64 (63 - 15)] = .holds 0 ∧
    (fullLane.schedule demo.bind.layer)[at64 (63 - 7)] = .holds 0 ∧
    (fullLane.schedule demo.bind.layer)[at64 (63 - 2)] = .holds 0 ∧ (15#6).toNat < 16 := by decide +kernel

theorem witness_ExpandExtendsTheRawBlock :
    demo.lanes[demo.bind.lane]? = some fullLane ∧ SchedRegs.startsWith (fullLane.schedule demo.bind.layer) abc := by
  decide +kernel

theorem witness_PadgenGivesThePaddingSchedule : demo.rom = romStandard := rfl

theorem witness_InitIvLoadsTheInitialValue :
    demo.lanes[demo.bind.lane]? = some fullLane ∧ demo.rom = romStandard := ⟨rfl, rfl⟩

theorem witness_RoundUpdatesTheWorkingRegisters :
    demo.lanes[demo.bind.lane]? = some fullLane ∧ demo.rom = romStandard ∧
    fullLane.working ⟨0x6a09e667, 0xbb67ae85, 0x3c6ef372, 0xa54ff53a, 0x510e527f, 0x9b05688c, 0x1f83d9ab, 0x5be0cd19⟩ ∧
    schedWord demo.rom fullLane demo.bind.sched (at64 (63#6).toNat) = .ok 0 ∧
    Ref.k.getD 63 0 = 0xc67178f2 := by decide +kernel

theorem witness_CompressWCompressesTheLayersSchedule :
    demo.lanes[demo.bind.lane]? = some fullLane ∧ demo.rom = romStandard ∧
    fullLane.hash demo.bind.layer = hashHolding ivTable ∧
    SchedRegs.are (fullLane.schedule demo.bind.layer) (abc ++ List.replicate 48 0) := by decide +kernel

theorem witness_CompressPCompressesThePaddingSchedule :
    demo.lanes[demo.bind.lane]? = some fullLane ∧ demo.rom = romStandard ∧ fullLane.hc = hashHolding ivTable :=
  ⟨rfl, rfl, rfl⟩

theorem witness_TheTwoCompressionsAgree :
    { demo with bind := { Binding.default with layer := .chain } }.lanes[0]? = some fullLane ∧
    ∀ k : Fin 64, fullLane.wc[k] = .holds demo.rom.wPad[k] := by decide +kernel

theorem witness_SingleBlockPipelineIsSha256 :
    [0x61#8, 0x62#8, 0x63#8].length ≤ 55 ∧ (List.replicate 55 0x61#8).length ≤ 55 ∧ demo.rom = romStandard ∧
    demo.lanes[demo.bind.lane]? = some fullLane ∧
    SchedRegs.startsWith (fullLane.schedule demo.bind.layer)
      ((List.range 16).map (Ref.wordAt (Ref.padded [0x61, 0x62, 0x63]))) := by decide +kernel

/-- The hypotheses of the statements on `POW_HASH`, `TRIAL` and `LANE_RUN`. -/
theorem witness_PowHashAnswersThePowDigest :
    demo.lanes[demo.bind.lane]? = some fullLane ∧ demo.rom = romStandard ∧ 21 ≤ demo.hdr.words ∧
    129 ≤ demo.out.words ∧ fullLane.nonce = .holds 0 ∧ fullLane.j = .holds 0 := by decide

theorem witness_PowDigestIsSha256OfTheBase :
    demo.lanes[demo.bind.lane]? = some fullLane ∧ demo.rom = romStandard ∧ 21 ≤ demo.hdr.words ∧
    fullLane.nonce = .holds 0 := by decide

theorem witness_ChainHashAnswersTheFinalDigest :
    demo.lanes[demo.bind.lane]? = some fullLane ∧ demo.rom = romStandard ∧ 8 ≤ demo.hdr.words ∧
    fullLane.hp = hashHolding ivTable := by decide

theorem witness_FinalDigestIsSha256OfTheChainMessage :
    demo.lanes[demo.bind.lane]? = some fullLane ∧ demo.rom = romStandard ∧ 8 ≤ demo.hdr.words ∧
    fullLane.hp = hashHolding ivTable := by decide

theorem witness_HeaderWordElevenHasNoEffect : demo.hdr.wf = true ∧ ∃ t, exec .powHash demo = .next t :=
  ⟨by decide +kernel, after_some (by decide +kernel)⟩

theorem witness_NonceGenComputesTheTrialNonce :
    demo.lanes[demo.bind.lane]? = some fullLane ∧ fullLane.j = .holds 0 := by decide

theorem witness_LaneRangesCoverConsecutiveNonces :
    demo.lanes[demo.bind.lane]? = some fullLane ∧ fullLane.j = .holds 0 ∧
    0 < demo.cfg.lanes * demo.cfg.iters ∧ demo2.cfg.lanes * demo2.cfg.iters ≤ 2 ^ 32 ∧
    1 < demo2.cfg.lanes ∧ 1 < demo2.cfg.iters := by decide

theorem witness_TestJudgesTheFinalDigest :
    demo.lanes[demo.bind.lane]? = some fullLane ∧ fullLane.hc = hashHolding ivTable ∧
    demo.cfg.pred = .lastWordZero := by decide

theorem witness_RecordWritesTheFlagAndTheSlot :
    demo.lanes[demo.bind.lane]? = some fullLane ∧ fullLane.hit = .holds false ∧
    { fullLane with hit := .holds true }.hit = .holds true ∧ fullLane.nonce = .holds 0 ∧
    129 ≤ demo.out.words := by decide

theorem witness_TrialComputesTheFinalDigest :
    demo.lanes[demo.bind.lane]? = some fullLane ∧ demo.rom = romStandard ∧ 21 ≤ demo.hdr.words ∧
    129 ≤ demo.out.words ∧ fullLane.j = .holds 0 ∧
    (0 : Word) = BitVec.ofNat 32 (demo.offset.toNat + fullLane.lid * demo.cfg.iters + 0) := by decide

theorem witness_LaneRunPerformsEveryTrial :
    demo.lanes[demo.bind.lane]? = some fullLane ∧ demo.rom = romStandard ∧ 21 ≤ demo.hdr.words ∧
    129 ≤ demo.out.words ∧ demo.cfg.iters = 0 + 1 := by decide

theorem witness_RegistersChangeOnlyByTheirOperations :
    (∃ t r', exec .nonceGen demo2 = .next t ∧ t.lanes[1]? = some r') ∧ (demo2.lanes[1]?).isSome = true ∧
    Instr.nonceGen ≠ .launch ∧ 1 ≠ demo2.bind.lane ∧ RegGroup.hp ∉ writtenBy demo2.bind .nonceGen :=
  ⟨⟨_, _, rfl, rfl⟩, rfl, by decide, by decide, by decide⟩

theorem witness_OperationsLeaveTheRestAlone :
    (∃ t, exec .initIv demo = .next t) ∧ Instr.initIv ≠ .launch ∧ Instr.initIv ≠ .padgen ∧ Instr.initIv ≠ .record ∧
    Instr.initIv ≠ .trial ∧ Instr.initIv ≠ .laneRun ∧ (∃ t, exec .record demo = .next t) :=
  ⟨⟨_, rfl⟩, by decide, by decide, by decide, by decide, by decide, ⟨_, rfl⟩⟩

/-- A hit of nonce 0 writes words 128 and 0: word 1 and word 127 are other words. -/
theorem witness_RecordingLeavesOtherWordsAlone :
    demo.out.wf = true ∧ demo.lanes[demo.bind.lane]? = some fullLane ∧ 127 ≠ foundSlot ∧
    (∃ t, exec .record demo = .next t) ∧ (∀ n, fullLane.nonce = .holds n → 127 ≠ slotOf n) ∧
    (∃ t, exec .trial demo = .next t) ∧ (∃ t, exec .laneRun demo = .next t) ∧
    127 ≠ slotOf (nonceOf demo.cfg demo.offset fullLane.lid 0) := by
  refine ⟨rfl, rfl, by decide, ⟨_, rfl⟩, fun n h => ?_, after_some (by decide +kernel),
    after_some (by decide +kernel), by decide⟩
  cases h
  decide

theorem witness_OutputBufferIsNeverRead :
    (∃ t, exec .record (withLane { fullLane with hit := .holds true }) = .next t) ∧ demo.out.cells.wf = true ∧
    Memory.wf [(0, 7), (5, 3)] = true := ⟨⟨_, rfl⟩, rfl, by decide⟩

theorem witness_TrialsDoNotDependOnOtherLanes :
    demo2.lanes[demo2.bind.lane]? = { demo2 with lanes := [fullLane] }.lanes[demo2.bind.lane]? ∧
    ∃ t, exec .trial demo2 = .next t := ⟨rfl, after_some (by decide +kernel)⟩

theorem witness_LaunchStartsABatch : ready.phase ≠ .running ∧ ready.conforming ∧
    ready.lanes[0]? = some (Lane.blank 0 .idle) := by decide

theorem witness_LaunchIsRefusedOutsideItsContract :
    demo.phase = .running ∧ ready.phase ≠ .running ∧ ready.hdr.words = 21 ∧ ready.out.words = 129 ∧
    { ready with hdr := { ready.hdr with words := 22 } }.hdr.words ≠ 21 ∧
    { ready with out := { ready.out with words := 130 } }.out.words ≠ 129 ∧
    { ready with out := { ready.out with base := 1 } }.out.base % 4 ≠ 0 := by decide

theorem witness_BatchCompletesWhenEveryLaneIsDone :
    (withLane (Lane.blank 0 .done)).phase = .running ∧ (withLane (Lane.blank 0 .done)).hostQuiet ∧
    ∀ r ∈ (withLane (Lane.blank 0 .done)).lanes, r.lseq = .done := ⟨rfl, .inl rfl, by decide⟩

theorem witness_AnyUnfinishedLaneMayGoNext :
    (demo2.lanes[1]?).map Lane.lseq = some (.run 1) ∧ (demo2.lanes[0]?).map Lane.lseq = some (.run 0) := by decide

theorem witness_LaneStepPerformsItsNextTrial :
    demo2.inv ∧ demo2.conforming ∧ (demo2.lanes[1]?).map Lane.lseq = some (.run 1) :=
  ⟨witness_running_batch.2.2.2.1, by decide, rfl⟩

/-- A batch none of whose trials has been performed has recorded nothing. -/
theorem demo_records : demo.records demo.out.cells := by
  have none_performed : ∀ l j, ¬ demo.performed l j := by
    rintro l j ⟨r, hr, h⟩
    match l, hr with
    | 0, hr =>
      cases hr
      exact absurd h (Nat.not_lt_zero j)
  have none_scored : ∀ k l j, ¬ demo.scored k l j := fun k l j h => none_performed l j h.1
  exact
    { slot_scored := fun k _ ⟨l, j, h⟩ => absurd h (none_scored k l j)
      slot_clear := fun _ _ _ => rfl
      flag_set := fun ⟨k, l, j, h⟩ => absurd h (none_scored k l j)
      flag_clear := fun _ => rfl }

theorem demo_steps : ∃ t, step demo = .next t := after_some (by decide +kernel)

theorem witness_BatchStepsKeepTheRecord :
    (∃ t, exec .launch ready = .next t) ∧ demo.inv ∧ demo.phase = .running ∧ demo.hostQuiet ∧
    demo.records demo.out.cells ∧ ∃ t, step demo = .next t :=
  ⟨⟨_, rfl⟩, witness_running_batch.1, rfl, .inl rfl, demo_records, demo_steps⟩

theorem run_witness {o : Host.Outcome State Fault Refusal} {n : Nat}
    (h : ((after o).bind fun t => (after (core.run n t)).map State.phase) = some .done) :
    ∃ t u, o = .next t ∧ core.run n t = .next u ∧ u.phase = .done := by
  cases o with
  | fault f => exact absurd h (by simp [after])
  | refused f => exact absurd h (by simp [after])
  | next t =>
    refine ⟨t, ?_⟩
    simp only [after, Option.bind_some] at h
    cases hr : core.run n t with
    | fault f => rw [hr] at h; exact absurd h (by simp)
    | refused f => rw [hr] at h; exact absurd h (by simp)
    | next u =>
      rw [hr] at h
      exact ⟨u, rfl, rfl, Option.some.inj h⟩

/-- A batch of one trial of header A, from launch to completion; no trial succeeds. -/
theorem witness_FinalWordsOfABatch :
    ready.inv ∧ ready.pending = [] ∧
    ∃ t u, exec .launch ready = .next t ∧ core.run 2 t = .next u ∧ u.phase = .done :=
  ⟨by decide +kernel, rfl, run_witness (by decide +kernel)⟩

/-- `ready` with header B and the offset of its one satisfying nonce: a batch in which a trial succeeds. -/
def readyB : State := { ready with
  hdr := { ready.hdr with cells := headerB }
  bind := { Binding.default with offset := 0x8290a0cb } }

theorem witness_BatchGuarantee :
    readyB.inv ∧ readyB.pending = [] ∧
    (∀ k, k < 129 → Memory.read readyB.out.cells k = 0) ∧
    (∃ t u, exec .launch readyB = .next t ∧ core.run 2 t = .next u ∧ u.phase = .done) ∧
    (∃ t, exec .launch readyB = .next t ∧ t.hits (t.nonceAt 0 0) = true) :=
  ⟨by decide +kernel, rfl, fun _ _ => rfl, run_witness (by decide +kernel), ⟨_, rfl, by decide +kernel⟩⟩

/-- Lane 0's one trial hits; in two lanes of one trial each, the other may score in the same slot. -/
theorem witness_EverySurvivorOfACollisionIsPossible :
    readyB.inv ∧ ∃ t, exec .launch readyB = .next t ∧ 0 < readyB.cfg.lanes ∧ 0 < readyB.cfg.iters ∧
      t.hits (t.nonceAt 0 0) = true ∧ ∀ j', 0 < j' → ¬ j' < readyB.cfg.iters :=
  ⟨witness_BatchGuarantee.1, _, rfl, by decide, by decide, by decide +kernel, fun j' h h' => by
    have : j' < 1 := h'
    omega⟩

theorem witness_BatchTerminates : demo2.inv ∧ demo2.phase = .running ∧ demo2.pending = [] ∧ demo2.remaining = 3 :=
  ⟨witness_running_batch.2.2.2.1, rfl, rfl, rfl⟩

theorem witness_OnlyLaunchAndCompletionMoveThePhase :
    (demo.phase = .running ∧ ∃ t, step demo = .next t) ∧
    (ready.phase ≠ .running ∧ (∃ t, step (placeWord ready 0x6500) = .next t ∧ t.phase = .running) ∧
      ∃ t, step { ready with pending := [.host (.launch 5)] } = .next t ∧ t.phase = .running) :=
  ⟨⟨rfl, demo_steps⟩, by decide, ⟨_, rfl, rfl⟩, ⟨_, rfl, rfl⟩⟩

theorem witness_FoundFlagIsNeverClearedInABatch :
    Buffer.wf { demo.out with cells := [(128, 1)] } = true ∧ demo.phase = .running ∧
    Memory.read [(128, 1)] 128 ≠ 0 ∧
    ∃ t, step { placeWord demo 0x3000 with out := { demo.out with cells := [(128, 1)] } } = .next t ∧
      t.phase ≠ .idle :=
  ⟨by decide, rfl, by decide, ⟨_, rfl, by decide⟩⟩

theorem witness_HeaderAndOffsetAreConstantInABatch :
    demo.phase = .running ∧ ∃ t, step (placeWord demo 0x3000) = .next t ∧ t.phase ≠ .idle :=
  ⟨rfl, ⟨_, rfl, by decide⟩⟩

theorem witness_ParametersAndTablesNeverChange : demo.rom = romStandard ∧ ∃ t, step demo = .next t :=
  ⟨rfl, demo_steps⟩

theorem witness_EveryStepKeepsTheInvariant : demo.inv ∧ ∃ t, step demo = .next t :=
  ⟨witness_running_batch.1, demo_steps⟩

theorem witness_ResetHasTheInvariant : demo.hdr.wf = true ∧ demo.out.wf = true := by decide +kernel

theorem witness_ResetLeavesTheSpecsState : 0 < paramsReset.lanes ∧ 1 < demo2.cfg.lanes := by decide

theorem witness_HostReachesBuffersOnlyOutsideABatch :
    demo.phase = .running ∧ ready.phase ≠ .running ∧ ready.phase ≠ .done ∧
    { ready with phase := .done }.phase = .done ∧ 20 < ready.hdr.words ∧ 128 < ready.out.words ∧
    { ready with pending := [.host .collect] }.pending = .host .collect :: [] := by decide

theorem witness_ResetGivesTheStateAfterReset :
    { demo with pending := [.reset] }.pending = .reset :: [] ∧ ready.phase ≠ .running := by decide

theorem witness_TheHostReadsThePhaseAndTouchesNoLane :
    { ready with pending := [.host .readPhase] }.pending = .host .readPhase :: [] ∧
    { ready with pending := [.host .wait] }.pending = .host .wait :: [] ∧ ready.phase = .idle ∧
    { ready with phase := .done }.phase = .done ∧ demo.phase = .running ∧
    (∃ t, step { demo with pending := [.host .wait] } = .next t) ∧
    (∀ offset, HostMove.zeroOut ≠ .launch offset) ∧ HostMove.zeroOut ≠ .wait ∧
    ∃ t, step { ready with pending := [.host .zeroOut] } = .next t :=
  ⟨rfl, rfl, rfl, rfl, rfl, after_some (by decide +kernel), (fun _ h => by cases h), by decide, ⟨_, rfl⟩⟩

end Sys2Proof.Machine.Tests
end

section
/-! SUPPORT. Which rows of the register table each operation of a lane writes (10_state.md R25), said once. -/

namespace Sys2Proof.Machine

/-- Every row of the register table outside `gs` is the same in both lanes. -/
def Lane.ChangesOnly (gs : List RegGroup) (r r' : Lane) : Prop := ∀ g, g ∉ gs → g.same r r'

@[simp] theorem RegGroup.same_refl (g : RegGroup) (r : Lane) : g.same r r := by
  cases g <;> simp [RegGroup.same]

theorem RegGroup.same_trans {g : RegGroup} {r r' r'' : Lane} (h : g.same r r') (h' : g.same r' r'') :
    g.same r r'' := by
  cases g <;> simp_all [RegGroup.same]

theorem Lane.ChangesOnly.refl (gs : List RegGroup) (r : Lane) : Lane.ChangesOnly gs r r := fun g _ => g.same_refl r

theorem Lane.ChangesOnly.trans {gs : List RegGroup} {r r' r'' : Lane} (h : Lane.ChangesOnly gs r r')
    (h' : Lane.ChangesOnly gs r' r'') : Lane.ChangesOnly gs r r'' :=
  fun g hg => RegGroup.same_trans (h g hg) (h' g hg)

theorem Lane.ChangesOnly.mono {gs gs' : List RegGroup} {r r' : Lane} (h : Lane.ChangesOnly gs r r')
    (hsub : gs ⊆ gs') : Lane.ChangesOnly gs' r r' :=
  fun g hg => h g fun hmem => hg (hsub hmem)

/-- The row of a layer's hash state. -/
def Layer.hashGroup : Layer → RegGroup
  | .pow => .hp
  | .chain => .hc

/-- The row of a layer's schedule. -/
def Layer.schedGroup : Layer → RegGroup
  | .pow => .wp
  | .chain => .wc

@[simp] theorem Layer.hashGroup_pow : Layer.pow.hashGroup = .hp := rfl
@[simp] theorem Layer.hashGroup_chain : Layer.chain.hashGroup = .hc := rfl
@[simp] theorem Layer.schedGroup_pow : Layer.pow.schedGroup = .wp := rfl
@[simp] theorem Layer.schedGroup_chain : Layer.chain.schedGroup = .wc := rfl

/-! ## One lemma per operation of a lane -/

theorem WordReg.write_changesOnly (n : WordReg) (r : Lane) (v : Word) :
    Lane.ChangesOnly [n.group] r (n.write r v) := by
  intro g hg
  cases n <;> cases g <;> simp_all [WordReg.group, WordReg.write, RegGroup.same]

theorem Lane.setHash_changesOnly (r : Lane) (x : HashRegs) (y : Layer) :
    Lane.ChangesOnly [y.hashGroup] r (r.setHash x y) := by
  intro g hg
  cases y <;> cases g <;> simp_all [RegGroup.same]

theorem Lane.setSchedule_changesOnly (r : Lane) (w : SchedRegs) (y : Layer) :
    Lane.ChangesOnly [y.schedGroup] r (r.setSchedule w y) := by
  intro g hg
  cases y <;> cases g <;> simp_all [RegGroup.same]

theorem expandLayer_changesOnly {y : Layer} {r r' : Lane} (h : expandLayer y r = .ok r') :
    Lane.ChangesOnly [y.schedGroup] r r' := by
  obtain ⟨w, -, rfl⟩ := expandLayer_eq_ok.1 h
  exact r.setSchedule_changesOnly w y

theorem loadWorking_changesOnly {x : HashRegs} {r r' : Lane} (h : loadWorking x r = .ok r') :
    Lane.ChangesOnly [.working] r r' := by
  obtain ⟨v, -, rfl⟩ := loadWorking_eq_ok.1 h
  intro g hg
  cases g <;> simp_all [RegGroup.same]

theorem roundWith_changesOnly {k w : Word} {r r' : Lane} (h : roundWith k w r = .ok r') :
    Lane.ChangesOnly [.working, .temporaries] r r' := by
  obtain ⟨a, b, c, d, e, f, g, h, -, -, -, -, -, -, -, -, rfl⟩ := roundWith_eq_ok.1 h
  intro g hg
  cases g <;> simp_all [RegGroup.same]

/-- A round reads its schedule word and then is a round with it. -/
theorem roundAt_eq_ok {rom : Rom} {n : SchedName} {i : Fin 64} {r r' : Lane} :
    roundAt rom n i r = .ok r' ↔
      ∃ w, schedWord rom r n i = .ok w ∧ roundWith (rom.roundConstant i) w r = .ok r' := bind_eq_ok

theorem roundAt_changesOnly {rom : Rom} {n : SchedName} {i : Fin 64} {r r' : Lane} (h : roundAt rom n i r = .ok r') :
    Lane.ChangesOnly [.working, .temporaries] r r' := by
  obtain ⟨w, -, h⟩ := roundAt_eq_ok.1 h
  exact roundWith_changesOnly h

/-- The first `m + 1` rounds are the first `m` and then round `m`. -/
theorem roundsFirst_succ_eq_ok {rom : Rom} {n : SchedName} {m : Nat} {r r' : Lane} :
    roundsFirst rom n (m + 1) r = .ok r' ↔
      ∃ r1, roundsFirst rom n m r = .ok r1 ∧ roundAt rom n (at64 m) r1 = .ok r' := bind_eq_ok

theorem roundsFirst_changesOnly {rom : Rom} {n : SchedName} {m : Nat} {r r' : Lane}
    (h : roundsFirst rom n m r = .ok r') : Lane.ChangesOnly [.working, .temporaries] r r' := by
  induction m generalizing r' with
  | zero => cases h; exact .refl _ _
  | succ m ih =>
    obtain ⟨r1, h1, h2⟩ := roundsFirst_succ_eq_ok.1 h
    exact (ih h1).trans (roundAt_changesOnly h2)

theorem feedForward_changesOnly {y : Layer} {r r' : Lane} (h : feedForward y r = .ok r') :
    Lane.ChangesOnly [y.hashGroup] r r' := by
  obtain ⟨v, a, b, c, d, e, f, g, h, -, -, -, -, -, -, -, -, -, rfl⟩ := feedForward_eq_ok.1 h
  exact r.setHash_changesOnly _ y

theorem compressOver_changesOnly {rom : Rom} {y : Layer} {n : SchedName} {r r' : Lane}
    (h : compressOver rom y n r = .ok r') : Lane.ChangesOnly [.working, .temporaries, y.hashGroup] r r' := by
  obtain ⟨r1, r2, h1, h2, h3⟩ := compressOver_eq_ok.1 h
  exact ((loadWorking_changesOnly h1).mono (by simp)).trans
    (((roundsFirst_changesOnly h2).mono (by simp)).trans ((feedForward_changesOnly h3).mono (by simp)))

/-- The PoW layer is its parts in order: the raw block, `INIT_IV`, `EXPAND` and `COMPRESS.W`. -/
theorem powHashLane_eq_ok {rom : Rom} {hdr : Buffer} {r r' : Lane} :
    powHashLane rom hdr r = .ok r' ↔
      ∃ n w r2, r.nonce = .holds n ∧ powBlock rom hdr n r.wp = .ok w ∧
        expandLayer .pow (initIvLayer rom .pow { r with wp := w }) = .ok r2 ∧
        compressWLayer rom .pow r2 = .ok r' := by
  simp only [powHashLane, bind_eq_ok, Reg.get_eq_ok]
  constructor
  · rintro ⟨n, hn, w, hw, r2, h2, h⟩; exact ⟨n, w, r2, hn, hw, h2, h⟩
  · rintro ⟨n, w, r2, hn, hw, h2, h⟩; exact ⟨n, hn, w, hw, r2, h2, h⟩

/-- The chain layer is its parts in order: the raw block, `INIT_IV`, `EXPAND`, `COMPRESS.W` and `COMPRESS.P`. -/
theorem chainHashLane_eq_ok {rom : Rom} {hdr : Buffer} {r r' : Lane} :
    chainHashLane rom hdr r = .ok r' ↔
      ∃ dg w r2 r3, r.hp = hashHolding dg ∧ chainBlock hdr dg r.wc = .ok w ∧
        expandLayer .chain (initIvLayer rom .chain { r with wc := w }) = .ok r2 ∧
        compressWLayer rom .chain r2 = .ok r3 ∧ compressPLane rom r3 = .ok r' := by
  simp only [chainHashLane, bind_eq_ok, hashValue_eq_ok]
  constructor
  · rintro ⟨dg, hd, w, hw, r2, h2, r3, h3, h⟩; exact ⟨dg, w, r2, r3, hd, hw, h2, h3, h⟩
  · rintro ⟨dg, w, r2, r3, hd, hw, h2, h3, h⟩; exact ⟨dg, hd, w, hw, r2, h2, r3, h3, h⟩

theorem Lane.changesOnly_wp (r : Lane) (w : SchedRegs) : Lane.ChangesOnly [.wp] r { r with wp := w } :=
  r.setSchedule_changesOnly w .pow

theorem Lane.changesOnly_wc (r : Lane) (w : SchedRegs) : Lane.ChangesOnly [.wc] r { r with wc := w } :=
  r.setSchedule_changesOnly w .chain

theorem powHashLane_changesOnly {rom : Rom} {hdr : Buffer} {r r' : Lane} (h : powHashLane rom hdr r = .ok r') :
    Lane.ChangesOnly [.working, .temporaries, .wp, .hp] r r' := by
  obtain ⟨n, w, r2, -, -, h2, h3⟩ := powHashLane_eq_ok.1 h
  exact ((r.changesOnly_wp w).mono (by simp)).trans
    (((Lane.setHash_changesOnly { r with wp := w } (hashHolding rom.iv) .pow).mono (by simp)).trans
      (((expandLayer_changesOnly h2).mono (by simp)).trans ((compressOver_changesOnly h3).mono (by simp))))

theorem chainHashLane_changesOnly {rom : Rom} {hdr : Buffer} {r r' : Lane} (h : chainHashLane rom hdr r = .ok r') :
    Lane.ChangesOnly [.working, .temporaries, .wc, .hc] r r' := by
  obtain ⟨dg, w, r2, r3, -, -, h2, h3, h4⟩ := chainHashLane_eq_ok.1 h
  exact ((r.changesOnly_wc w).mono (by simp)).trans
    (((Lane.setHash_changesOnly { r with wc := w } (hashHolding rom.iv) .chain).mono (by simp)).trans
      (((expandLayer_changesOnly h2).mono (by simp)).trans
        (((compressOver_changesOnly h3).mono (by simp)).trans ((compressOver_changesOnly h4).mono (by simp)))))

theorem nonceGenLane_changesOnly {cfg : Params} {offset : Word} {r r' : Lane}
    (h : nonceGenLane cfg offset r = .ok r') : Lane.ChangesOnly [.nonce] r r' := by
  obtain ⟨j, -, rfl⟩ := nonceGenLane_eq_ok.1 h
  intro g hg
  cases g <;> simp_all [RegGroup.same]

theorem testLane_changesOnly {cfg : Params} {r r' : Lane} (h : testLane cfg r = .ok r') :
    Lane.ChangesOnly [.hit] r r' := by
  obtain ⟨fd, -, rfl⟩ := testLane_eq_ok.1 h
  intro g hg
  cases g <;> simp_all [RegGroup.same]

/-- What `TRIAL` writes (10_state.md R25): every row but J, LID and the sequencer. -/
abbrev trialGroups : List RegGroup := [.working, .temporaries, .hp, .hc, .wp, .wc, .nonce, .hit]

theorem trialLane_changesOnly {s : State} {r r' : Lane} {out out' : Buffer}
    (h : trialLane s r out = .ok (r', out')) : Lane.ChangesOnly trialGroups r r' := by
  obtain ⟨r1, r2, r3, h1, h2, h3, h4, -⟩ := trialLane_eq_ok.1 h
  exact ((nonceGenLane_changesOnly h1).mono (by simp)).trans
    (((powHashLane_changesOnly h2).mono (by simp)).trans
      (((chainHashLane_changesOnly h3).mono (by simp)).trans ((testLane_changesOnly h4).mono (by simp))))

/-- What `LANE_RUN` writes (10_state.md R25): every row but LID. -/
abbrev laneRunGroups : List RegGroup :=
  [.working, .temporaries, .hp, .hc, .wp, .wc, .nonce, .j, .hit, .lseq]

/-- LID is the one row outside `laneRunGroups`. -/
theorem Lane.changesOnly_laneRunGroups_of_lid {r r' : Lane} (h : r'.lid = r.lid) :
    Lane.ChangesOnly laneRunGroups r r' := by
  intro g hg
  cases g <;> simp_all [RegGroup.same]

theorem trialAt_lid {s : State} {j : Nat} {r r' : Lane} {out out' : Buffer}
    (h : trialAt s j r out = .ok (r', out')) : r'.lid = r.lid :=
  trialLane_changesOnly h .lid (by simp)

/-- The first `n + 1` trials are the first `n` and then trial `n`. -/
theorem trialsFirst_succ_eq_ok {s : State} {n : Nat} {r : Lane} {out : Buffer} {p : Lane × Buffer} :
    trialsFirst s (n + 1) r out = .ok p ↔
      ∃ q, trialsFirst s n r out = .ok q ∧ trialAt s n q.1 q.2 = .ok p := bind_eq_ok

theorem trialsFirst_lid {s : State} {n : Nat} {r : Lane} {out : Buffer} {p : Lane × Buffer}
    (h : trialsFirst s n r out = .ok p) : p.1.lid = r.lid := by
  induction n generalizing p with
  | zero => cases h; rfl
  | succ n ih =>
    obtain ⟨q, h1, h2⟩ := trialsFirst_succ_eq_ok.1 h
    exact (trialAt_lid h2).trans (ih h1)

/-- `LANE_RUN` is its trials and then `LSEQ <- Done`. -/
theorem laneRunLane_eq_ok {s : State} {r r' : Lane} {out out' : Buffer} :
    laneRunLane s r out = .ok (r', out') ↔
      ∃ r1, trialsFirst s s.cfg.iters r out = .ok (r1, out') ∧ r' = { r1 with lseq := .done } := by
  simp only [laneRunLane, bind_eq_ok, Except.ok.injEq, Prod.mk.injEq]
  constructor
  · rintro ⟨⟨r1, o⟩, h1, rfl, rfl⟩; exact ⟨r1, h1, rfl⟩
  · rintro ⟨r1, h1, rfl⟩; exact ⟨(r1, out'), h1, rfl, rfl⟩

theorem laneRunLane_lid {s : State} {r r' : Lane} {out out' : Buffer} (h : laneRunLane s r out = .ok (r', out')) :
    r'.lid = r.lid := by
  obtain ⟨r1, h1, rfl⟩ := laneRunLane_eq_ok.1 h
  exact trialsFirst_lid h1

end Sys2Proof.Machine
end

section
/-! SUPPORT. What recordings do to `OUT` (45_search_loop.md R128), and everything an operation can do, said once. -/

namespace Sys2Proof.Machine

/-! ## Recordings -/

/-- `OUT` after the recording of a hit: the found value into the flag, then the nonce into its slot (R128). -/
def Buffer.recordHit (found : Word) (out : Buffer) (n : Word) : Buffer :=
  { out with cells := Memory.write (Memory.write out.cells foundSlot found) (slotOf n) n }

/-- `OUT` after the recordings of hits, in order. -/
def Buffer.recordHits (found : Word) (out : Buffer) (ns : List Word) : Buffer := ns.foldl (Buffer.recordHit found) out

/-- `out'` is `out` after some recordings, none of which faulted. -/
def Recordings (found : Word) (out out' : Buffer) : Prop :=
  ∃ ns, out' = out.recordHits found ns ∧ (ns ≠ [] → foundSlot < out.words)

/-- The slot of a nonce is its value modulo 128 (30_encoding.md R68). -/
theorem slotOf_eq_mod (n : Word) : slotOf n = n.toNat % 128 := by
  simpa [slotOf] using Nat.and_two_pow_sub_one_eq_mod n.toNat 7

theorem slotOf_lt (n : Word) : slotOf n < foundSlot := by
  rw [slotOf_eq_mod]
  exact Nat.mod_lt _ (by decide)

@[simp] theorem Buffer.recordHit_words (found : Word) (out : Buffer) (n : Word) :
    (out.recordHit found n).words = out.words := rfl

@[simp] theorem Buffer.recordHit_base (found : Word) (out : Buffer) (n : Word) :
    (out.recordHit found n).base = out.base := rfl

@[simp] theorem Buffer.recordHits_words (found : Word) (out : Buffer) (ns : List Word) :
    (out.recordHits found ns).words = out.words := by
  induction ns generalizing out with
  | nil => rfl
  | cons n ns ih => exact ih (out.recordHit found n)

@[simp] theorem Buffer.recordHits_base (found : Word) (out : Buffer) (ns : List Word) :
    (out.recordHits found ns).base = out.base := by
  induction ns generalizing out with
  | nil => rfl
  | cons n ns ih => exact ih (out.recordHit found n)

theorem Buffer.recordHit_wf {found : Word} {out : Buffer} (n : Word) (h : out.wf = true)
    (hw : foundSlot < out.words) : (out.recordHit found n).wf = true :=
  Buffer.wf_write (Buffer.wf_write h (Buffer.write_eq_ok.2 ⟨hw, rfl⟩))
    (Buffer.write_eq_ok.2 ⟨(slotOf_lt n).trans hw, rfl⟩)

theorem Buffer.cells_wf {b : Buffer} (h : b.wf = true) : b.cells.wf = true := by
  simp only [Buffer.wf, Bool.and_eq_true] at h
  exact h.1

/-- After the recording of a hit the flag holds the found value: no slot is the flag's word. -/
theorem Buffer.recordHit_flag {found : Word} {out : Buffer} (n : Word) (h : out.cells.wf = true) :
    Memory.read (out.recordHit found n).cells foundSlot = found := by
  have hflag := Memory.wf_write foundSlot found h
  rw [Buffer.recordHit, Memory.read_write_ne n hflag (slotOf_lt n).ne', Memory.read_write_same foundSlot found h]

theorem Recordings.refl (found : Word) (out : Buffer) : Recordings found out out := ⟨[], rfl, fun h => absurd rfl h⟩

theorem Recordings.trans {found : Word} {o o' o'' : Buffer} (h : Recordings found o o')
    (h' : Recordings found o' o'') : Recordings found o o'' := by
  obtain ⟨ns, rfl, hns⟩ := h
  obtain ⟨ms, rfl, hms⟩ := h'
  refine ⟨ns ++ ms, by simp [Buffer.recordHits], fun hne => ?_⟩
  by_cases hn : ns = []
  · exact Buffer.recordHits_words found o ns ▸ hms fun hm => hne (by simp [hn, hm])
  · exact hns hn

theorem Recordings.words_eq {found : Word} {o o' : Buffer} (h : Recordings found o o') : o'.words = o.words := by
  obtain ⟨ns, rfl, -⟩ := h
  exact Buffer.recordHits_words found o ns

theorem Recordings.base_eq {found : Word} {o o' : Buffer} (h : Recordings found o o') : o'.base = o.base := by
  obtain ⟨ns, rfl, -⟩ := h
  exact Buffer.recordHits_base found o ns

/-- Recordings keep the canonical form, and a flag that is set stays so where the found value is not zero. -/
theorem Recordings.wf_and_flag {found : Word} {o o' : Buffer} (h : Recordings found o o') (hwf : o.wf = true) :
    o'.wf = true ∧ (found ≠ 0#32 → Memory.read o.cells foundSlot ≠ 0#32 → Memory.read o'.cells foundSlot ≠ 0#32) := by
  obtain ⟨ns, rfl, hw⟩ := h
  induction ns generalizing o with
  | nil => exact ⟨hwf, fun _ hset => hset⟩
  | cons n ns ih =>
    have hwords : foundSlot < o.words := hw (by simp)
    have key := ih (o := o.recordHit found n) (Buffer.recordHit_wf n hwf hwords) fun _ => hwords
    refine ⟨key.1, fun hfound _ => key.2 hfound ?_⟩
    rwa [Buffer.recordHit_flag n (Buffer.cells_wf hwf)]

theorem recordLane_recordings {cfg : Params} {r : Lane} {out out' : Buffer} (h : recordLane cfg r out = .ok out') :
    Recordings cfg.foundValue.word out out' := by
  rcases recordLane_eq_ok.1 h with ⟨-, rfl⟩ | ⟨-, n, -, hw, -, rfl⟩
  · exact .refl _ _
  · exact ⟨[n], rfl, fun _ => hw⟩

theorem trialLane_recordings {s : State} {r r' : Lane} {out out' : Buffer}
    (h : trialLane s r out = .ok (r', out')) : Recordings s.cfg.foundValue.word out out' := by
  obtain ⟨r1, r2, r3, -, -, -, -, h5⟩ := trialLane_eq_ok.1 h
  exact recordLane_recordings h5

theorem trialsFirst_recordings {s : State} {n : Nat} {r : Lane} {out : Buffer} {p : Lane × Buffer}
    (h : trialsFirst s n r out = .ok p) : Recordings s.cfg.foundValue.word out p.2 := by
  induction n generalizing p with
  | zero => cases h; exact .refl _ _
  | succ n ih =>
    obtain ⟨q, h1, h2⟩ := trialsFirst_succ_eq_ok.1 h
    exact (ih h1).trans (trialLane_recordings h2)

theorem laneRunLane_recordings {s : State} {r r' : Lane} {out out' : Buffer}
    (h : laneRunLane s r out = .ok (r', out')) : Recordings s.cfg.foundValue.word out out' := by
  obtain ⟨r1, h1, -⟩ := laneRunLane_eq_ok.1 h
  exact trialsFirst_recordings h1

/-! ## Everything an operation can do -/

/-- What a next state of `exec` can come from. -/
inductive ExecForm (i : Instr) (s t : State) : Prop where
  /-- An operation of a lane that writes that lane only. -/
  | lane (r r' : Lane) : i ≠ .padgen → i ≠ .record → i ≠ .launch → s.lanes[s.bind.lane]? = some r →
      Lane.ChangesOnly (writtenBy s.bind i) r r' → r'.lseq = r.lseq → t = s.setLane s.bind.lane r' → ExecForm i s t
  /-- An operation of a lane that may write `OUT` too. -/
  | recording (r r' : Lane) (out' : Buffer) : i = .record ∨ i = .trial ∨ i = .laneRun →
      s.lanes[s.bind.lane]? = some r → Lane.ChangesOnly (writtenBy s.bind i) r r' →
      r'.lseq = r.lseq ∨ r'.lseq = .done → (i = .record → r' = r) →
      Recordings s.cfg.foundValue.word s.out out' → t = { s.setLane s.bind.lane r' with out := out' } → ExecForm i s t
  | padgen (w : SchedRegs) : i = .padgen → t = { s with padgen := w } → ExecForm i s t
  | launch : i = .launch → s.phase ≠ .running → s.conforming →
      t = { s with offset := s.bind.offset, lanes := s.lanes.map (launchLane s.cfg), phase := .running } →
      ExecForm i s t

theorem WordReg.group_ne_lseq (n : WordReg) : .lseq ∉ [n.group] := by
  cases n <;> simp [WordReg.group]

/-- No operation writes LID. -/
theorem lid_not_mem_writtenBy (b : Binding) (i : Instr) : .lid ∉ writtenBy b i := by
  cases i with
  | add | and | or | xor | not | rotr n | shr n | bsig0 | bsig1 | ch | maj | ssig0 | ssig1 =>
    cases h : b.dst <;> simp [writtenBy, h, WordReg.group]
  | expandStep k => cases h : b.layer <;> simp [writtenBy, h]
  | expand | initIv | compressW => cases h : b.layer <;> simp [writtenBy, h]
  | _ => simp [writtenBy]

theorem wordOp1_eq_next {s t : State} {f : Word → Word} : wordOp1 s f = .next t ↔
    ∃ r x, s.lanes[s.bind.lane]? = some r ∧ s.bind.x.value r = .ok x ∧
      t = s.setLane s.bind.lane (s.bind.dst.write r (f x)) := by
  simp only [wordOp1, onLane_eq_next, bind_eq_ok, Except.ok.injEq]
  constructor
  · rintro ⟨r, _, hr, ⟨x, hx, rfl⟩, rfl⟩; exact ⟨r, x, hr, hx, rfl⟩
  · rintro ⟨r, x, hr, hx, rfl⟩; exact ⟨r, _, hr, ⟨x, hx, rfl⟩, rfl⟩

theorem wordOp2_eq_next {s t : State} {f : Word → Word → Word} : wordOp2 s f = .next t ↔
    ∃ r x y, s.lanes[s.bind.lane]? = some r ∧ s.bind.x.value r = .ok x ∧ s.bind.y.value r = .ok y ∧
      t = s.setLane s.bind.lane (s.bind.dst.write r (f x y)) := by
  simp only [wordOp2, onLane_eq_next, bind_eq_ok, Except.ok.injEq]
  constructor
  · rintro ⟨r, _, hr, ⟨x, hx, y, hy, rfl⟩, rfl⟩; exact ⟨r, x, y, hr, hx, hy, rfl⟩
  · rintro ⟨r, x, y, hr, hx, hy, rfl⟩; exact ⟨r, _, hr, ⟨x, hx, y, hy, rfl⟩, rfl⟩

theorem wordOp3_eq_next {s t : State} {f : Word → Word → Word → Word} : wordOp3 s f = .next t ↔
    ∃ r x y z, s.lanes[s.bind.lane]? = some r ∧ s.bind.x.value r = .ok x ∧ s.bind.y.value r = .ok y ∧
      s.bind.z.value r = .ok z ∧ t = s.setLane s.bind.lane (s.bind.dst.write r (f x y z)) := by
  simp only [wordOp3, onLane_eq_next, bind_eq_ok, Except.ok.injEq]
  constructor
  · rintro ⟨r, _, hr, ⟨x, hx, y, hy, z, hz, rfl⟩, rfl⟩; exact ⟨r, x, y, z, hr, hx, hy, hz, rfl⟩
  · rintro ⟨r, x, y, z, hr, hx, hy, hz, rfl⟩; exact ⟨r, _, hr, ⟨x, hx, y, hy, z, hz, rfl⟩, rfl⟩

/-- The word operations are of three shapes, with the sources `sourcesOf` names. -/
theorem exec_wordOp_shape {i : Instr} (hi : isWordOp i = true) (s : State) :
    (∃ f, exec i s = wordOp1 s f ∧ sourcesOf s.bind i = [s.bind.x]) ∨
    (∃ f, exec i s = wordOp2 s f ∧ sourcesOf s.bind i = [s.bind.x, s.bind.y]) ∨
    (∃ f, exec i s = wordOp3 s f ∧ sourcesOf s.bind i = [s.bind.x, s.bind.y, s.bind.z]) := by
  cases i with
  | add | and | or | xor => exact .inr (.inl ⟨_, rfl, rfl⟩)
  | not | rotr n | shr n | bsig0 | bsig1 | ssig0 | ssig1 => exact .inl ⟨_, rfl, rfl⟩
  | ch | maj => exact .inr (.inr ⟨_, rfl, rfl⟩)
  | _ => exact absurd hi (by simp [isWordOp])

/-- A word operation answers by writing one word to its destination. -/
theorem exec_wordOp_eq_next {i : Instr} {s t : State} (hi : isWordOp i = true) (h : exec i s = .next t) :
    ∃ r v, s.lanes[s.bind.lane]? = some r ∧ t = s.setLane s.bind.lane (s.bind.dst.write r v) := by
  rcases exec_wordOp_shape hi s with ⟨f, he, -⟩ | ⟨f, he, -⟩ | ⟨f, he, -⟩ <;> rw [he] at h
  · obtain ⟨r, x, hr, -, ht⟩ := wordOp1_eq_next.1 h
    exact ⟨r, _, hr, ht⟩
  · obtain ⟨r, x, y, hr, -, -, ht⟩ := wordOp2_eq_next.1 h
    exact ⟨r, _, hr, ht⟩
  · obtain ⟨r, x, y, z, hr, -, -, -, ht⟩ := wordOp3_eq_next.1 h
    exact ⟨r, _, hr, ht⟩

theorem writtenBy_of_isWordOp {i : Instr} (hi : isWordOp i = true) (b : Binding) : writtenBy b i = [b.dst.group] := by
  cases i with
  | add | and | or | xor | not | rotr n | shr n | bsig0 | bsig1 | ch | maj | ssig0 | ssig1 => rfl
  | _ => exact absurd hi (by simp [isWordOp])

theorem execForm_of_isWordOp {i : Instr} {s t : State} (hi : isWordOp i = true) (h : exec i s = .next t) :
    ExecForm i s t := by
  obtain ⟨r, v, hr, rfl⟩ := exec_wordOp_eq_next hi h
  refine .lane r _ ?_ ?_ ?_ hr ?_ (WordReg.write_lseq r v _) rfl
  · rintro rfl; cases hi
  · rintro rfl; cases hi
  · rintro rfl; cases hi
  · exact writtenBy_of_isWordOp hi s.bind ▸ s.bind.dst.write_changesOnly r v

/-- An operation that is `onLane` of an operation of a lane is of the first form. -/
theorem execForm_of_onLane {i : Instr} {s t : State} {op : Lane → Except Fault Lane}
    (h : onLane s op = .next t) (hp : i ≠ .padgen) (hr : i ≠ .record) (hla : i ≠ .launch)
    (hl : .lseq ∉ writtenBy s.bind i)
    (hop : ∀ r r', op r = .ok r' → Lane.ChangesOnly (writtenBy s.bind i) r r') : ExecForm i s t := by
  obtain ⟨r, r', hlane, hok, rfl⟩ := onLane_eq_next.1 h
  have hchg := hop r r' hok
  exact .lane r r' hp hr hla hlane hchg (hchg .lseq hl) rfl

theorem writtenBy_expandStep (b : Binding) (k : BitVec 6) :
    writtenBy b (.expandStep k) = [b.layer.schedGroup] := by
  cases h : b.layer <;> simp [writtenBy, h]

theorem writtenBy_expand (b : Binding) : writtenBy b .expand = [b.layer.schedGroup] := writtenBy_expandStep b 0

theorem writtenBy_initIv (b : Binding) : writtenBy b .initIv = [b.layer.hashGroup] := by
  cases h : b.layer <;> simp [writtenBy, h]

theorem writtenBy_compressW (b : Binding) :
    writtenBy b .compressW = [.working, .temporaries, b.layer.hashGroup] := by
  cases h : b.layer <;> simp [writtenBy, h]

theorem Layer.groups_ne_lseq (y : Layer) : .lseq ≠ y.schedGroup ∧ .lseq ≠ y.hashGroup := by
  cases y <;> decide

/-- Every next state of `exec` is of one of these forms. -/
theorem exec_form {i : Instr} {s t : State} (h : exec i s = .next t) : ExecForm i s t := by
  cases i with
  | add | and | or | xor | not | rotr n | shr n | bsig0 | bsig1 | ch | maj | ssig0 | ssig1 =>
    exact execForm_of_isWordOp rfl h
  | expandStep k =>
    have hw := writtenBy_expandStep s.bind k
    simp only [exec, execExpandStep] at h
    split at h
    · refine execForm_of_onLane h nofun nofun nofun (by simp [hw, Layer.groups_ne_lseq]) fun r r' hok => ?_
      obtain ⟨w, -, hr'⟩ := bind_eq_ok.1 hok
      cases hr'
      exact hw ▸ r.setSchedule_changesOnly w s.bind.layer
    · cases h
  | expand =>
    have hw := writtenBy_expand s.bind
    exact execForm_of_onLane h nofun nofun nofun (by simp [hw, Layer.groups_ne_lseq]) fun r r' hok =>
      hw ▸ expandLayer_changesOnly hok
  | initIv =>
    have hw := writtenBy_initIv s.bind
    simp only [exec, execInitIv] at h
    refine execForm_of_onLane h nofun nofun nofun (by simp [hw, Layer.groups_ne_lseq]) fun r r' hok => ?_
    cases hok
    exact hw ▸ r.setHash_changesOnly _ s.bind.layer
  | compressW =>
    have hw := writtenBy_compressW s.bind
    exact execForm_of_onLane h nofun nofun nofun (by simp [hw, Layer.groups_ne_lseq]) fun r r' hok =>
      hw ▸ compressOver_changesOnly hok
  | round k => exact execForm_of_onLane h nofun nofun nofun (by simp [writtenBy]) fun _ _ => roundAt_changesOnly
  | compressP => exact execForm_of_onLane h nofun nofun nofun (by simp [writtenBy]) fun _ _ => compressOver_changesOnly
  | powHash => exact execForm_of_onLane h nofun nofun nofun (by simp [writtenBy]) fun _ _ => powHashLane_changesOnly
  | chainHash => exact execForm_of_onLane h nofun nofun nofun (by simp [writtenBy]) fun _ _ => chainHashLane_changesOnly
  | nonceGen => exact execForm_of_onLane h nofun nofun nofun (by simp [writtenBy]) fun _ _ => nonceGenLane_changesOnly
  | test => exact execForm_of_onLane h nofun nofun nofun (by simp [writtenBy]) fun _ _ => testLane_changesOnly
  | padgen =>
    simp only [exec] at h
    obtain ⟨w, -, ht⟩ := execPadgen_eq_next.1 h
    exact .padgen w rfl ht
  | record =>
    simp only [exec, execRecord] at h
    obtain ⟨r, r', out', hr, hok, ht⟩ := onLaneOut_eq_next.1 h
    obtain ⟨o, ho, he⟩ := bind_eq_ok.1 hok
    cases he
    exact .recording r r out' (.inl rfl) hr (.refl _ _) (.inl rfl) (fun _ => rfl) (recordLane_recordings ho) ht
  | trial =>
    obtain ⟨r, r', out', hr, hok, ht⟩ := onLaneOut_eq_next.1 h
    have hchg := trialLane_changesOnly hok
    exact .recording r r' out' (.inr (.inl rfl)) hr hchg (.inl (hchg .lseq (by simp))) nofun
      (trialLane_recordings hok) ht
  | laneRun =>
    obtain ⟨r, r', out', hr, hok, ht⟩ := onLaneOut_eq_next.1 h
    have hdone : r'.lseq = .done := by
      obtain ⟨r1, -, rfl⟩ := laneRunLane_eq_ok.1 hok
      rfl
    exact .recording r r' out' (.inr (.inr rfl)) hr (Lane.changesOnly_laneRunGroups_of_lid (laneRunLane_lid hok))
      (.inr hdone) nofun (laneRunLane_recordings hok) ht
  | launch =>
    obtain ⟨hadm, ht⟩ := execLaunch_eq_next.1 h
    obtain ⟨hphase, hconf⟩ := launchFailure_eq_none.1 hadm
    exact .launch rfl hphase hconf ht

/-! ## Everything a step of the lanes can do -/

/-- A lane offered to the platform is one in `Run(j)`. -/
theorem mem_unfinished {ls : List Lane} {k l : Nat} (h : l ∈ unfinished k ls) :
    ∃ r j, k ≤ l ∧ ls[l - k]? = some r ∧ r.lseq = .run j := by
  induction ls generalizing k with
  | nil => cases h
  | cons r rest ih =>
    have tail : l ∈ unfinished (k + 1) rest → ∃ r' j, k ≤ l ∧ (r :: rest)[l - k]? = some r' ∧ r'.lseq = .run j := by
      intro hmem
      obtain ⟨r', j, hle, hr', hj⟩ := ih hmem
      refine ⟨r', j, by omega, ?_, hj⟩
      rw [show l - k = l - (k + 1) + 1 by omega, List.getElem?_cons_succ]
      exact hr'
    simp only [unfinished] at h
    split at h
    · rename_i j hj
      rcases List.mem_cons.1 h with rfl | hmem
      · exact ⟨r, j, le_rfl, by simp, hj⟩
      · exact tail hmem
    · exact tail h
    · exact tail h

/-- What a next state of the lanes' step can come from. -/
inductive AgentsForm (s t : State) : Prop where
  /-- Every lane is done, and the batch completes (45_search_loop.md R133). -/
  | complete : (∀ r ∈ s.lanes, r.lseq = .done) → t = { s with phase := .done, tick := s.tick + 1 } → AgentsForm s t
  /-- A lane in `Run(j)` performs trial j (R139). -/
  | trial (l j : Nat) (r r' : Lane) (out' : Buffer) : s.lanes[l]? = some r → r.lseq = .run j →
      trialAt s j r s.out = .ok (r', out') →
      t = { s.setLane l { r' with lseq := if j + 1 < s.cfg.iters then .run (j + 1) else .done } with
        out := out', tick := s.tick + 1 } → AgentsForm s t
  /-- No lane is offered. -/
  | wait : t = { s with tick := s.tick + 1 } → AgentsForm s t

/-- Every next state of the lanes' step is of one of these forms. -/
theorem agents_form {s t : State} (h : agentsStep s = .next t) : AgentsForm s t := by
  rcases batchStep_eq_next h with ⟨hdone, rfl⟩ | ⟨l, hl, hstep⟩ | ⟨-, rfl⟩
  · exact .complete (by simpa [Lane.isDone] using hdone) rfl
  · obtain ⟨r, j, -, hr, hj⟩ := mem_unfinished (mem_of_pick hl)
    obtain ⟨r0, r', out', hr0, hseq, rfl⟩ := laneStep_eq_next.1 hstep
    obtain rfl : r = r0 := Option.some.inj (hr.symm.trans hr0)
    obtain ⟨r1, htrial, rfl⟩ := (laneSequence_run hj).1 hseq
    exact .trial l j r r1 out' hr hj htrial rfl
  · exact .wait rfl

end Sys2Proof.Machine
end

section
/-! SUPPORT. The invariant of the machine at reset and over every step, and what else no step of a batch does. -/

namespace Sys2Proof.Machine

/-! ## The invariant -/

/-- Putting back a lane with its own index leaves the lanes' indices as they were. -/
theorem map_lid_set {ls : List Lane} {l : Nat} {r r' : Lane} (h : ls[l]? = some r) (hid : r'.lid = r.lid) :
    (ls.set l r').map Lane.lid = ls.map Lane.lid := by
  obtain ⟨hl, rfl⟩ := List.getElem?_eq_some_iff.1 h
  rw [List.map_set, hid, ← List.getElem_map Lane.lid (h := by simpa using hl), List.set_getElem_self]

/-- A lane put back with its index and a sequencer in range, and recordings in `OUT`, keep the invariant. -/
theorem State.inv_setLane_out {s : State} {l : Nat} {r r' : Lane} {out' : Buffer} (hinv : s.inv)
    (hr : s.lanes[l]? = some r) (hid : r'.lid = r.lid) (hrange : r'.lseq.inRange s.cfg.iters = true)
    (hidle : r.lseq ≠ .idle → r'.lseq ≠ .idle) (hout : Recordings s.cfg.foundValue.word s.out out') :
    State.inv { s.setLane l r' with out := out' } := by
  obtain ⟨hrom, hhdr, hwf, hlid, hseq, hrun⟩ := hinv
  refine ⟨hrom, hhdr, (hout.wf_and_flag hwf).1, (map_lid_set hr hid).trans hlid, fun q hq => ?_, fun hp => ?_⟩
  · rcases List.mem_or_eq_of_mem_set hq with hq | rfl
    · exact hseq q hq
    · exact hrange
  · obtain ⟨⟨hw, how, hb, hob⟩, hni⟩ := hrun hp
    refine ⟨⟨hw, hout.words_eq.trans how, hb, hout.base_eq ▸ hob⟩, fun q hq => ?_⟩
    rcases List.mem_or_eq_of_mem_set hq with hq | rfl
    · exact hni q hq
    · exact hidle (hni r (List.mem_of_getElem? hr))

/-- The state after reset has the invariant where host memory is canonical. -/
theorem State.inv_resetOf (cfg : Params) {hdr out : Buffer} (hhdr : hdr.wf = true) (hout : out.wf = true) :
    (State.resetOf cfg hdr out).inv := by
  refine ⟨rfl, hhdr, hout, ?_, fun r hr => ?_, nofun⟩
  · simp [Function.comp_def]
  · obtain ⟨l, -, rfl⟩ := List.mem_map.1 hr
    rfl

/-- An admitted launch leaves every lane at its first trial or done, over the buffers it admitted. -/
theorem State.inv_launch {s : State} (hinv : s.inv) (hconf : s.conforming) (offset : Word) :
    State.inv { s with offset := offset, lanes := s.lanes.map (launchLane s.cfg), phase := .running } := by
  obtain ⟨hrom, hhdr, hwf, hlid, -, -⟩ := hinv
  have hlane : ∀ r ∈ s.lanes.map (launchLane s.cfg), r.lseq = if 0 < s.cfg.iters then .run 0 else .done := by
    intro r hr
    obtain ⟨r0, -, rfl⟩ := List.mem_map.1 hr
    rfl
  refine ⟨hrom, hhdr, hwf, ?_, fun r hr => ?_, fun _ => ⟨hconf, fun r hr => ?_⟩⟩
  · simpa [launchLane, Function.comp_def] using hlid
  · rw [hlane r hr]
    split <;> simp [LaneSeq.inRange, *]
  · rw [hlane r hr]
    split <;> simp

/-- Every operation keeps the invariant. -/
theorem exec_keeps_inv {i : Instr} {s t : State} (hinv : s.inv) (h : exec i s = .next t) : t.inv := by
  have ⟨_, _, _, _, hseq, _⟩ := hinv
  cases exec_form h with
  | lane r r' hp hrec hla hr hchg hl ht =>
    subst ht
    exact State.inv_setLane_out hinv hr (hchg .lid (lid_not_mem_writtenBy s.bind i))
      (hl ▸ hseq r (List.mem_of_getElem? hr)) (fun hni => hl ▸ hni) (.refl _ _)
  | recording r r' out' hi hr hchg hl hrec hout ht =>
    subst ht
    refine State.inv_setLane_out hinv hr (hchg .lid (lid_not_mem_writtenBy s.bind i)) ?_ (fun hni => ?_) hout
    · rcases hl with hl | hl
      · exact hl ▸ hseq r (List.mem_of_getElem? hr)
      · rw [hl]; rfl
    · rcases hl with hl | hl
      · exact hl ▸ hni
      · rw [hl]; nofun
  | padgen w hi ht => exact ht ▸ hinv
  | launch hi hphase hconf ht => exact ht ▸ State.inv_launch hinv hconf s.bind.offset

/-- Every step of the lanes keeps the invariant: a lane goes to a trial in range or is done. -/
theorem agentsStep_keeps_inv {s t : State} (hinv : s.inv) (h : agentsStep s = .next t) : t.inv := by
  cases agents_form h with
  | complete hdone ht =>
    obtain ⟨hrom, hhdr, hwf, hlid, hseq, -⟩ := hinv
    exact ht ▸ ⟨hrom, hhdr, hwf, hlid, hseq, nofun⟩
  | wait ht => exact ht ▸ hinv
  | trial l j r r' out' hr hj htrial ht =>
    subst ht
    have hid : r'.lid = r.lid := trialAt_lid htrial
    refine State.inv_setLane_out (r' := { r' with lseq := if j + 1 < s.cfg.iters then .run (j + 1) else .done })
      hinv hr hid ?_ (fun _ => ?_) (trialLane_recordings htrial)
    · dsimp only
      split <;> simp [LaneSeq.inRange, *]
    · dsimp only
      split <;> simp

/-- Settles O55: each form of a step keeps the invariant. -/
theorem everyStepKeepsTheInvariant : Obligations.EveryStepKeepsTheInvariant := by
  intro s t hinv h
  cases step_form h with
  | op i b rest hp hx => exact exec_keeps_inv (s := { s with pending := rest, bind := b }) hinv hx
  | refusedLaunch rest c ht => exact ht ▸ hinv
  | hostWrite rest hdr out hphase ht hhdr hout =>
    obtain ⟨hrom, hh, ho, hlid, hseq, -⟩ := hinv
    exact ht ▸ ⟨hrom, hhdr hh, hout ho, hlid, hseq, fun hp => absurd hp hphase⟩
  | phaseRead rest p ht => exact ht ▸ hinv
  | collect rest words hphase ht => exact ht ▸ hinv
  | reset rest hp hx =>
    obtain ⟨-, hh, ho, -⟩ := hinv
    cases hx
    refine State.inv_resetOf s.cfg hh ?_
    dsimp only
    split
    · exact abandonOut_wf s.tick ho
    · exact ho
  | agents hq hphase hx => exact agentsStep_keeps_inv hinv hx
  | stay hphase ht => exact ht ▸ hinv

/-- Settles O56: `State.reset` is a `State.resetOf`. -/
theorem resetHasTheInvariant : Obligations.ResetHasTheInvariant :=
  ⟨State.inv_resetOf paramsReset reset_memory_wf.1 reset_memory_wf.2, fun cfg _ _ hh ho => State.inv_resetOf cfg hh ho⟩

/-- Every word register of a blank lane is unwritten. -/
theorem WordReg.cell_blank (lid : Nat) (q : LaneSeq) (n : WordReg) : n.cell (Lane.blank lid q) = .unwritten := by
  cases n <;> simp [WordReg.cell]

/-- Settles O57, field by field and lane by lane. -/
theorem resetLeavesTheSpecsState : Obligations.ResetLeavesTheSpecsState := by
  intro cfg hdr out
  refine ⟨rfl, rfl, rfl, rfl, rfl, rfl, rfl, rfl, by simp, fun l hl => ⟨Lane.blank l .idle, ?_, rfl, rfl, rfl, rfl, ?_⟩⟩
  · simp [hl]
  · exact WordReg.cell_blank l .idle

/-! ## What operations leave alone -/

/-- Settles O36: the written lane changes in the operation's rows only, every other lane is as it was. -/
theorem registersChangeOnlyByTheirOperations : Obligations.RegistersChangeOnlyByTheirOperations := by
  intro i s t l r r' g h hr hr' hg
  /- The one lane an operation puts back, against the row and the lane asked for. -/
  have inLane : ∀ q q' : Lane, i ≠ .launch → s.lanes[s.bind.lane]? = some q →
      Lane.ChangesOnly (writtenBy s.bind i) q q' → (s.lanes.set s.bind.lane q')[l]? = some r' → g.same r r' := by
    intro q q' hi hq hchg hset
    by_cases hl : l = s.bind.lane
    · subst hl
      obtain rfl : r = q := Option.some.inj (hr.symm.trans hq)
      obtain ⟨hlt, -⟩ := List.getElem?_eq_some_iff.1 hq
      obtain rfl : q' = r' := by simpa [hlt] using hset
      exact hchg g (hg.resolve_left fun hne => hne.2 rfl)
    · rw [List.getElem?_set_ne (Ne.symm hl), hr] at hset
      cases hset
      exact g.same_refl r
  cases exec_form h with
  | lane q q' hp hrec hla hq hchg hl ht =>
    subst ht
    exact inLane q q' hla hq hchg hr'
  | recording q q' out' hi hq hchg hl hrec hout ht =>
    subst ht
    exact inLane q q' (by rcases hi with rfl | rfl | rfl <;> nofun) hq hchg hr'
  | padgen w hi ht =>
    subst ht
    cases hr.symm.trans hr'
    exact g.same_refl r
  | launch hi hphase hconf ht =>
    subst ht hi
    have hmem : g ∉ laneRunGroups := hg.resolve_left fun hne => hne.1 rfl
    simp only [List.getElem?_map, hr, Option.map_some, Option.some.injEq] at hr'
    exact Lane.changesOnly_laneRunGroups_of_lid (hr' ▸ rfl) g hmem

/-- Settles O37, form by form of what an operation can do. -/
theorem operationsLeaveTheRestAlone : Obligations.OperationsLeaveTheRestAlone := by
  intro i s t h
  cases exec_form h with
  | lane q q' hp hrec hla hq hchg hl ht =>
    subst ht
    exact ⟨by simp [State.sameFrame], fun _ => ⟨rfl, rfl, fun l hl => List.getElem?_set_ne (Ne.symm hl)⟩,
      fun _ => rfl, fun _ _ _ => rfl, fun hi => (hi.elim hp hrec).elim⟩
  | recording q q' out' hi hq hchg hl hrec hout ht =>
    subst ht
    refine ⟨by simp [State.sameFrame, hout.words_eq, hout.base_eq],
      fun _ => ⟨rfl, rfl, fun l hl => List.getElem?_set_ne (Ne.symm hl)⟩, fun _ => rfl,
      fun h1 h2 h3 => by simp [h1, h2, h3] at hi, fun hpr => ?_⟩
    have hrecord : i = .record := by
      rcases hpr with rfl | rfl
      · simp at hi
      · rfl
    obtain ⟨hlt, hget⟩ := List.getElem?_eq_some_iff.1 hq
    simp [hrec hrecord, ← hget]
  | padgen w hi ht =>
    subst ht
    exact ⟨by simp [State.sameFrame], fun _ => ⟨rfl, rfl, fun _ _ => rfl⟩, fun hne => absurd hi hne,
      fun _ _ _ => rfl, fun _ => rfl⟩
  | launch hi hphase hconf ht =>
    subst ht
    exact ⟨by simp [State.sameFrame], fun hne => absurd hi hne, fun _ => rfl, fun _ _ _ => rfl,
      fun hpr => by simp [hi] at hpr⟩

/-! ## Steps of the whole machine -/

/-- Only an admitted `LAUNCH` moves `PHASE`, and none is admitted in `Running`. -/
theorem exec_phase {i : Instr} {s t : State} (h : exec i s = .next t) :
    t.phase = s.phase ∨ (i = .launch ∧ s.phase ≠ .running) := by
  cases exec_form h with
  | lane q q' hp hrec hla hq hchg hl ht => exact .inl (ht ▸ rfl)
  | recording q q' out' hi hq hchg hl hrec hout ht => exact .inl (ht ▸ rfl)
  | padgen w hi ht => exact .inl (ht ▸ rfl)
  | launch hi hphase hconf ht => exact .inr ⟨hi, hphase⟩

/-- An operation in `Running` is no admitted launch: it leaves `OFFSET` as it is. -/
theorem exec_offset_of_running {i : Instr} {s t : State} (hrun : s.phase = .running) (h : exec i s = .next t) :
    t.offset = s.offset := by
  cases exec_form h with
  | lane q q' hp hrec hla hq hchg hl ht => exact ht ▸ rfl
  | recording q q' out' hi hq hchg hl hrec hout ht => exact ht ▸ rfl
  | padgen w hi ht => exact ht ▸ rfl
  | launch hi hphase hconf ht => exact absurd hrun hphase

/-- All an operation does to `OUT` is recordings. -/
theorem exec_recordings {i : Instr} {s t : State} (h : exec i s = .next t) :
    Recordings s.cfg.foundValue.word s.out t.out := by
  cases exec_form h with
  | lane q q' hp hrec hla hq hchg hl ht => exact ht ▸ .refl _ _
  | recording q q' out' hi hq hchg hl hrec hout ht => exact ht ▸ hout
  | padgen w hi ht => exact ht ▸ .refl _ _
  | launch hi hphase hconf ht => exact ht ▸ .refl _ _

/-- All a step of the lanes does to `OUT` is recordings. -/
theorem agentsStep_recordings {s t : State} (h : agentsStep s = .next t) :
    Recordings s.cfg.foundValue.word s.out t.out := by
  cases agents_form h with
  | complete hdone ht => exact ht ▸ .refl _ _
  | trial l j r r' out' hr hj htrial ht => exact ht ▸ trialLane_recordings htrial
  | wait ht => exact ht ▸ .refl _ _

/-- A step of the lanes leaves all but the lanes, `OUT`, `PHASE` and the model's counter as it was. -/
theorem agentsStep_frame {s t : State} (h : agentsStep s = .next t) :
    t.cfg = s.cfg ∧ t.rom = s.rom ∧ t.hdr = s.hdr ∧ t.offset = s.offset ∧ t.pending = s.pending ∧
      t.seenPhase = s.seenPhase ∧ t.result = s.result := by
  cases agents_form h with
  | complete hdone ht => exact ht ▸ ⟨rfl, rfl, rfl, rfl, rfl, rfl, rfl⟩
  | trial l j r r' out' hr hj htrial ht => exact ht ▸ ⟨rfl, rfl, rfl, rfl, rfl, rfl, rfl⟩
  | wait ht => exact ht ▸ ⟨rfl, rfl, rfl, rfl, rfl, rfl, rfl⟩

/-- Settles O51: of the forms of a step only an admitted launch, a completion and a reset move `PHASE`. -/
theorem onlyLaunchAndCompletionMoveThePhase : Obligations.OnlyLaunchAndCompletionMoveThePhase := by
  intro s t h
  cases step_form h with
  | op i b rest hreq hx =>
    rcases exec_phase hx with hphase | ⟨rfl, hphase⟩
    · exact ⟨fun hrun => .inl (hphase.trans hrun), fun hne hrun => absurd (hphase.symm.trans hrun) hne⟩
    · refine ⟨fun hrun => absurd hrun hphase, fun _ _ => ?_⟩
      rcases hreq with ⟨w, hp, hd⟩ | ⟨offset, hp, -, -⟩
      · exact .inl ⟨w, b, rest, hp, hd⟩
      · exact .inr ⟨offset, rest, hp⟩
  | refusedLaunch rest c ht => exact ht ▸ ⟨fun hrun => .inl hrun, fun hne hrun => absurd hrun hne⟩
  | hostWrite rest hdr out hphase ht => exact ht ▸ ⟨fun hrun => .inl hrun, fun hne hrun => absurd hrun hne⟩
  | phaseRead rest p ht => exact ht ▸ ⟨fun hrun => .inl hrun, fun hne hrun => absurd hrun hne⟩
  | collect rest words hphase ht => exact ht ▸ ⟨fun hrun => .inl hrun, fun hne hrun => absurd hrun hne⟩
  | stay hphase ht => exact ht ▸ ⟨fun hrun => .inl hrun, fun hne hrun => absurd hrun hne⟩
  | reset rest hp hx =>
    cases hx
    exact ⟨fun _ => .inr (.inr ⟨rfl, rest, hp⟩), nofun⟩
  | agents hq hphase hx =>
    refine ⟨fun hrun => ?_, fun hne _ => absurd hphase hne⟩
    cases agents_form hx with
    | complete hdone ht => exact ht ▸ .inr (.inl ⟨rfl, hdone, rfl, hq⟩)
    | trial l j r r' out' hr hj htrial ht => exact ht ▸ .inl hrun
    | wait ht => exact ht ▸ .inl hrun

/-- Settles O52: in `Running` all that reaches `OUT` is recordings, and the found value is not zero. -/
theorem foundFlagIsNeverClearedInABatch : Obligations.FoundFlagIsNeverClearedInABatch := by
  intro s t hwf hrun h hidle hset
  have kept : Recordings s.cfg.foundValue.word s.out t.out → Memory.read t.out.cells 128 ≠ 0#32 := fun hrec =>
    (hrec.wf_and_flag hwf).2 (FoundValue.ne_zero s.cfg.foundValue) hset
  cases step_form h with
  | op i b rest hreq hx => exact kept (exec_recordings (s := { s with pending := rest, bind := b }) hx)
  | refusedLaunch rest c ht => exact ht ▸ hset
  | hostWrite rest hdr out hphase ht => exact absurd hrun hphase
  | phaseRead rest p ht => exact ht ▸ hset
  | collect rest words hphase ht => exact ht ▸ hset
  | reset rest hp hx => cases hx; exact absurd rfl hidle
  | agents hq hphase hx => exact kept (agentsStep_recordings hx)
  | stay hphase ht => exact absurd hrun hphase

/-- Settles O53: only the host writes `HDR`, and not in `Running`. -/
theorem headerAndOffsetAreConstantInABatch : Obligations.HeaderAndOffsetAreConstantInABatch := by
  intro s t hrun h
  cases step_form h with
  | op i b rest hreq hx =>
    obtain ⟨⟨-, -, hhdr, -⟩, -⟩ := operationsLeaveTheRestAlone i _ t hx
    exact ⟨hhdr, fun _ => exec_offset_of_running (s := { s with pending := rest, bind := b }) hrun hx⟩
  | refusedLaunch rest c ht => exact ht ▸ ⟨rfl, fun _ => rfl⟩
  | hostWrite rest hdr out hphase ht => exact absurd hrun hphase
  | phaseRead rest p ht => exact ht ▸ ⟨rfl, fun _ => rfl⟩
  | collect rest words hphase ht => exact ht ▸ ⟨rfl, fun _ => rfl⟩
  | reset rest hp hx => cases hx; exact ⟨rfl, fun hidle => absurd rfl hidle⟩
  | agents hq hphase hx =>
    obtain ⟨-, -, hhdr, hoffset, -⟩ := agentsStep_frame hx
    exact ⟨hhdr, fun _ => hoffset⟩
  | stay hphase ht => exact absurd hrun hphase

/-- Settles O54, form by form of a step; a reset puts the tables' values there again. -/
theorem parametersAndTablesNeverChange : Obligations.ParametersAndTablesNeverChange := by
  intro s t h
  cases step_form h with
  | op i b rest hreq hx =>
    obtain ⟨⟨hcfg, hrom, -⟩, -⟩ := operationsLeaveTheRestAlone i _ t hx
    exact ⟨hcfg, hrom.trans⟩
  | refusedLaunch rest c ht => exact ht ▸ ⟨rfl, id⟩
  | hostWrite rest hdr out hphase ht => exact ht ▸ ⟨rfl, id⟩
  | phaseRead rest p ht => exact ht ▸ ⟨rfl, id⟩
  | collect rest words hphase ht => exact ht ▸ ⟨rfl, id⟩
  | reset rest hp hx => cases hx; exact ⟨rfl, fun _ => rfl⟩
  | agents hq hphase hx =>
    obtain ⟨hcfg, hrom, -⟩ := agentsStep_frame hx
    exact ⟨hcfg, hrom.trans⟩
  | stay hphase ht => exact ht ▸ ⟨rfl, id⟩

/-- A host move that is neither `LAUNCH` nor a wait leaves the block as it was and is over. -/
theorem serveHost_frame {m : HostMove} {rest : List Request} {s t : State} (hlaunch : ∀ offset, m ≠ .launch offset)
    (hwait : m ≠ .wait) (h : serveHost m rest s = .next t) :
    ∃ hdr out seenPhase result, t = { s with
      pending := rest, hdr := hdr, out := out, seenPhase := seenPhase, result := result } := by
  cases m with
  | launch offset => exact absurd rfl (hlaunch offset)
  | wait => exact absurd rfl hwait
  | readPhase => cases h; exact ⟨_, _, _, _, rfl⟩
  | collect =>
    simp only [serveHost, hostCollect] at h
    split at h
    · cases h; exact ⟨_, _, _, _, rfl⟩
    · cases h
  | writeHdr i v | writeOut i v | zeroOut | placeHdr base words | placeOut base words =>
    simp only [serveHost] at h
    obtain ⟨-, b, -, rfl⟩ := hostWrite_eq_next.1 h
    exact ⟨_, _, _, _, rfl⟩

/-- Settles O60: a wait is `hostWait`, and the other moves leave the block as `serveHost_frame` says. -/
theorem theHostReadsThePhaseAndTouchesNoLane : Obligations.TheHostReadsThePhaseAndTouchesNoLane := by
  intro s rest
  refine ⟨fun hp => step_cons hp, fun hp => ?_, fun m t hp hlaunch hwait h => ?_⟩
  · have hstep : step s = hostWait s rest := step_cons hp
    refine ⟨fun hphase => ?_, fun hphase => ?_, fun hphase t h => ?_⟩
    · simp only [hstep, hostWait, hphase]
    · simp only [hstep, hostWait, hphase]
    · simp only [hstep, hostWait, hphase] at h
      obtain ⟨-, -, hhdr, -, hpending, hseen, hresult⟩ := agentsStep_frame h
      exact ⟨hpending, hseen, hresult, hhdr⟩
  · rw [step_cons hp] at h
    obtain ⟨hdr, out, seenPhase, result, rfl⟩ := serveHost_frame hlaunch hwait h
    exact ⟨rfl, rfl, rfl, rfl, rfl, rfl, rfl⟩

end Sys2Proof.Machine
end

section
/-! SUPPORT. The machine's functions are those of the rules: words, schedule, compression, layers and trial. -/

namespace Sys2Proof.Machine

/-! ## Words -/

theorem addW_eq (x y : Word) : addW x y = x + y := rfl

theorem rotrW_eq (x : Word) (n : Nat) : rotrW x n = x.rotateRight n := by
  have hrot : x.rotateRight n = x >>> (n % 32) ||| x <<< (32 - n % 32) := rfl
  rw [hrot, rotrW]
  split
  · rename_i h0
    simp [h0, BitVec.shiftLeft_eq_zero]
  · rfl

theorem bsig0W_eq (x : Word) : bsig0W x = Ref.bsig0 x := by
  simp only [bsig0W, xorW, rotrW_eq, Ref.bsig0]

theorem bsig1W_eq (x : Word) : bsig1W x = Ref.bsig1 x := by
  simp only [bsig1W, xorW, rotrW_eq, Ref.bsig1]

theorem ssig0W_eq (x : Word) : ssig0W x = Ref.ssig0 x := by
  simp only [ssig0W, xorW, rotrW_eq, Ref.ssig0]
  rfl

theorem ssig1W_eq (x : Word) : ssig1W x = Ref.ssig1 x := by
  simp only [ssig1W, xorW, rotrW_eq, Ref.ssig1]
  rfl

theorem notW_eq (x : Word) : notW x = ~~~x := BitVec.allOnes_xor

theorem chW_eq (e f g : Word) : chW e f g = Ref.ch e f g := by
  rw [chW, notW_eq]
  rfl

theorem majW_eq (a b c : Word) : majW a b c = Ref.maj a b c := rfl

/-! ## The schedule -/

/-- The first words of a schedule are written, with the words of a list (41_message_schedule.md R99). -/
def SchedRegs.begins (x : SchedRegs) (w : List Word) : Prop :=
  ∀ i : Fin 64, i.val < w.length → x[i] = .holds (w.getD i.val 0)

theorem SchedRegs.begins_of_startsWith {x : SchedRegs} {m : List Word} (h : SchedRegs.startsWith x m) :
    SchedRegs.begins x m := fun i hi => h.2 i (hi.trans_eq h.1)

theorem SchedRegs.are_of_begins {x : SchedRegs} {w : List Word} (hlen : w.length = 64) (h : SchedRegs.begins x w) :
    SchedRegs.are x w := 
  ⟨hlen, fun i => h i (i.isLt.trans_eq hlen.symm)⟩

/-- Writing the word after the first ones extends them. -/
theorem SchedRegs.begins_setAt {x : SchedRegs} {w : List Word} (h : SchedRegs.begins x w) (v : Word)
    (hlen : w.length < 64) : SchedRegs.begins (setAt x (at64 w.length) v) (w ++ [v]) := by
  intro i hi
  have hk : (at64 w.length).val = w.length := at64_val hlen
  rcases Nat.lt_or_ge i.val w.length with hlt | hge
  · rw [setAt_ne x v (fun e => by rw [e, hk] at hlt; exact lt_irrefl _ hlt), h i hlt, List.getD_append _ _ _ _ hlt]
  · have hi' : i.val = w.length := by
      simp only [List.length_append, List.length_singleton] at hi
      omega
    obtain rfl : i = at64 w.length := Fin.ext (hi'.trans hk.symm)
    rw [setAt_same, hk]
    simp

@[simp] theorem Ref.length_extend (n : Nat) (w : List Word) : (Ref.extend n w).length = w.length + n := by
  induction n with
  | zero => rfl
  | succ n ih => simp [Ref.extend, ih, Nat.add_assoc]

/-- One step of an expansion appends the word of the recurrence (R98). -/
theorem expandAt_begins {x : SchedRegs} {v : List Word} {n : Nat} (h : SchedRegs.begins x v)
    (hlen : v.length = 16 + n) (hn : n < 48) :
    ∃ x', expandAt x (16 + n) = .ok x' ∧ SchedRegs.begins x' (v ++ [v.getD n 0 + Ref.ssig0 (v.getD (n + 1) 0) +
      v.getD (n + 9) 0 + Ref.ssig1 (v.getD (n + 14) 0)]) := by
  have word : ∀ k i, i = k → k < 16 + n → x[at64 i] = .holds (v.getD k 0) := by
    rintro k i rfl hk
    have hval : (at64 i).val = i := at64_val (by omega)
    rw [h (at64 i) (by omega), hval]
  refine ⟨_, expandAt_eq_ok.2 ⟨v.getD n 0, v.getD (n + 1) 0, v.getD (n + 9) 0, v.getD (n + 14) 0,
    word _ _ (by omega) (by omega), word _ _ (by omega) (by omega), word _ _ (by omega) (by omega),
    word _ _ (by omega) (by omega), rfl⟩, ?_⟩
  rw [← hlen, ssig0W_eq, ssig1W_eq]
  exact SchedRegs.begins_setAt h _ (by omega)

/-- The first `n` steps of an expansion give the first `16 + n` words of `Ref.extend`. -/
theorem expandFirst_begins {x : SchedRegs} {m : List Word} (h : SchedRegs.begins x m) (hlen : m.length = 16) {n : Nat}
    (hn : n ≤ 48) : ∃ x', expandFirst n x = .ok x' ∧ SchedRegs.begins x' (Ref.extend n m) := by
  induction n with
  | zero => exact ⟨x, rfl, h⟩
  | succ n ih =>
    obtain ⟨x1, h1, hb1⟩ := ih (by omega)
    obtain ⟨x2, h2, hb2⟩ := expandAt_begins (n := n) hb1 (by simp [hlen]) (by omega)
    exact ⟨x2, by rw [expandFirst, h1, ok_bind, h2], hb2⟩

/-- An expansion of a raw block gives the 64 words of R99. -/
theorem expandAll_are {x : SchedRegs} {m : List Word} (h : SchedRegs.startsWith x m) :
    ∃ x', expandAll x = .ok x' ∧ SchedRegs.are x' (Ref.expand m) := by
  obtain ⟨x', hx, hb⟩ := expandFirst_begins (SchedRegs.begins_of_startsWith h) h.1 (n := 48) le_rfl
  exact ⟨x', hx, SchedRegs.are_of_begins (by simp [Ref.expand, h.1]) hb⟩

theorem getElem_rawSchedule (m : Vector Word 16) {k : Nat} (hk : k < 16) :
    (rawSchedule m)[k] = .holds m[k] := by
  unfold rawSchedule
  rw [Vector.getElem_append_left hk]
  interval_cases k <;> rfl

theorem rawSchedule_startsWith (m : Vector Word 16) : SchedRegs.startsWith (rawSchedule m) m.toList := by
  refine ⟨by simp, fun i hi => ?_⟩
  rw [Fin.getElem_fin, getElem_rawSchedule m hi]
  simp [List.getD_eq_getElem?_getD, hi]

/-- `WPAD` is the expansion of `PADRAW` (41_message_schedule.md R102, R103). -/
theorem wPadTable_eq_expand : wPadTable.toList = Ref.expand padRawTable.toList := by decide +kernel

/-- Settles O18: the expansion of the raw schedule answers with the words of `Ref.expand`. -/
theorem padgenGivesThePaddingSchedule : Obligations.PadgenGivesThePaddingSchedule := by
  refine ⟨by decide, by decide, wPadTable_eq_expand, fun s => ?_⟩
  obtain ⟨x, hx, hare⟩ := expandAll_are (rawSchedule_startsWith s.rom.padRaw)
  have hexec : execPadgen s = .next { s with padgen := x } := execPadgen_eq_next.2 ⟨x, hx, rfl⟩
  refine ⟨x, hare, by rw [exec, hexec], fun hrom k => ?_⟩
  have hpad : Ref.expand s.rom.padRaw.toList = s.rom.wPad.toList := by
    rw [hrom]
    exact wPadTable_eq_expand.symm
  rw [hare.2 k, hpad]
  simp [List.getD_eq_getElem?_getD]

/-! ## The compression -/

/-- The table's rows in order are the 64 round constants (10_state.md R31). -/
theorem roundConstant_romStandard : ∀ i : Fin 64, romStandard.roundConstant i = Ref.k.getD i.val 0 := by
  decide +kernel

/-- A round of written working registers is `Ref.round` (42_compression.md R108). -/
theorem roundWith_working {r : Lane} {x : Working} (k w : Word) (h : r.working x) :
    ∃ r', roundWith k w r = .ok r' ∧ r'.working (Ref.round k w x) := by
  obtain ⟨ha, hb, hc, hd, he, hf, hg, hh⟩ := h
  refine ⟨_, roundWith_eq_ok.2 ⟨x.a, x.b, x.c, x.d, x.e, x.f, x.g, x.h, ha, hb, hc, hd, he, hf, hg, hh, rfl⟩, ?_⟩
  simp [Lane.working, Ref.round, Ref.t1, Ref.t2, addW_eq, bsig0W_eq, bsig1W_eq, chW_eq, majW_eq]

/-- Writing no schedule leaves the words of the schedule being compressed. -/
theorem schedWord_of_changesOnly {gs : List RegGroup} {r r' : Lane} (h : Lane.ChangesOnly gs r r')
    (hwp : .wp ∉ gs) (hwc : .wc ∉ gs) (rom : Rom) (n : SchedName) (i : Fin 64) :
    schedWord rom r' n i = schedWord rom r n i := by
  have h1 : r'.wp = r.wp := h .wp hwp
  have h2 : r'.wc = r.wc := h .wc hwc
  cases n <;> simp [schedWord, h1, h2]

/-- Writing neither hash state leaves the hash state of a layer. -/
theorem hash_of_changesOnly {gs : List RegGroup} {r r' : Lane} (h : Lane.ChangesOnly gs r r')
    (hhp : .hp ∉ gs) (hhc : .hc ∉ gs) (y : Layer) : r'.hash y = r.hash y := by
  cases y with
  | pow => exact h .hp hhp
  | chain => exact h .hc hhc

/-- The words of the schedule being compressed are those of a list. -/
def SchedName.words (n : SchedName) (r : Lane) (w : List Word) : Prop :=
  ∀ i : Fin 64, schedWord romStandard r n i = .ok (w.getD i.val 0)

theorem SchedName.words_layerSched {y : Layer} {r : Lane} {w : List Word} (h : SchedRegs.are (r.schedule y) w) :
    (layerSched y).words r w := by
  intro i
  have hi : (r.schedule y)[i] = .holds (w.getD i.val 0) := h.2 i
  cases y <;> exact Reg.get_eq_ok.2 hi

theorem SchedName.words_wpad (r : Lane) : SchedName.wpad.words r (Ref.expand padRawTable.toList) := by
  intro i
  rw [← wPadTable_eq_expand]
  simp [schedWord, romStandard, List.getD_eq_getElem?_getD]

/-- The first `m` rounds of written working registers over a written schedule are `Ref.rounds` (R109). -/
theorem roundsFirst_working {n : SchedName} {r : Lane} {w : List Word} {x : Working} (hw : n.words r w)
    (hx : r.working x) {m : Nat} (hm : m ≤ 64) :
    ∃ r', roundsFirst romStandard n m r = .ok r' ∧ r'.working (Ref.rounds w m x) := by
  induction m with
  | zero => exact ⟨r, rfl, hx⟩
  | succ m ih =>
    obtain ⟨r1, h1, hx1⟩ := ih (by omega)
    have hval : (at64 m).val = m := at64_val (by omega)
    have hword : schedWord romStandard r1 n (at64 m) = .ok (w.getD m 0) := by
      rw [schedWord_of_changesOnly (roundsFirst_changesOnly h1) (by simp) (by simp), hw, hval]
    obtain ⟨r2, h2, hx2⟩ := roundWith_working (romStandard.roundConstant (at64 m)) (w.getD m 0) hx1
    refine ⟨r2, roundsFirst_succ_eq_ok.2 ⟨r1, h1, roundAt_eq_ok.2 ⟨_, hword, h2⟩⟩, ?_⟩
    rwa [roundConstant_romStandard, hval] at hx2

/-- The working registers at the start of a compression (R107). -/
def Working.ofHash (v : Vector Word 8) : Working := ⟨v[0], v[1], v[2], v[3], v[4], v[5], v[6], v[7]⟩

/-- A compression of a written hash state over a written schedule is `Ref.compress` (R109, R111, R112). -/
theorem compressOver_ref {y : Layer} {n : SchedName} {r : Lane} {v : Vector Word 8} {w : List Word}
    (hv : r.hash y = hashHolding v) (hw : n.words r w) :
    ∃ r', compressOver romStandard y n r = .ok r' ∧ r'.hash y = hashHolding (Ref.compress v w) ∧
      r'.working (Ref.rounds w 64 (Working.ofHash v)) := by
  obtain ⟨r1, h1, hx1⟩ : ∃ r1, loadWorking (r.hash y) r = .ok r1 ∧ r1.working (Working.ofHash v) :=
    ⟨_, loadWorking_eq_ok.2 ⟨v, hv, rfl⟩, by simp [Lane.working, Working.ofHash]⟩
  have load := loadWorking_changesOnly h1
  have hw1 : n.words r1 w := fun i => by
    rw [schedWord_of_changesOnly load (by simp) (by simp), hw]
  obtain ⟨r2, h2, hx2⟩ := roundsFirst_working hw1 hx1 (m := 64) le_rfl
  have hv2 : r2.hash y = hashHolding v := by
    rw [hash_of_changesOnly (roundsFirst_changesOnly h2) (by simp) (by simp),
      hash_of_changesOnly load (by simp) (by simp), hv]
  obtain ⟨ha, hb, hc, hd, he, hf, hg, hh⟩ := hx2
  refine ⟨_, compressOver_eq_ok.2 ⟨r1, r2, h1, h2, feedForward_eq_ok.2
    ⟨v, _, _, _, _, _, _, _, _, hv2, ha, hb, hc, hd, he, hf, hg, hh, rfl⟩⟩, ?_, ?_⟩
  · rw [Lane.hash_setHash]
    rfl
  · simp [Lane.working, ha, hb, hc, hd, he, hf, hg, hh]

/-! ## The layers -/

theorem getElem_setAt {n : Nat} (x : Vector (Reg Word) n) (k i : Fin n) (v : Word) :
    (setAt x k v)[i] = if i = k then .holds v else x[i] := by
  split
  · rename_i h
    rw [h, setAt_same]
  · exact setAt_ne x v ‹_›

/-- A load of header words the buffer has writes these words and leaves the others. -/
theorem loadHeader_ok {hdr : Buffer} {start : Nat} {ks : List Nat} (x : SchedRegs)
    (h : ∀ k ∈ ks, k < 64 ∧ start + k < hdr.words) :
    ∃ x', loadHeader hdr start ks x = .ok x' ∧
      ∀ i : Fin 64, x'[i] = if i.val ∈ ks then .holds (Memory.read hdr.cells (start + i.val)) else x[i] := by
  induction ks generalizing x with
  | nil => exact ⟨x, rfl, fun i => by simp⟩
  | cons k ks ih =>
    obtain ⟨hk, hlt⟩ := h k List.mem_cons_self
    have hread : hdr.read (start + k) = .ok (Memory.read hdr.cells (start + k)) := Buffer.read_eq_ok.2 ⟨hlt, rfl⟩
    obtain ⟨x', hx', hwords⟩ := ih (setAt x (at64 k) (Memory.read hdr.cells (start + k)))
      fun k' hk' => h k' (List.mem_cons_of_mem k hk')
    refine ⟨x', by rw [loadHeader, hread, ok_bind, hx'], fun i => ?_⟩
    have hik : i = at64 k ↔ i.val = k := by rw [Fin.ext_iff, at64_val hk]
    rw [hwords i, getElem_setAt]
    by_cases hi : i.val = k
    · simp [hik, hi]
    · simp [hik, hi]

/-- The raw block of the PoW layer as a list (43_pow_layer.md R116). -/
def State.powWords (s : State) (n : Word) : List Word :=
  (s.headerWords 8 13).take 3 ++ [n] ++ ((s.headerWords 8 13).drop 4).take 9 ++ powPadTable.toList

theorem powBlock_startsWith {s : State} (n : Word) (x : SchedRegs) (hrom : s.rom = romStandard)
    (hw : 21 ≤ s.hdr.words) :
    ∃ x', powBlock s.rom s.hdr n x = .ok x' ∧ SchedRegs.startsWith x' (s.powWords n) := by
  obtain ⟨x1, h1, hwords⟩ := loadHeader_ok (hdr := s.hdr) (start := 8)
    (ks := [0, 1, 2, 4, 5, 6, 7, 8, 9, 10, 11, 12]) x (by simp; omega)
  refine ⟨_, by rw [powBlock, h1, ok_bind], rfl, fun i hi => ?_⟩
  obtain ⟨k, hk⟩ := i
  dsimp only at hi
  simp only [getElem_setAt, hwords, hrom]
  interval_cases k <;> rfl

/-- The raw block of the chain layer (44_chain_layer.md R121). -/
theorem chainBlock_startsWith {s : State} (d : Vector Word 8) (x : SchedRegs) (hw : 8 ≤ s.hdr.words) :
    ∃ x', chainBlock s.hdr d x = .ok x' ∧ SchedRegs.startsWith x' (s.headerWords 0 8 ++ d.toList) := by
  obtain ⟨x1, h1, hwords⟩ := loadHeader_ok (hdr := s.hdr) (start := 0)
    (ks := [0, 1, 2, 3, 4, 5, 6, 7]) x (by simp; omega)
  refine ⟨_, by rw [chainBlock, h1, ok_bind], by simp [State.headerWords], fun i hi => ?_⟩
  obtain ⟨k, hk⟩ := i
  dsimp only at hi
  simp only [getElem_setAt, hwords]
  interval_cases k <;> simp [State.headerWords, List.getD_eq_getElem?_getD]

/-- A layer over a raw block: `INIT_IV`, `EXPAND` and `COMPRESS.W` give the compression of the initial value over the
expanded block, and leave the expanded block in the layer's schedule (R116, R121). -/
theorem layer_ref {x : SchedRegs} {m : List Word} (y : Layer) (r : Lane) (h : SchedRegs.startsWith x m) :
    ∃ r2 r', expandLayer y (initIvLayer romStandard y (r.setSchedule x y)) = .ok r2 ∧
      compressWLayer romStandard y r2 = .ok r' ∧ r'.hash y = hashHolding (Ref.compress ivTable (Ref.expand m)) ∧
      SchedRegs.are (r'.schedule y) (Ref.expand m) := by
  obtain ⟨x', hexpand, hare⟩ := expandAll_are h
  set r1 := initIvLayer romStandard y (r.setSchedule x y) with hr1
  have hsched : r1.schedule y = x := by rw [hr1, initIvLayer, Lane.schedule_setHash, Lane.schedule_setSchedule]
  have hare2 : SchedRegs.are ((r1.setSchedule x' y).schedule y) (Ref.expand m) := by
    rwa [Lane.schedule_setSchedule]
  have hiv : (r1.setSchedule x' y).hash y = hashHolding ivTable := by
    rw [Lane.hash_setSchedule, hr1, initIvLayer, Lane.hash_setHash]
    rfl
  obtain ⟨r', hcompress, hhash, -⟩ := compressOver_ref hiv (SchedName.words_layerSched hare2)
  have hkept : r'.schedule y = (r1.setSchedule x' y).schedule y := by
    cases y with
    | pow => exact compressOver_changesOnly hcompress .wp (by simp)
    | chain => exact compressOver_changesOnly hcompress .wc (by simp)
  exact ⟨_, r', expandLayer_eq_ok.2 ⟨x', hsched ▸ hexpand, rfl⟩, hcompress, hhash, hkept ▸ hare2⟩

/-- The PoW layer leaves `DG` in `HP` (43_pow_layer.md R116), with its schedule in `WP`. -/
theorem powHashLane_dg {s : State} {r : Lane} {n : Word} (hrom : s.rom = romStandard) (hw : 21 ≤ s.hdr.words)
    (hn : r.nonce = .holds n) :
    ∃ r', powHashLane s.rom s.hdr r = .ok r' ∧ r'.hp = hashHolding (s.dg n) ∧
      SchedRegs.are r'.wp (Ref.expand (s.powWords n)) := by
  obtain ⟨x, hblock, hstart⟩ := powBlock_startsWith n r.wp hrom hw
  obtain ⟨r2, r', hexpand, hcompress, hhash, hare⟩ := layer_ref .pow r hstart
  rw [← hrom] at hexpand hcompress
  exact ⟨r', powHashLane_eq_ok.2 ⟨n, x, r2, hn, hblock, hexpand, hcompress⟩, hhash, hare⟩

/-- The chain layer leaves `CHAIN(HDR[0..8), d)` in `HC` (44_chain_layer.md R121), with its first schedule in `WC`. -/
theorem chainHashLane_chain {s : State} {r : Lane} {d : Vector Word 8} (hrom : s.rom = romStandard)
    (hw : 8 ≤ s.hdr.words) (hd : r.hp = hashHolding d) :
    ∃ r', chainHashLane s.rom s.hdr r = .ok r' ∧ r'.hc = hashHolding (Ref.chain (s.headerWords 0 8) d) ∧
      SchedRegs.are r'.wc (Ref.expand (s.headerWords 0 8 ++ d.toList)) := by
  obtain ⟨x, hblock, hstart⟩ := chainBlock_startsWith d r.wc hw
  obtain ⟨r2, r3, hexpand, hfirst, hhash3, hare⟩ := layer_ref .chain r hstart
  obtain ⟨r', hsecond, hhash, -⟩ := compressOver_ref hhash3 (SchedName.words_wpad r3)
  have hwc : r'.wc = r3.wc := compressOver_changesOnly hsecond .wc (by simp)
  rw [← hrom] at hexpand hfirst hsecond
  exact ⟨r', chainHashLane_eq_ok.2 ⟨d, x, r2, r3, hd, hblock, hexpand, hfirst, hsecond⟩, hhash, hwc ▸ hare⟩

/-! ## The trial -/

/-- The nonce of the machine is the nonce of the rule (45_search_loop.md R126, R129). -/
theorem nonceOf_eq_nonceAt (s : State) (l j : Nat) : nonceOf s.cfg s.offset l j = s.nonceAt l j := by
  simp only [nonceOf, State.nonceAt, BitVec.ofNat_add, BitVec.ofNat_mul, BitVec.ofNat_toNat, BitVec.setWidth_eq]

/-- A recording answers with `State.recorded` where the lane holds the verdict and the nonce of a trial (R128). -/
theorem recordLane_recorded {s : State} {r : Lane} {n : Word} {out : Buffer} (hw : 129 ≤ out.words)
    (hn : r.nonce = .holds n) (hit : r.hit = .holds (s.hits n)) :
    recordLane s.cfg r out = .ok { out with cells := s.recorded n out.cells } := by
  rw [recordLane_eq_ok, hit]
  cases hh : s.hits n with
  | false => exact .inl ⟨rfl, by simp [State.recorded, hh]⟩
  | true =>
    have hflag : foundSlot < out.words := hw
    exact .inr ⟨rfl, n, hn, hflag, (slotOf_lt n).trans hflag, by simp [State.recorded, hh, foundSlot, slotOf_eq_mod]⟩

/-- A trial of a lane that holds J leaves the nonce, the digests, the verdict and the record of R130. -/
theorem trialLane_ref {s : State} {r : Lane} {j : Nat} {out : Buffer} (hrom : s.rom = romStandard)
    (hw : 21 ≤ s.hdr.words) (ho : 129 ≤ out.words) (hj : r.j = .holds j) :
    ∃ r', trialLane s r out = .ok (r', { out with cells := s.recorded (s.nonceAt r.lid j) out.cells }) ∧
      r'.nonce = .holds (s.nonceAt r.lid j) ∧ r'.hp = hashHolding (s.dg (s.nonceAt r.lid j)) ∧
      r'.hc = hashHolding (s.fd (s.nonceAt r.lid j)) ∧ r'.hit = .holds (s.hits (s.nonceAt r.lid j)) := by
  set n := s.nonceAt r.lid j with hn
  have h1 : nonceGenLane s.cfg s.offset r = .ok { r with nonce := .holds n } :=
    nonceGenLane_eq_ok.2 ⟨j, hj, by rw [nonceOf_eq_nonceAt]⟩
  obtain ⟨r2, h2, hhp, -⟩ := powHashLane_dg (r := { r with nonce := .holds n }) hrom hw rfl
  obtain ⟨r3, h3, hhc, -⟩ := chainHashLane_chain hrom (by omega : 8 ≤ s.hdr.words) hhp
  have hnonce : r3.nonce = .holds n :=
    (chainHashLane_changesOnly h3 .nonce (by simp)).trans (powHashLane_changesOnly h2 .nonce (by simp))
  have hhp3 : r3.hp = hashHolding (s.dg n) := (chainHashLane_changesOnly h3 .hp (by simp)).trans hhp
  have h4 : testLane s.cfg r3 = .ok { r3 with hit := .holds (s.hits n) } := testLane_eq_ok.2 ⟨s.fd n, hhc, rfl⟩
  exact ⟨{ r3 with hit := .holds (s.hits n) },
    trialLane_eq_ok.2 ⟨_, r2, r3, h1, h2, h3, h4, recordLane_recorded ho hnonce rfl⟩, hnonce, hhp3, hhc, rfl⟩

/-- Where the lanes have their indices, the lane at `l` has index `l` (10_state.md R19, R24). -/
theorem State.lid_of_inv {s : State} {l : Nat} {r : Lane} (h : s.lanes.map Lane.lid = List.range s.cfg.lanes)
    (hr : s.lanes[l]? = some r) : r.lid = l := by
  have hl : (List.range s.cfg.lanes)[l]? = some r.lid := by rw [← h, List.getElem?_map, hr]; rfl
  obtain ⟨hlt, hval⟩ := List.getElem?_eq_some_iff.1 hl
  rw [← hval, List.getElem_range]

/-- Settles O45: the lane's sequencer performs the trial of `trialLane_ref` on the lane with J and LSEQ set. -/
theorem laneStepPerformsItsNextTrial : Obligations.LaneStepPerformsItsNextTrial := by
  intro s l r j hinv hconf hr hj
  obtain ⟨hrom, -, -, hids, -⟩ := hinv
  obtain ⟨hhdr, hout, -, -⟩ := hconf
  obtain rfl : r.lid = l := State.lid_of_inv hids hr
  obtain ⟨r', htrial, hnonce, -, hhc, hhit⟩ := trialLane_ref (s := s) (r := { r with j := .holds j, lseq := .run j })
    (out := s.out) hrom hhdr.ge hout.ge rfl
  have hkept := trialLane_changesOnly htrial
  have hid : r'.lid = r.lid := hkept .lid (by simp)
  have hjj : r'.j = .holds j := hkept .j (by simp)
  exact ⟨{ r' with lseq := if j + 1 < s.cfg.iters then .run (j + 1) else .done },
    laneStep_eq_next.2 ⟨r, _, _, hr, (laneSequence_run hj).2 ⟨r', htrial, rfl⟩, rfl⟩,
    hid, hjj, hnonce, hhc, hhit, rfl⟩

/-- The lanes' step of a running batch from the invariant answers a next state. -/
theorem batchStep_answers {s : State} (hinv : s.inv) (hrun : s.phase = .running) (c : Nat) :
    ∃ t, batchStep c s = .next t := by
  have ⟨_, _, _, _, _, hbatch⟩ := hinv
  obtain ⟨hconf, -⟩ := hbatch hrun
  unfold batchStep
  split
  · exact ⟨_, rfl⟩
  · split
    · rename_i l hl
      obtain ⟨r, j, -, hr, hj⟩ := mem_unfinished (mem_of_pick hl)
      obtain ⟨r', hstep, -⟩ := laneStepPerformsItsNextTrial s l r j hinv hconf hr hj
      exact ⟨_, hstep⟩
    · exact ⟨_, rfl⟩

/-- With the host quiet, the step of a running machine is the lanes'. -/
theorem step_of_hostQuiet {s : State} (hrun : s.phase = .running) (hq : s.hostQuiet) : step s = agentsStep s := by
  rcases hq with hp | ⟨rest, hp⟩
  · rw [step_nil hp, if_pos hrun]
  · rw [step_cons hp]
    simp only [serve, serveHost, hostWait, hrun]

/-- Settles O15: the step is the lanes', and the lane chosen is in `Run(j)`, where its trial answers. -/
theorem batchStepsNeverStop : Obligations.BatchStepsNeverStop := by
  intro s hinv hrun hq
  rw [step_of_hostQuiet hrun hq]
  exact batchStep_answers (s := { s with tick := s.tick + 1 }) hinv hrun _

end Sys2Proof.Machine
end

section
/-! SUPPORT. A read of a register with no value is the one fault of most operations of a lane (10_state.md R27). -/

namespace Sys2Proof.Machine

/-- The only fault of a computation is the read of an unwritten register. -/
def OnlyUnwritten {α : Type} (x : Except Fault α) : Prop := ∀ f, x = .error f → f = .unwrittenRegister

section
variable {α β : Type}

theorem OnlyUnwritten.ok (a : α) : OnlyUnwritten (.ok a : Except Fault α) := nofun

theorem OnlyUnwritten.get (x : Reg α) : OnlyUnwritten x.get := fun _ h => (Reg.get_eq_error.1 h).2

theorem OnlyUnwritten.bind {x : Except Fault α} {f : α → Except Fault β} (hx : OnlyUnwritten x)
    (hf : ∀ a, OnlyUnwritten (f a)) : OnlyUnwritten (x >>= f) := by
  cases x with
  | error e => intro g h; cases h; exact hx e rfl
  | ok a => exact hf a

/-- Where the only fault is that one, what does not answer ends in it. -/
theorem OnlyUnwritten.eq_error {x : Except Fault α} (h : OnlyUnwritten x) (hne : ∀ a, x ≠ .ok a) :
    x = .error .unwrittenRegister := by
  cases x with
  | error e => rw [h e rfl]
  | ok a => exact absurd rfl (hne a)

end

/-! ## Which computations have no other fault -/

theorem OnlyUnwritten.value (r : Lane) (x : Src) : OnlyUnwritten (x.value r) := by
  cases x with
  | reg n => exact .get _
  | lit w => exact .ok w

theorem OnlyUnwritten.schedWord (rom : Rom) (r : Lane) (n : SchedName) (i : Fin 64) :
    OnlyUnwritten (schedWord rom r n i) := by
  cases n with
  | wp | wc => exact .get _
  | wpad => exact .ok _

theorem OnlyUnwritten.hashValue (x : HashRegs) : OnlyUnwritten (hashValue x) := by
  iterate 8 refine .bind (.get _) fun _ => ?_
  exact .ok _

theorem OnlyUnwritten.expandAt (w : SchedRegs) (i : Nat) : OnlyUnwritten (expandAt w i) := by
  iterate 4 refine .bind (.get _) fun _ => ?_
  exact .ok _

theorem OnlyUnwritten.expandFirst (w : SchedRegs) (n : Nat) : OnlyUnwritten (expandFirst n w) := by
  induction n with
  | zero => exact .ok w
  | succ n ih => exact .bind ih fun w' => .expandAt w' (16 + n)

theorem OnlyUnwritten.roundAt (rom : Rom) (n : SchedName) (i : Fin 64) (r : Lane) :
    OnlyUnwritten (roundAt rom n i r) := by
  refine .bind (.schedWord rom r n i) fun w => ?_
  iterate 8 refine .bind (.get _) fun _ => ?_
  exact .ok _

theorem OnlyUnwritten.roundsFirst (rom : Rom) (n : SchedName) (m : Nat) (r : Lane) :
    OnlyUnwritten (roundsFirst rom n m r) := by
  induction m with
  | zero => exact .ok r
  | succ m ih => exact .bind ih fun r' => .roundAt rom n (at64 m) r'

theorem OnlyUnwritten.feedForward (y : Layer) (r : Lane) : OnlyUnwritten (feedForward y r) := by
  refine .bind (.hashValue (r.hash y)) fun _ => ?_
  iterate 8 refine .bind (.get _) fun _ => ?_
  exact .ok _

theorem OnlyUnwritten.compressOver (rom : Rom) (y : Layer) (n : SchedName) (r : Lane) :
    OnlyUnwritten (compressOver rom y n r) :=
  .bind (.bind (.hashValue (r.hash y)) fun _ => .ok _) fun r1 =>
    .bind (.roundsFirst rom n 64 r1) fun r2 => .feedForward y r2

/-! ## What an operation that answers has read -/

theorem getElem_hashHolding (v : Vector Word 8) (k : Fin 8) : (hashHolding v)[k] = .holds v[k] := by
  obtain ⟨k, hk⟩ := k
  interval_cases k <;> rfl

/-- A hash state that holds eight words has no unwritten word. -/
theorem hashHolding_ne {x : HashRegs} {k : Fin 8} (h : x[k] = .unwritten) (v : Vector Word 8) : x ≠ hashHolding v := by
  rintro rfl
  rw [getElem_hashHolding] at h
  cases h

theorem hashValue_unwritten {x : HashRegs} {k : Fin 8} (h : x[k] = .unwritten) :
    hashValue x = .error .unwrittenRegister :=
  (OnlyUnwritten.hashValue x).eq_error fun v hv => hashHolding_ne h v (hashValue_eq_ok.1 hv)

/-- An expansion leaves the raw block as it was. -/
theorem expandFirst_block {w w' : SchedRegs} {n : Nat} (h : expandFirst n w = .ok w') (hn : n ≤ 48) {i : Fin 64}
    (hi : i.val < 16) : w'[i] = w[i] := by
  induction n generalizing w' with
  | zero => cases h; rfl
  | succ n ih =>
    obtain ⟨w1, h1, h2⟩ := bind_eq_ok.1 h
    obtain ⟨_, _, _, _, -, -, -, -, rfl⟩ := expandAt_eq_ok.1 h2
    have hval : (at64 (16 + n)).val = 16 + n := at64_val (by omega)
    rw [setAt_ne _ _ (fun e => by rw [e, hval] at hi; omega), ih h1 (by omega)]

/-- The first `n` steps of an expansion have read the first `n` words of the raw block. -/
theorem expandFirst_reads {w w' : SchedRegs} {n i : Nat} (h : expandFirst n w = .ok w') (hn : n ≤ 48) (hin : i < n)
    (hi : i < 16) : ∃ v, w[at64 i] = .holds v := by
  induction n generalizing w' with
  | zero => omega
  | succ n ih =>
    obtain ⟨w1, h1, h2⟩ := bind_eq_ok.1 h
    rcases Nat.lt_succ_iff_lt_or_eq.1 hin with hlt | rfl
    · exact ih h1 (by omega) hlt
    · obtain ⟨v, _, _, _, hv, -⟩ := expandAt_eq_ok.1 h2
      have hval : (at64 i).val = i := at64_val (by omega)
      rw [← expandFirst_block h1 (by omega) (hval.trans_lt hi)]
      exact ⟨v, by simpa using hv⟩

/-- The first `m` rounds have read the first `m` words of the schedule. -/
theorem roundsFirst_reads {rom : Rom} {n : SchedName} {m i : Nat} {r r' : Lane}
    (h : roundsFirst rom n m r = .ok r') (hi : i < m) : ∃ w, schedWord rom r n (at64 i) = .ok w := by
  induction m generalizing r' with
  | zero => omega
  | succ m ih =>
    obtain ⟨r1, h1, h2⟩ := roundsFirst_succ_eq_ok.1 h
    rcases Nat.lt_succ_iff_lt_or_eq.1 hi with hlt | rfl
    · exact ih h1 hlt
    · obtain ⟨w, hw, -⟩ := roundAt_eq_ok.1 h2
      exact ⟨w, by rw [← hw, schedWord_of_changesOnly (roundsFirst_changesOnly h1) (by simp) (by simp)]⟩

/-- A compression that answers has read every word of its hash state. -/
theorem compressOver_ne_ok_of_hash {rom : Rom} {y : Layer} {n : SchedName} {r : Lane} {k : Fin 8}
    (h : (r.hash y)[k] = .unwritten) (r' : Lane) : compressOver rom y n r ≠ .ok r' := by
  intro hok
  obtain ⟨r1, r2, hload, -⟩ := compressOver_eq_ok.1 hok
  obtain ⟨v, hv, -⟩ := loadWorking_eq_ok.1 hload
  exact hashHolding_ne h v hv

/-- A compression of a layer that answers has read every word of its schedule. -/
theorem compressWLayer_ne_ok_of_schedule {rom : Rom} {y : Layer} {r : Lane} {k : Fin 64}
    (h : (r.schedule y)[k] = .unwritten) (r' : Lane) : compressWLayer rom y r ≠ .ok r' := by
  intro hok
  obtain ⟨r1, r2, hload, hrounds, -⟩ := compressOver_eq_ok.1 hok
  obtain ⟨w, hw⟩ := roundsFirst_reads hrounds k.isLt
  have hk : at64 k.val = k := Fin.ext (at64_val k.isLt)
  rw [hk, schedWord_of_changesOnly (loadWorking_changesOnly hload) (by simp) (by simp)] at hw
  have hread : ((r.schedule y)[k]).get = .ok w := by cases y <;> exact hw
  rw [h] at hread
  cases hread

/-! ## The fault of an operation -/

/-- An operation of a lane ends in the fault the lane's operation ends in. -/
theorem onLane_fault {s : State} {r : Lane} {op : Lane → Except Fault Lane} {f : Fault}
    (hr : s.lanes[s.bind.lane]? = some r) (h : op r = .error f) : onLane s op = .fault f := by
  simp [onLane, hr, h]

theorem onLaneOut_fault {s : State} {r : Lane} {op : Lane → Buffer → Except Fault (Lane × Buffer)} {f : Fault}
    (hr : s.lanes[s.bind.lane]? = some r) (h : op r s.out = .error f) : onLaneOut s op = .fault f := by
  simp [onLaneOut, hr, h]

/-- An operation of a lane with no other fault that does not answer ends in this one. -/
theorem onLane_unwritten {s : State} {r : Lane} {op : Lane → Except Fault Lane}
    (hr : s.lanes[s.bind.lane]? = some r) (h : OnlyUnwritten (op r)) (hne : ∀ r', op r ≠ .ok r') :
    onLane s op = .fault .unwrittenRegister := onLane_fault hr (h.eq_error hne)

/-- A source word read from an unwritten register is no value. -/
theorem Src.value_ne_ok {r : Lane} {n : WordReg} (h : n.cell r = .unwritten) {v : Word} :
    Src.value r (.reg n) ≠ .ok v := by
  simp [h]

/-- Only word operations have source words. -/
theorem isWordOp_of_mem_sourcesOf {b : Binding} {i : Instr} {x : Src} (h : x ∈ sourcesOf b i) :
    isWordOp i = true := by
  cases i with
  | add | and | or | xor | not | rotr n | shr n | bsig0 | bsig1 | ch | maj | ssig0 | ssig1 => rfl
  | _ => exact absurd h List.not_mem_nil

/-- A word operation with an unwritten source faults (R27, 30_encoding.md R75). -/
theorem exec_unwritten_source {s : State} {r : Lane} {i : Instr} {n : WordReg} (hr : s.lanes[s.bind.lane]? = some r)
    (hsrc : .reg n ∈ sourcesOf s.bind i) (hn : n.cell r = .unwritten) : exec i s = .fault .unwrittenRegister := by
  rcases exec_wordOp_shape (isWordOp_of_mem_sourcesOf hsrc) s with ⟨f, he, hs⟩ | ⟨f, he, hs⟩ | ⟨f, he, hs⟩ <;>
    simp only [hs, List.mem_cons, List.not_mem_nil, or_false] at hsrc <;> rw [he]
  · refine onLane_unwritten hr (.bind (.value r _) fun _ => .ok _) fun r' hok => ?_
    obtain ⟨x, hx, -⟩ := bind_eq_ok.1 hok
    exact Src.value_ne_ok hn (hsrc ▸ hx)
  · refine onLane_unwritten hr (.bind (.value r _) fun _ => .bind (.value r _) fun _ => .ok _) fun r' hok => ?_
    obtain ⟨x, hx, hok⟩ := bind_eq_ok.1 hok
    obtain ⟨y, hy, -⟩ := bind_eq_ok.1 hok
    rcases hsrc with hsrc | hsrc
    · exact Src.value_ne_ok hn (hsrc ▸ hx)
    · exact Src.value_ne_ok hn (hsrc ▸ hy)
  · refine onLane_unwritten hr
      (.bind (.value r _) fun _ => .bind (.value r _) fun _ => .bind (.value r _) fun _ => .ok _) fun r' hok => ?_
    obtain ⟨x, hx, hok⟩ := bind_eq_ok.1 hok
    obtain ⟨y, hy, hok⟩ := bind_eq_ok.1 hok
    obtain ⟨z, hz, -⟩ := bind_eq_ok.1 hok
    rcases hsrc with hsrc | hsrc | hsrc
    · exact Src.value_ne_ok hn (hsrc ▸ hx)
    · exact Src.value_ne_ok hn (hsrc ▸ hy)
    · exact Src.value_ne_ok hn (hsrc ▸ hz)

/-- `EXPAND_STEP` over an unwritten word faults (41_message_schedule.md R98). -/
theorem execExpandStep_unwritten {s : State} {r : Lane} {k : BitVec 6} {d : Nat}
    (hr : s.lanes[s.bind.lane]? = some r) (hk : 16 ≤ k.toNat) (hd : d ∈ [2, 7, 15, 16])
    (h : (r.schedule s.bind.layer)[at64 (k.toNat - d)] = .unwritten) :
    execExpandStep k s = .fault .unwrittenRegister := by
  rw [execExpandStep, if_pos hk]
  refine onLane_unwritten hr (.bind (.expandAt _ _) fun _ => .ok _) fun r' hok => ?_
  obtain ⟨w, hw, -⟩ := bind_eq_ok.1 hok
  obtain ⟨w16, w15, w7, w2, h16, h15, h7, h2, -⟩ := expandAt_eq_ok.1 hw
  simp only [List.mem_cons, List.not_mem_nil, or_false] at hd
  rcases hd with rfl | rfl | rfl | rfl
  · cases h.symm.trans h2
  · cases h.symm.trans h7
  · cases h.symm.trans h15
  · cases h.symm.trans h16

/-- `EXPAND` over an unwritten word of the raw block faults (R99). -/
theorem execExpand_unwritten {s : State} {r : Lane} {k : Fin 16} (hr : s.lanes[s.bind.lane]? = some r)
    (h : (r.schedule s.bind.layer)[at64 k.val] = .unwritten) : execExpand s = .fault .unwrittenRegister := by
  refine onLane_unwritten hr (.bind (.expandFirst _ 48) fun _ => .ok _) fun r' hok => ?_
  obtain ⟨w, hw, -⟩ := expandLayer_eq_ok.1 hok
  obtain ⟨v, hv⟩ := expandFirst_reads hw le_rfl (by omega : k.val < 48) k.isLt
  cases h.symm.trans hv

/-- `ROUND` over an unwritten working register or schedule word faults (42_compression.md R108). -/
theorem execRound_unwritten {s : State} {r : Lane} {k : BitVec 6} (hr : s.lanes[s.bind.lane]? = some r)
    (h : r.a = .unwritten ∨ r.b = .unwritten ∨ r.c = .unwritten ∨ r.d = .unwritten ∨
        r.e = .unwritten ∨ r.f = .unwritten ∨ r.g = .unwritten ∨ r.h = .unwritten ∨
        (s.bind.sched = .wp ∧ r.wp[at64 k.toNat] = .unwritten) ∨
        (s.bind.sched = .wc ∧ r.wc[at64 k.toNat] = .unwritten)) : execRound k s = .fault .unwrittenRegister := by
  refine onLane_unwritten hr (.roundAt _ _ _ _) fun r' hok => ?_
  obtain ⟨w, hw, hround⟩ := roundAt_eq_ok.1 hok
  obtain ⟨a, b, c, d, e, f, g, hh, ha, hb, hc, hd, he, hf, hg, hh', -⟩ := roundWith_eq_ok.1 hround
  simp only [ha, hb, hc, hd, he, hf, hg, hh', reduceCtorEq, false_or] at h
  rcases h with ⟨hs, hn⟩ | ⟨hs, hn⟩ <;> simp [schedWord, hs, hn] at hw

/-- `RECORD` ends in the fault its recording ends in. -/
theorem execRecord_fault {s : State} {r : Lane} {f : Fault} (hr : s.lanes[s.bind.lane]? = some r)
    (h : recordLane s.cfg r s.out = .error f) : execRecord s = .fault f :=
  onLaneOut_fault hr (by rw [h, error_bind])

/-- Settles O14, clause by clause. -/
theorem readingAnUnwrittenRegisterFaults : Obligations.ReadingAnUnwrittenRegisterFaults := by
  intro s r hr
  refine ⟨fun i n => exec_unwritten_source hr, fun k d => execExpandStep_unwritten hr,
    fun k => execExpand_unwritten hr, fun k => execRound_unwritten hr, fun k h => ?_, fun k h => ?_,
    fun k h => ⟨?_, ?_⟩, fun h => ?_, fun k h => ?_, fun h => ⟨?_, ?_⟩, fun h => ?_, fun h hn => ?_⟩
  · exact onLane_unwritten hr (.compressOver _ _ _ _) (compressOver_ne_ok_of_hash h)
  · exact onLane_unwritten hr (.compressOver _ _ _ _) (compressWLayer_ne_ok_of_schedule h)
  · exact onLane_unwritten hr (.compressOver _ _ _ _) (compressOver_ne_ok_of_hash (y := .chain) h)
  · exact onLane_fault hr (by rw [testLane, hashValue_unwritten h, error_bind])
  · exact onLane_fault hr (by rw [powHashLane, h, Reg.get_unwritten, error_bind])
  · exact onLane_fault hr (by rw [chainHashLane, hashValue_unwritten h, error_bind])
  · exact onLane_fault hr (by rw [nonceGenLane, h, Reg.get_unwritten, error_bind])
  · exact onLaneOut_fault hr (by rw [trialLane, nonceGenLane, h, Reg.get_unwritten, error_bind, error_bind])
  · exact execRecord_fault hr (by rw [recordLane, h, Reg.get_unwritten, error_bind])
  · exact execRecord_fault hr (by simp [recordLane, h, hn])

end Sys2Proof.Machine
end

section
/-! SUPPORT. What the host's moves reach (20_memory.md R53, R63), and what an operation writes to `OUT`, said as the list
of the nonces it records: that list does not depend on the buffer's contents. -/

namespace Sys2Proof.Machine

/-! ## The host's moves -/

/-- In `Running` the host writes no buffer (20_memory.md R63). -/
theorem hostWrite_running {s : State} (hrun : s.phase = .running) (b : Except Fault Buffer) (put : Buffer → State) :
    hostWrite s b put = .refused .hostAccess := by
  simp [hostWrite, hrun]

/-- Settles O58, move by move: every buffer move is `hostWrite` or `hostCollect`, and those look at `PHASE` first. -/
theorem hostReachesBuffersOnlyOutsideABatch : Obligations.HostReachesBuffersOnlyOutsideABatch := by
  intro s m rest hp
  have hstep : step s = serveHost m rest s := step_cons hp
  refine ⟨fun hrun hm => ?_, ?_, ?_, ?_, ?_, ?_⟩
  · rw [hstep]
    rcases hm with rfl | rfl | ⟨i, v, rfl | rfl⟩ | ⟨base, words, rfl | rfl⟩
    case inr.inl => simp [serveHost, hostCollect, hrun]
    all_goals simp only [serveHost, hostWrite_running hrun]
  · rintro hphase rfl
    simp [hstep, serveHost, hostCollect, hphase]
  · rintro hphase rfl
    simp [hstep, serveHost, hostCollect, hphase]
  · rintro i v hphase rfl hi
    exact hstep.trans (hostWrite_eq_next.2 ⟨hphase, _, Buffer.write_eq_ok.2 ⟨hi, rfl⟩, rfl⟩)
  · rintro i v hphase rfl hi
    exact hstep.trans (hostWrite_eq_next.2 ⟨hphase, _, Buffer.write_eq_ok.2 ⟨hi, rfl⟩, rfl⟩)
  · rintro hphase rfl
    have hzero : serveHost .zeroOut rest s = .next { s with pending := rest, out := { s.out with cells := [] } } := by
      simp only [serveHost, hostWrite_eq_next]
      exact ⟨hphase, _, rfl, rfl⟩
    exact ⟨_, hstep.trans hzero, rfl, rfl, fun _ => rfl⟩

/-! ## The nonces an operation records -/

/-- On every buffer of `words` words, whatever it holds, `op` answers the lane `r'` and records the hits `ns`. -/
def RecordsHits (found : Word) (words : Nat) (op : Buffer → Except Fault (Lane × Buffer)) (r' : Lane)
    (ns : List Word) : Prop :=
  ∀ b : Buffer, b.words = words → op b = .ok (r', b.recordHits found ns)

/-- `RECORD` records its lane's nonce or nothing (45_search_loop.md R128). -/
theorem recordLane_recordsHits {cfg : Params} {r : Lane} {out out' : Buffer} (h : recordLane cfg r out = .ok out') :
    ∃ ns, (∀ n ∈ ns, r.nonce = .holds n) ∧
      ∀ b : Buffer, b.words = out.words → recordLane cfg r b = .ok (b.recordHits cfg.foundValue.word ns) := by
  rcases recordLane_eq_ok.1 h with ⟨hmiss, -⟩ | ⟨hhit, n, hn, hflag, hslot, -⟩
  · exact ⟨[], nofun, fun b _ => recordLane_eq_ok.2 (.inl ⟨hmiss, rfl⟩)⟩
  · exact ⟨[n], by simpa using hn,
      fun b hb => recordLane_eq_ok.2 (.inr ⟨hhit, n, hn, hb ▸ hflag, hb ▸ hslot, rfl⟩)⟩

/-- `TRIAL` records the nonce of its trial or nothing. -/
theorem trialLane_recordsHits {s : State} {r r' : Lane} {out out' : Buffer}
    (h : trialLane s r out = .ok (r', out')) :
    ∃ ns, (∀ n ∈ ns, ∃ j, r.j = .holds j ∧ n = nonceOf s.cfg s.offset r.lid j) ∧
      RecordsHits s.cfg.foundValue.word out.words (trialLane s r) r' ns := by
  obtain ⟨r1, r2, r3, h1, h2, h3, h4, h5⟩ := trialLane_eq_ok.1 h
  obtain ⟨ns, hns, hrec⟩ := recordLane_recordsHits h5
  refine ⟨ns, fun n hn => ?_, fun b hb => trialLane_eq_ok.2 ⟨r1, r2, r3, h1, h2, h3, h4, hrec b hb⟩⟩
  have hkept : r'.nonce = r1.nonce :=
    (testLane_changesOnly h4 .nonce (by simp)).trans
      ((chainHashLane_changesOnly h3 .nonce (by simp)).trans (powHashLane_changesOnly h2 .nonce (by simp)))
  obtain ⟨j, hj, rfl⟩ := nonceGenLane_eq_ok.1 h1
  exact ⟨j, hj, Reg.holds.inj ((hns n hn).symm.trans hkept)⟩

/-- The first `k` trials of a lane record nonces of these trials (45_search_loop.md R131). -/
theorem trialsFirst_recordsHits {s : State} {k : Nat} {r : Lane} {out : Buffer} {p : Lane × Buffer}
    (h : trialsFirst s k r out = .ok p) :
    ∃ ns, (∀ n ∈ ns, ∃ j, j < k ∧ n = nonceOf s.cfg s.offset r.lid j) ∧
      RecordsHits s.cfg.foundValue.word out.words (trialsFirst s k r) p.1 ns := by
  induction k generalizing p with
  | zero => cases h; exact ⟨[], nofun, fun b _ => rfl⟩
  | succ k ih =>
    obtain ⟨q, h1, h2⟩ := trialsFirst_succ_eq_ok.1 h
    obtain ⟨ns, hns, hfirst⟩ := ih h1
    obtain ⟨ms, hms, hlast⟩ := trialLane_recordsHits h2
    refine ⟨ns ++ ms, fun n hn => ?_, fun b hb => trialsFirst_succ_eq_ok.2 ⟨_, hfirst b hb, ?_⟩⟩
    · rcases List.mem_append.1 hn with hn | hn
      · obtain ⟨j, hj, hnonce⟩ := hns n hn
        exact ⟨j, by omega, hnonce⟩
      · obtain ⟨j, hj, hnonce⟩ := hms n hn
        cases hj
        exact ⟨k, by omega, hnonce.trans (congrArg (nonceOf s.cfg s.offset · k) (trialsFirst_lid h1))⟩
    · have hq : q.2.words = out.words := (trialsFirst_recordings h1).words_eq
      have happ : b.recordHits s.cfg.foundValue.word (ns ++ ms) =
          (b.recordHits s.cfg.foundValue.word ns).recordHits s.cfg.foundValue.word ms := List.foldl_append
      rw [happ]
      exact hlast _ (by rw [Buffer.recordHits_words, hb, hq])

/-- `LANE_RUN` records nonces of its trials. -/
theorem laneRunLane_recordsHits {s : State} {r r' : Lane} {out out' : Buffer}
    (h : laneRunLane s r out = .ok (r', out')) :
    ∃ ns, (∀ n ∈ ns, ∃ j, j < s.cfg.iters ∧ n = nonceOf s.cfg s.offset r.lid j) ∧
      RecordsHits s.cfg.foundValue.word out.words (laneRunLane s r) r' ns := by
  obtain ⟨r1, h1, rfl⟩ := laneRunLane_eq_ok.1 h
  obtain ⟨ns, hns, hrec⟩ := trialsFirst_recordsHits h1
  exact ⟨ns, hns, fun b hb => laneRunLane_eq_ok.2 ⟨r1, hrec b hb, rfl⟩⟩

/-- A lane's operation that records the hits `ns` leaves `OUT` with these recordings. -/
theorem RecordsHits.out_eq {found : Word} {out out' : Buffer} {op : Buffer → Except Fault (Lane × Buffer)}
    {r' : Lane} {ns : List Word} (hrec : RecordsHits found out.words op r' ns) (h : op out = .ok (r', out')) :
    out' = out.recordHits found ns := by
  cases (hrec out rfl).symm.trans h
  rfl

/-! ## A word no recorded nonce belongs to -/

/-- Recordings leave every word but the flag and the slots of the nonces recorded (R128). -/
theorem Buffer.read_recordHits {found : Word} {out : Buffer} {ns : List Word} {a : Nat} (hwf : out.cells.wf = true)
    (hflag : a ≠ foundSlot) (hslots : ∀ n ∈ ns, a ≠ slotOf n) :
    Memory.read (out.recordHits found ns).cells a = Memory.read out.cells a := by
  induction ns generalizing out with
  | nil => rfl
  | cons n ns ih =>
    have hwf1 := Memory.wf_write foundSlot found hwf
    have hhead : Memory.read (out.recordHit found n).cells a = Memory.read out.cells a := by
      rw [Buffer.recordHit, Memory.read_write_ne n hwf1 (hslots n List.mem_cons_self),
        Memory.read_write_ne found hwf hflag]
    exact (ih (Memory.wf_write (slotOf n) n hwf1) fun k hk => hslots k (List.mem_cons_of_mem n hk)).trans hhead

/-- `RECORD` on its lane answers the lane as it was, with the recording. -/
theorem execRecord_eq_next {s t : State} {r : Lane} (hr : s.lanes[s.bind.lane]? = some r) :
    execRecord s = .next t ↔
      ∃ out', recordLane s.cfg r s.out = .ok out' ∧ t = { s.setLane s.bind.lane r with out := out' } := by
  simp only [execRecord, onLaneOut_eq_next, hr, bind_eq_ok, Option.some.injEq, Except.ok.injEq, Prod.mk.injEq]
  constructor
  · rintro ⟨r0, r', out', rfl, ⟨o, ho, rfl, rfl⟩, ht⟩; exact ⟨o, ho, ht⟩
  · rintro ⟨o, ho, ht⟩; exact ⟨r, r, o, rfl, ⟨o, ho, rfl, rfl⟩, ht⟩

/-- An operation `onLaneOut` of a known lane answers exactly when the lane's operation does. -/
theorem onLaneOut_eq_next_of_lane {s t : State} {r : Lane} {op : Lane → Buffer → Except Fault (Lane × Buffer)}
    (hr : s.lanes[s.bind.lane]? = some r) :
    onLaneOut s op = .next t ↔
      ∃ r' out', op r s.out = .ok (r', out') ∧ t = { s.setLane s.bind.lane r' with out := out' } := by
  simp only [onLaneOut_eq_next, hr, Option.some.injEq]
  constructor
  · rintro ⟨r0, r', out', rfl, hop, ht⟩; exact ⟨r', out', hop, ht⟩
  · rintro ⟨r', out', hop, ht⟩; exact ⟨r, r', out', rfl, hop, ht⟩

/-- Settles O38: the nonces each of the three operations records are those whose slots the hypothesis excludes. -/
theorem recordingLeavesOtherWordsAlone : Obligations.RecordingLeavesOtherWordsAlone := by
  intro s t r a hwf hr hflag
  have hcells := Buffer.cells_wf hwf
  refine ⟨fun h hslots => ?_, fun h hslots => ?_, fun h hslots => ?_⟩
  · obtain ⟨out', hrec, rfl⟩ := (execRecord_eq_next hr).1 h
    obtain ⟨ns, hns, hhits⟩ := recordLane_recordsHits hrec
    obtain rfl : out' = s.out.recordHits _ ns := Except.ok.inj (hrec.symm.trans (hhits s.out rfl))
    exact Buffer.read_recordHits hcells hflag fun n hn => hslots n (hns n hn)
  · obtain ⟨r', out', htrial, rfl⟩ := (onLaneOut_eq_next_of_lane hr).1 h
    obtain ⟨ns, hns, hhits⟩ := trialLane_recordsHits htrial
    obtain rfl := hhits.out_eq htrial
    refine Buffer.read_recordHits hcells hflag fun n hn => ?_
    obtain ⟨j, hj, rfl⟩ := hns n hn
    exact hslots j hj
  · obtain ⟨r', out', hrun, rfl⟩ := (onLaneOut_eq_next_of_lane hr).1 h
    obtain ⟨ns, hns, hhits⟩ := laneRunLane_recordsHits hrun
    obtain rfl := hhits.out_eq hrun
    refine Buffer.read_recordHits hcells hflag fun n hn => ?_
    obtain ⟨j, hj, rfl⟩ := hns n hn
    exact hslots j hj

/-! ## The output buffer is never read -/

/-- The state with other contents of `OUT`. -/
def State.withOutCells (s : State) (m : Memory) : State := { s with out := { s.out with cells := m } }

/-- A list of writes to memory, performed in order. -/
def Memory.writeAll (writes : List (Nat × Word)) (m : Memory) : Memory :=
  writes.foldl (fun m w => Memory.write m w.1 w.2) m

/-- The writes of recordings: for each nonce the flag and then the slot (R128). -/
def hitWrites (found : Word) (ns : List Word) : List (Nat × Word) :=
  ns.flatMap fun n => [(foundSlot, found), (slotOf n, n)]

theorem mem_hitWrites {found : Word} {ns : List Word} {w : Nat × Word} (h : w ∈ hitWrites found ns) :
    w = (foundSlot, found) ∨ w.1 = slotOf w.2 := by
  obtain ⟨n, -, hw⟩ := List.mem_flatMap.1 h
  simp only [List.mem_cons, List.not_mem_nil, or_false] at hw
  rcases hw with rfl | rfl
  · exact .inl rfl
  · exact .inr rfl

/-- Recordings of hits change the contents by their list of writes and nothing else. -/
theorem Buffer.recordHits_eq_writeAll (found : Word) (out : Buffer) (ns : List Word) :
    out.recordHits found ns = { out with cells := Memory.writeAll (hitWrites found ns) out.cells } := by
  induction ns generalizing out with
  | nil => rfl
  | cons n ns ih => exact ih (out.recordHit found n)

theorem Memory.wf_writeAll (writes : List (Nat × Word)) {m : Memory} (h : m.wf = true) :
    (Memory.writeAll writes m).wf = true := by
  induction writes generalizing m with
  | nil => exact h
  | cons w writes ih => exact ih (Memory.wf_write w.1 w.2 h)

theorem Memory.writeAll_concat (writes : List (Nat × Word)) (w : Nat × Word) (m : Memory) :
    Memory.writeAll (writes ++ [w]) m = Memory.write (Memory.writeAll writes m) w.1 w.2 := by
  simp [Memory.writeAll]

/-- A list of writes leaves a word the same in any two memories, or in both as it was: the last write decides. -/
theorem Memory.read_writeAll (writes : List (Nat × Word)) {m m' : Memory} (h : m.wf = true) (h' : m'.wf = true)
    (k : Nat) :
    Memory.read (writeAll writes m) k = Memory.read (writeAll writes m') k ∨
      (Memory.read (writeAll writes m) k = Memory.read m k ∧
        Memory.read (writeAll writes m') k = Memory.read m' k) := by
  induction writes using List.reverseRecOn with
  | nil => exact .inr ⟨rfl, rfl⟩
  | append_singleton writes w ih =>
    have hw := Memory.wf_writeAll writes h
    have hw' := Memory.wf_writeAll writes h'
    rw [Memory.writeAll_concat, Memory.writeAll_concat]
    by_cases hk : k = w.1
    · subst hk
      exact .inl ((Memory.read_write_same w.1 w.2 hw).trans (Memory.read_write_same w.1 w.2 hw').symm)
    · rwa [Memory.read_write_ne w.2 hw hk, Memory.read_write_ne w.2 hw' hk]

/-- With any contents of `OUT` the operation makes the writes of one list, each the found value into the flag or a word
into its own slot, and is otherwise the same (20_memory.md R44, 45_search_loop.md R128). -/
def WritesOut (i : Instr) (s t : State) (writes : List (Nat × Word)) : Prop :=
  (∀ w ∈ writes, w = (foundSlot, s.cfg.foundValue.word) ∨ w.1 = slotOf w.2) ∧
  t.out.cells = Memory.writeAll writes s.out.cells ∧
  ∀ m, exec i (s.withOutCells m) = .next (t.withOutCells (Memory.writeAll writes m))

/-- An operation `onLane` neither reads nor writes `OUT`. -/
theorem onLane_withOutCells {s t : State} {op : Lane → Except Fault Lane} (h : onLane s op = .next t) :
    t.out = s.out ∧ ∀ m, onLane (s.withOutCells m) op = .next (t.withOutCells m) := by
  obtain ⟨r, r', hr, hop, rfl⟩ := onLane_eq_next.1 h
  exact ⟨rfl, fun m => onLane_eq_next.2 ⟨r, r', hr, hop, rfl⟩⟩

/-- An operation `onLaneOut` whose lane's part records hits makes their writes. -/
theorem onLaneOut_withOutCells {s t : State} {r : Lane} {op : Lane → Buffer → Except Fault (Lane × Buffer)}
    {r' : Lane} {ns : List Word} (h : onLaneOut s op = .next t) (hr : s.lanes[s.bind.lane]? = some r)
    (hrec : RecordsHits s.cfg.foundValue.word s.out.words (op r) r' ns) :
    t.out.cells = Memory.writeAll (hitWrites s.cfg.foundValue.word ns) s.out.cells ∧
    ∀ m, onLaneOut (s.withOutCells m) op =
      .next (t.withOutCells (Memory.writeAll (hitWrites s.cfg.foundValue.word ns) m)) := by
  obtain ⟨r1, out', hop, rfl⟩ := (onLaneOut_eq_next_of_lane hr).1 h
  cases (hrec s.out rfl).symm.trans hop
  rw [Buffer.recordHits_eq_writeAll]
  refine ⟨rfl, fun m => (onLaneOut_eq_next_of_lane (s := s.withOutCells m) hr).2 ⟨r', _, hrec _ rfl, ?_⟩⟩
  rw [Buffer.recordHits_eq_writeAll]
  rfl

/-- The trials of a lane take from the shared state what the lanes share and do not write, and not `OUT`. -/
theorem trialsFirst_withOutCells (s : State) (m : Memory) (n : Nat) :
    trialsFirst (s.withOutCells m) n = trialsFirst s n := by
  induction n with
  | zero => rfl
  | succ n ih =>
    funext r out
    simp only [trialsFirst, ih]
    rfl

theorem laneRunLane_withOutCells (s : State) (m : Memory) : laneRunLane (s.withOutCells m) = laneRunLane s := by
  funext r out
  simp only [laneRunLane, trialsFirst_withOutCells]
  rfl

/-- An operation that leaves `OUT` out of account makes no writes. -/
theorem writesOut_nil {i : Instr} {s t : State}
    (h : t.out = s.out ∧ ∀ m, exec i (s.withOutCells m) = .next (t.withOutCells m)) : WritesOut i s t [] :=
  ⟨nofun, congrArg Buffer.cells h.1, h.2⟩

/-- Every operation that answers makes one list of writes. -/
theorem exec_writesOut {i : Instr} {s t : State} (h : exec i s = .next t) : ∃ writes, WritesOut i s t writes := by
  cases i with
  | expandStep k =>
    simp only [exec, execExpandStep] at h
    split at h
    · rename_i hk
      obtain ⟨hout, hexec⟩ := onLane_withOutCells h
      exact ⟨[], writesOut_nil ⟨hout, fun m => (if_pos hk).trans (hexec m)⟩⟩
    · cases h
  | padgen =>
    simp only [exec] at h
    obtain ⟨w, hw, rfl⟩ := execPadgen_eq_next.1 h
    refine ⟨[], writesOut_nil ⟨rfl, fun m => ?_⟩⟩
    simp only [exec]
    exact execPadgen_eq_next.2 ⟨w, hw, rfl⟩
  | launch =>
    obtain ⟨hadm, rfl⟩ := execLaunch_eq_next.1 h
    exact ⟨[], writesOut_nil ⟨rfl, fun m => execLaunch_eq_next.2 ⟨hadm, rfl⟩⟩⟩
  | initIv =>
    simp only [exec, execInitIv] at h
    exact ⟨[], writesOut_nil (onLane_withOutCells h)⟩
  | record =>
    simp only [exec, execRecord] at h
    obtain ⟨r, r', out', hr, hok, -⟩ := onLaneOut_eq_next.1 h
    obtain ⟨o, ho, -⟩ := bind_eq_ok.1 hok
    obtain ⟨ns, -, hrec⟩ := recordLane_recordsHits ho
    exact ⟨_, fun w => mem_hitWrites, onLaneOut_withOutCells (r' := r) (ns := ns) h hr fun b hb => by
      simp only [hrec b hb, ok_bind]⟩
  | trial =>
    obtain ⟨r, r', out', hr, hok, -⟩ := onLaneOut_eq_next.1 h
    obtain ⟨ns, -, hrec⟩ := trialLane_recordsHits hok
    exact ⟨_, fun w => mem_hitWrites, onLaneOut_withOutCells h hr hrec⟩
  | laneRun =>
    obtain ⟨r, r', out', hr, hok, -⟩ := onLaneOut_eq_next.1 h
    obtain ⟨ns, -, hrec⟩ := laneRunLane_recordsHits hok
    obtain ⟨hcells, hexec⟩ := onLaneOut_withOutCells h hr hrec
    refine ⟨_, fun w => mem_hitWrites, hcells, fun m => ?_⟩
    simp only [exec, execLaneRun, laneRunLane_withOutCells]
    exact hexec m
  | _ => exact ⟨[], writesOut_nil (onLane_withOutCells h)⟩

/-- Settles O39: the writes are those of `exec_writesOut`, and in each word the last of them decides. -/
theorem outputBufferIsNeverRead : Obligations.OutputBufferIsNeverRead := by
  intro i s t h
  obtain ⟨writes, hform, hcells, hexec⟩ := exec_writesOut h
  refine ⟨writes, hform, hcells, ?_⟩
  rintro m _ rfl
  refine ⟨hexec m, fun hs hm k => ?_⟩
  rw [hcells]
  exact Memory.read_writeAll writes hm hs k

end Sys2Proof.Machine
end

section
/-! SUPPORT. What a batch records (20_memory.md R54 to R58): one trial of a lane as a state update, the record over every
step of a batch, and its final words under any order of the lanes. -/

namespace Sys2Proof.Machine

/-! ## Any unfinished lane may go next -/

/-- A lane in `Run(j)` is offered to the platform. -/
theorem mem_unfinished_of_run {ls : List Lane} {l j : Nat} {r : Lane} (hr : ls[l]? = some r) (hj : r.lseq = .run j)
    (k : Nat) : k + l ∈ unfinished k ls := by
  induction ls generalizing l k with
  | nil => cases hr
  | cons q rest ih =>
    cases l with
    | zero =>
      cases hr
      simp [unfinished, hj]
    | succ l =>
      have htail : k + (l + 1) ∈ unfinished (k + 1) rest := by
        rw [show k + (l + 1) = k + 1 + l by omega]
        exact ih hr (k + 1)
      simp only [unfinished]
      split
      · exact List.mem_cons_of_mem k htail
      · exact htail
      · exact htail

/-- While some lane is in `Run(j)` the batch is not complete. -/
theorem not_all_isDone_of_run {ls : List Lane} {l j : Nat} {r : Lane} (hr : ls[l]? = some r) (hj : r.lseq = .run j) :
    ¬ ls.all Lane.isDone = true := by
  intro h
  have hdone : r.isDone = true := List.all_eq_true.1 h r (List.mem_of_getElem? hr)
  simp [Lane.isDone, hj] at hdone

/-- Settles O44: the lane is offered, and every lane offered is chosen under some choice. -/
theorem anyUnfinishedLaneMayGoNext : Obligations.AnyUnfinishedLaneMayGoNext := by
  intro s l r j hr hj
  have hmem : l ∈ unfinished 0 s.lanes := by simpa using mem_unfinished_of_run hr hj 0
  obtain ⟨c, hc⟩ := exists_pick hmem
  exact ⟨c, by simp [batchStep, not_all_isDone_of_run hr hj, hc]⟩

/-! ## One trial of a batch -/

/-- The state after trial `j` of lane `l`, whose registers are then `r'`: the lane is put back and the trial's record is
in `OUT` (45_search_loop.md R130, R139). -/
def State.afterTrial (s : State) (l j : Nat) (r' : Lane) : State :=
  { s.setLane l r' with out := { s.out with cells := s.recorded (s.nonceAt l j) s.out.cells } }

section
variable (s : State) (l j : Nat) (r' : Lane)

@[simp] theorem State.afterTrial_lanes : (s.afterTrial l j r').lanes = s.lanes.set l r' := rfl
@[simp] theorem State.afterTrial_cfg : (s.afterTrial l j r').cfg = s.cfg := rfl
@[simp] theorem State.afterTrial_phase : (s.afterTrial l j r').phase = s.phase := rfl
@[simp] theorem State.afterTrial_nonceAt : (s.afterTrial l j r').nonceAt = s.nonceAt := rfl
@[simp] theorem State.afterTrial_hits : (s.afterTrial l j r').hits = s.hits := rfl
@[simp] theorem State.afterTrial_cells :
    (s.afterTrial l j r').out.cells = s.recorded (s.nonceAt l j) s.out.cells := rfl

end

/-- Lane `l` is at its trial `j` in `s`, and `r'` is that lane after the trial (10_state.md R28). -/
structure State.TrialNext (s : State) (l j : Nat) (r r' : Lane) : Prop where
  lane : s.lanes[l]? = some r
  run : r.lseq = .run j
  inRange : j < s.cfg.iters
  lid : r'.lid = r.lid
  next : r'.lseq = if j + 1 < s.cfg.iters then .run (j + 1) else .done

/-- A step of a lane in `Run(j)` of a running batch is its trial `j`. -/
theorem laneStep_afterTrial {s : State} {l j : Nat} {r : Lane} (hinv : s.inv) (hrun : s.phase = .running)
    (hr : s.lanes[l]? = some r) (hj : r.lseq = .run j) :
    ∃ r', laneStep s l = .next (s.afterTrial l j r') ∧ s.TrialNext l j r r' := by
  have ⟨_, _, _, hids, hseq, hbatch⟩ := hinv
  obtain ⟨r', hstep, hid, -, -, -, -, hnext⟩ := laneStepPerformsItsNextTrial s l r j hinv (hbatch hrun).1 hr hj
  have hrange : r.lseq.inRange s.cfg.iters = true := hseq r (List.mem_of_getElem? hr)
  exact ⟨r', hstep, hr, hj, by simpa [hj, LaneSeq.inRange] using hrange, hid.trans (State.lid_of_inv hids hr).symm,
    hnext⟩

/-- A step of a running batch completes it, performs a trial of a lane, or changes nothing. -/
theorem batchStep_afterTrial {s t : State} {c : Nat} (hinv : s.inv) (hrun : s.phase = .running)
    (h : batchStep c s = .next t) :
    ((∀ r ∈ s.lanes, r.lseq = .done) ∧ t = { s with phase := .done }) ∨
    (∃ l j r r', s.TrialNext l j r r' ∧ t = s.afterTrial l j r') ∨ t = s := by
  rcases batchStep_eq_next h with ⟨hdone, ht⟩ | ⟨l, hl, hstep⟩ | ⟨-, ht⟩
  · exact .inl ⟨by simpa [Lane.isDone] using hdone, ht⟩
  · obtain ⟨r, j, -, hr, hj⟩ := mem_unfinished (mem_of_pick hl)
    obtain ⟨r', hstep', htrial⟩ := laneStep_afterTrial hinv hrun hr hj
    cases hstep.symm.trans hstep'
    exact .inr (.inl ⟨l, j, r, r', htrial, rfl⟩)
  · exact .inr (.inr ht)

/-- What a trial records is a recording of `OUT`: of its nonce, or of nothing. -/
theorem State.recorded_recordings (s : State) (n : Word) {b : Buffer} (hw : b.words = 129) :
    Recordings s.cfg.foundValue.word b { b with cells := s.recorded n b.cells } := by
  have hflag : foundSlot < b.words := hw ▸ (by decide)
  cases hh : s.hits n with
  | false => exact ⟨[], by simp [State.recorded, hh, Buffer.recordHits], fun _ => hflag⟩
  | true =>
    exact ⟨[n], by simp [State.recorded, hh, Buffer.recordHits, Buffer.recordHit, slotOf_eq_mod, foundSlot],
      fun _ => hflag⟩

/-- A trial of a running batch keeps the invariant. -/
theorem State.TrialNext.inv {s : State} {l j : Nat} {r r' : Lane} (h : s.TrialNext l j r r') (hinv : s.inv)
    (hrun : s.phase = .running) : (s.afterTrial l j r').inv := by
  have ⟨_, _, _, _, _, hbatch⟩ := hinv
  obtain ⟨⟨-, hout, -⟩, -⟩ := hbatch hrun
  refine State.inv_setLane_out hinv h.lane h.lid ?_ (fun _ => ?_) (s.recorded_recordings _ hout)
  · rw [h.next]
    split <;> simp [LaneSeq.inRange, *]
  · rw [h.next]
    split <;> simp

/-! ## The trials performed -/

/-- A sequencer is past trial `j`: that trial of its lane has been performed (10_state.md R28). -/
def LaneSeq.past (iters : Nat) : LaneSeq → Nat → Prop
  | .idle, _ => False
  | .run k, j => j < k
  | .done, j => j < iters

/-- A trial has been performed exactly when its lane's sequencer is past it. -/
theorem State.performed_iff {s : State} {l j : Nat} :
    s.performed l j ↔ ∃ r, s.lanes[l]? = some r ∧ r.lseq.past s.cfg.iters j := by
  refine exists_congr fun r => and_congr_right fun _ => ?_
  cases r.lseq <;> rfl

/-- A trial adds itself to the trials performed. -/
theorem State.TrialNext.performed_iff {s : State} {l j : Nat} {r r' : Lane} (h : s.TrialNext l j r r') (l' j' : Nat) :
    (s.afterTrial l j r').performed l' j' ↔ s.performed l' j' ∨ (l' = l ∧ j' = j) := by
  have hpast : r'.lseq.past s.cfg.iters j' ↔ j' < j + 1 := by
    have := h.inRange
    rw [h.next]
    split
    · rfl
    · simp only [LaneSeq.past]
      omega
  obtain ⟨hlt, -⟩ := List.getElem?_eq_some_iff.1 h.lane
  simp only [State.performed_iff, State.afterTrial_lanes, State.afterTrial_cfg]
  by_cases hl : l' = l
  · subst hl
    simp only [List.getElem?_set_self hlt, h.lane, Option.some.injEq, exists_eq_left', hpast, true_and]
    simp only [h.run, LaneSeq.past]
    omega
  · simp [List.getElem?_set_ne (Ne.symm hl), hl]

/-- A lane at its trial `j` has performed the earlier ones only. -/
theorem State.TrialNext.performed_lt {s : State} {l j : Nat} {r r' : Lane} (h : s.TrialNext l j r r') {j' : Nat} :
    s.performed l j' ↔ j' < j := by
  simp only [State.performed_iff, h.lane, Option.some.injEq, exists_eq_left', h.run, LaneSeq.past]

/-- With every lane done, the trials performed are all there are (45_search_loop.md R131). -/
theorem State.performed_of_done {s : State} (hinv : s.inv) (hdone : ∀ r ∈ s.lanes, r.lseq = .done) (l j : Nat) :
    s.performed l j ↔ l < s.cfg.lanes ∧ j < s.cfg.iters := by
  obtain ⟨-, -, -, hids, -⟩ := hinv
  have hlen : s.lanes.length = s.cfg.lanes := by simpa using congrArg List.length hids
  rw [State.performed_iff, ← hlen]
  constructor
  · rintro ⟨r, hr, hpast⟩
    rw [hdone r (List.mem_of_getElem? hr)] at hpast
    exact ⟨(List.getElem?_eq_some_iff.1 hr).1, hpast⟩
  · rintro ⟨hl, hj⟩
    refine ⟨s.lanes[l], List.getElem?_eq_getElem hl, ?_⟩
    rw [hdone _ (List.getElem_mem hl)]
    exact hj

/-! ## The record -/

/-- What a trial leaves in a word of a canonical memory (R128). -/
theorem State.read_recorded (s : State) (n : Word) {m : Memory} (h : m.wf = true) (k : Nat) :
    Memory.read (s.recorded n m) k =
      if s.hits n then
        if k = n.toNat % 128 then n else if k = 128 then s.cfg.foundValue.word else Memory.read m k
      else Memory.read m k := by
  have hflag := Memory.wf_write 128 s.cfg.foundValue.word h
  cases hh : s.hits n with
  | false => simp [State.recorded, hh]
  | true =>
    simp only [State.recorded, hh, if_true]
    split
    · rename_i hk
      rw [hk, Memory.read_write_same _ n hflag]
    · rename_i hk
      rw [Memory.read_write_ne n hflag hk]
      split
      · rename_i hk'
        rw [hk', Memory.read_write_same 128 _ h]
      · exact Memory.read_write_ne _ h ‹_›

/-- The trials that scored after a trial: those before, and it where it hits. -/
theorem State.TrialNext.scored_iff {s : State} {l j : Nat} {r r' : Lane} (h : s.TrialNext l j r r') (k l' j' : Nat) :
    (s.afterTrial l j r').scored k l' j' ↔
      s.scored k l' j' ∨ (l' = l ∧ j' = j ∧ s.hits (s.nonceAt l j) = true ∧ (s.nonceAt l j).toNat % 128 = k) := by
  simp only [State.scored, h.performed_iff, State.afterTrial_hits, State.afterTrial_nonceAt]
  constructor
  · rintro ⟨hp | ⟨rfl, rfl⟩, hhit, hk⟩
    · exact .inl ⟨hp, hhit, hk⟩
    · exact .inr ⟨rfl, rfl, hhit, hk⟩
  · rintro (⟨hp, hhit, hk⟩ | ⟨rfl, rfl, hhit, hk⟩)
    · exact ⟨.inl hp, hhit, hk⟩
    · exact ⟨.inr ⟨rfl, rfl⟩, hhit, hk⟩

/-- The record depends on the trials that scored and on what they wrote, and on nothing else of the state. -/
theorem State.records_congr {s t : State} {m : Memory} (h : s.records m) (hcfg : t.cfg = s.cfg)
    (hnonce : t.nonceAt = s.nonceAt) (hcells : t.out.cells = s.out.cells)
    (hscored : ∀ k l j, t.scored k l j ↔ s.scored k l j) : t.records m := by
  obtain ⟨hslot, hclear, hset, hunset⟩ := h
  constructor <;> simp only [State.lastScored, hscored, hcells, hcfg, hnonce] <;> assumption

/-- Where no trial has been performed, `OUT` itself is the launch content. -/
theorem State.records_of_not_performed {s : State} (h : ∀ l j, ¬ s.performed l j) : s.records s.out.cells where
  slot_scored := fun _ _ ⟨l, j, hs⟩ => absurd hs.1 (h l j)
  slot_clear := fun _ _ _ => rfl
  flag_set := fun ⟨_, l, j, hs⟩ => absurd hs.1 (h l j)
  flag_clear := fun _ => rfl

/-- A trial that misses scores nowhere and writes nothing: the record stands. -/
theorem State.TrialNext.records_of_miss {s : State} {l j : Nat} {r r' : Lane} {m : Memory}
    (h : s.TrialNext l j r r') (hrec : s.records m) (hmiss : s.hits (s.nonceAt l j) = false) :
    (s.afterTrial l j r').records m := by
  refine State.records_congr hrec rfl rfl ?_ fun k l' j' => ?_
  · simp [State.recorded, hmiss]
  · simp [h.scored_iff, hmiss]

/-- A trial that hits is its lane's last in its slot, which holds its nonce; the other slots keep theirs, and the flag
holds the found value. -/
theorem State.TrialNext.records_of_hit {s : State} {l j : Nat} {r r' : Lane} {m : Memory}
    (h : s.TrialNext l j r r') (hwf : s.out.cells.wf = true) (hrec : s.records m)
    (hhit : s.hits (s.nonceAt l j) = true) : (s.afterTrial l j r').records m := by
  obtain ⟨hslot, hclear, -, -⟩ := hrec
  have hread := s.read_recorded (s.nonceAt l j) hwf
  have hscored := h.scored_iff
  simp only [hhit, if_true] at hread
  simp only [hhit, true_and] at hscored
  set n := s.nonceAt l j with hn
  have hnew : (s.afterTrial l j r').scored (n.toNat % 128) l j := (hscored _ l j).2 (.inr ⟨rfl, rfl, rfl⟩)
  have hlast : (s.afterTrial l j r').lastScored (n.toNat % 128) l j := by
    refine ⟨hnew, fun j' hj' hs => ?_⟩
    rcases (hscored _ l j').1 hs with ⟨hp, -⟩ | ⟨-, rfl, -⟩
    · exact absurd (h.performed_lt.1 hp) (by omega)
    · exact absurd hj' (lt_irrefl _)
  constructor
  · intro k hk hex
    by_cases hkn : k = n.toNat % 128
    · subst hkn
      exact ⟨l, j, hlast, (hread _).trans (if_pos rfl)⟩
    · have hsame : ∀ l' j', (s.afterTrial l j r').scored k l' j' ↔ s.scored k l' j' := fun l' j' => by
        simp [hscored, Ne.symm hkn]
      simp only [hsame, State.lastScored, State.afterTrial_cells, State.afterTrial_nonceAt] at hex ⊢
      rw [hread, if_neg hkn, if_neg hk.ne]
      exact hslot k hk hex
  · intro k hk hnone
    have hkn : k ≠ n.toNat % 128 := by
      rintro rfl
      exact hnone ⟨l, j, hnew⟩
    have hold : ¬ ∃ l' j', s.scored k l' j' := fun ⟨l', j', hs⟩ => hnone ⟨l', j', (hscored k l' j').2 (.inl hs)⟩
    rw [State.afterTrial_cells, hread, if_neg hkn, if_neg hk.ne]
    exact hclear k hk hold
  · intro _
    rw [State.afterTrial_cells, hread, if_neg (by omega), if_pos rfl]
    rfl
  · exact fun hnone => absurd ⟨_, l, j, hnew⟩ hnone

/-- A trial keeps the record. -/
theorem State.TrialNext.records {s : State} {l j : Nat} {r r' : Lane} {m : Memory} (h : s.TrialNext l j r r')
    (hwf : s.out.cells.wf = true) (hrec : s.records m) : (s.afterTrial l j r').records m := by
  cases hhit : s.hits (s.nonceAt l j) with
  | false => exact h.records_of_miss hrec hhit
  | true => exact h.records_of_hit hwf hrec hhit

/-- A launch leaves no trial performed. -/
theorem execLaunch_not_performed {s t : State} (h : execLaunch s = .next t) (l j : Nat) : ¬ t.performed l j := by
  obtain ⟨-, rfl⟩ := execLaunch_eq_next.1 h
  rw [State.performed_iff]
  rintro ⟨r, hr, hpast⟩
  simp only [List.getElem?_map, Option.map_eq_some_iff] at hr
  obtain ⟨q, -, rfl⟩ := hr
  simp only [launchLane, Lane.blank_lseq] at hpast
  split at hpast
  · exact Nat.not_lt_zero j hpast
  · rename_i hz
    exact hz (Nat.zero_lt_of_lt hpast)

/-- Every step of a running batch keeps the record. -/
theorem batchStep_records {s t : State} {c : Nat} {m : Memory} (hinv : s.inv) (hrun : s.phase = .running)
    (hrec : s.records m) (h : batchStep c s = .next t) : t.records m := by
  have ⟨_, _, hwf, _⟩ := hinv
  rcases batchStep_afterTrial hinv hrun h with ⟨-, rfl⟩ | ⟨l, j, r, r', htrial, rfl⟩ | rfl
  · exact State.records_congr hrec rfl rfl rfl fun _ _ _ => Iff.rfl
  · exact htrial.records (Buffer.cells_wf hwf) hrec
  · exact hrec

/-- Settles O46: a launch leaves no trial performed, and each step of the lanes is a `batchStep`. -/
theorem batchStepsKeepTheRecord : Obligations.BatchStepsKeepTheRecord := by
  refine ⟨fun s t h => ?_, fun s t m hinv hrun hq hrec h => ?_⟩
  · have hout : t.out = s.out := by
      obtain ⟨-, rfl⟩ := execLaunch_eq_next.1 h
      rfl
    exact hout ▸ State.records_of_not_performed (execLaunch_not_performed h)
  · rw [step_of_hostQuiet hrun hq] at h
    have hrec' : State.records { s with tick := s.tick + 1 } m :=
      State.records_congr hrec rfl rfl rfl fun _ _ _ => Iff.rfl
    exact batchStep_records (s := { s with tick := s.tick + 1 }) hinv hrun hrec' h

end Sys2Proof.Machine
end

section
/-! SUPPORT. A batch from its launch to completion: its final words under any run (20_memory.md R57, R58), and the order
of the lanes under which a given lane's nonce survives (R57, 45_search_loop.md R138). -/

namespace Sys2Proof.Machine

/-! ## Runs -/

/-- A run of `n + 1` steps is a step and then a run of `n`. -/
theorem core_run_succ_eq_next {n : Nat} {s u : State} :
    core.run (n + 1) s = .next u ↔ ∃ t, step s = .next t ∧ core.run n t = .next u := by
  constructor
  · intro h
    simp only [Host.Core.run] at h
    split at h
    · exact ⟨_, ‹_›, h⟩
    · cases h
    · cases h
  · rintro ⟨t, hstep, h⟩
    have hcore : core.step s = .next t := hstep
    simp only [Host.Core.run, hcore]
    exact h

/-- What holds of a state and is kept by every step holds after any run that answers. -/
theorem core_run_keeps {P : State → Prop} (hstep : ∀ s t, P s → step s = .next t → P t) {n : Nat} {s u : State}
    (hs : P s) (h : core.run n s = .next u) : P u := by
  induction n generalizing s with
  | zero => cases h; exact hs
  | succ n ih =>
    obtain ⟨t, hst, hrun⟩ := core_run_succ_eq_next.1 h
    exact ih (hstep s t hs hst) hrun

/-- `u` is a state of the batch launched in `t` over the content `m`, with nothing asked for: the batch runs, or every
lane is done. -/
structure State.InBatch (t : State) (m : Memory) (u : State) : Prop where
  inv : u.inv
  quiet : u.pending = []
  cfg : u.cfg = t.cfg
  offset : u.offset = t.offset
  hdr : u.hdr = t.hdr
  records : u.records m
  phase : u.phase = .running ∨ (u.phase = .done ∧ ∀ r ∈ u.lanes, r.lseq = .done)

/-- A launch with nothing else asked for starts a batch over the contents of `OUT`. -/
theorem State.inBatch_launch {s t : State} (hinv : s.inv) (hp : s.pending = []) (h : exec .launch s = .next t) :
    t.InBatch s.out.cells t where
  inv := exec_keeps_inv hinv h
  quiet := by
    obtain ⟨-, rfl⟩ := execLaunch_eq_next.1 h
    exact hp
  cfg := rfl
  offset := rfl
  hdr := rfl
  records := batchStepsKeepTheRecord.1 s t h
  phase := by
    obtain ⟨-, rfl⟩ := execLaunch_eq_next.1 h
    exact .inl rfl

/-- Every step from a state of the batch goes to a state of the batch. -/
theorem State.InBatch.of_step {t u v : State} {m : Memory} (hu : t.InBatch m u) (h : step u = .next v) :
    t.InBatch m v := by
  rcases hu.phase with hrun | ⟨hdone, -⟩
  · have hagents : agentsStep u = .next v := by rwa [step_of_hostQuiet hrun (.inl hu.quiet)] at h
    obtain ⟨hcfg, -, hhdr, hoffset, hpending, -, -⟩ := agentsStep_frame hagents
    refine ⟨everyStepKeepsTheInvariant u v hu.inv h, hpending.trans hu.quiet, hcfg.trans hu.cfg,
      hoffset.trans hu.offset, hhdr.trans hu.hdr,
      batchStepsKeepTheRecord.2 u v m hu.inv hrun (.inl hu.quiet) hu.records h, ?_⟩
    cases agents_form hagents with
    | complete hall hv => exact hv ▸ .inr ⟨rfl, hall⟩
    | trial l j r r' out' hr hj htrial hv => exact hv ▸ .inl hrun
    | wait hv => exact hv ▸ .inl hrun
  · rw [step_nil hu.quiet, if_neg (by simp [hdone])] at h
    cases h
    exact hu

/-- The nonces of a batch are those of its launch. -/
theorem State.InBatch.nonceAt_eq {t u : State} {m : Memory} (h : t.InBatch m u) : u.nonceAt = t.nonceAt := by
  funext l j
  rw [State.nonceAt, State.nonceAt, h.cfg, h.offset]

/-- The verdicts of a batch are those of its launch. -/
theorem State.InBatch.hits_eq {t u : State} {m : Memory} (h : t.InBatch m u) : u.hits = t.hits := by
  have hwords : u.headerWords = t.headerWords := by
    funext start n
    rw [State.headerWords, State.headerWords, h.hdr]
  funext n
  rw [State.hits, State.hits, State.fd, State.fd, State.dg, State.dg, hwords, h.cfg]

/-- In `Done` the trials that scored are all those of the batch that hit in the slot. -/
theorem State.InBatch.scored_iff {t u : State} {m : Memory} (h : t.InBatch m u) (hdone : u.phase = .done)
    (k l j : Nat) : u.scored k l j ↔ l < t.cfg.lanes ∧ j < t.cfg.iters ∧ t.hits (t.nonceAt l j) = true ∧
      (t.nonceAt l j).toNat % 128 = k := by
  have hall : ∀ r ∈ u.lanes, r.lseq = .done := by
    rcases h.phase with hrun | ⟨-, hall⟩
    · exact nomatch hrun.symm.trans hdone
    · exact hall
  rw [State.scored, State.performed_of_done h.inv hall, h.nonceAt_eq, h.hits_eq, h.cfg, and_assoc]

/-- Settles O47: the record of the last state, whose performed trials are all trials of the batch. -/
theorem finalWordsOfABatch : Obligations.FinalWordsOfABatch := by
  intro s t u n hinv hp hlaunch hrun hdone
  have hu : t.InBatch s.out.cells u :=
    core_run_keeps (fun _ _ hs => hs.of_step) (State.inBatch_launch hinv hp hlaunch) hrun
  have hcfg : t.cfg = s.cfg := by
    obtain ⟨-, rfl⟩ := execLaunch_eq_next.1 hlaunch
    rfl
  have hscored := hu.scored_iff hdone
  obtain ⟨hslot, hclear, hset, hunset⟩ := hu.records
  simp only [State.lastScored, hscored, hu.nonceAt_eq, hu.cfg, hcfg] at hslot hclear hset hunset
  refine ⟨fun k hk => ⟨fun hex => ?_, fun hnone => ?_⟩, fun ⟨l, j, hl, hj, hhit⟩ => ?_, fun hnone => ?_⟩
  · obtain ⟨l, j, ⟨⟨hl, hj, hhit, hk'⟩, hlast⟩, hread⟩ := hslot k hk hex
    exact ⟨l, j, hl, hj, hhit, hk', hread, fun j' hj' hlt hhit' hk'' => hlast j' hj' ⟨hl, hlt, hhit', hk''⟩⟩
  · exact hclear k hk fun ⟨l, j, hl, hj, hhit, hk'⟩ => hnone l j hl hj hhit hk'
  · exact hset ⟨_, l, j, hl, hj, hhit, rfl⟩
  · exact hunset fun ⟨k, l, j, hl, hj, hhit, _⟩ => by simp [hnone l j hl hj] at hhit

/-! ## The trials left -/

/-- How many trials a sequencer still has to perform (45_search_loop.md R140). -/
def LaneSeq.trialsLeft (iters : Nat) : LaneSeq → Nat
  | .run j => iters - j
  | .idle => 0
  | .done => 0

/-- The trials left are those of the lanes. -/
theorem State.remaining_eq (s : State) :
    s.remaining = (s.lanes.map fun r => r.lseq.trialsLeft s.cfg.iters).sum := by
  refine congrArg List.sum (List.map_congr_left fun r _ => ?_)
  cases r.lseq <;> rfl

/-- Replacing one element of a list by one that counts one less takes one off the sum. -/
theorem sum_map_set {α : Type} (f : α → Nat) {xs : List α} {l : Nat} {x x' : α} (hx : xs[l]? = some x)
    (hf : f x = f x' + 1) : (xs.map f).sum = ((xs.set l x').map f).sum + 1 := by
  induction xs generalizing l with
  | nil => cases hx
  | cons y ys ih =>
    cases l with
    | zero =>
      cases hx
      simp only [List.set_cons_zero, List.map_cons, List.sum_cons]
      omega
    | succ l =>
      have htail := ih hx
      simp only [List.set_cons_succ, List.map_cons, List.sum_cons]
      omega

/-- A trial of a batch is one trial less to perform. -/
theorem State.TrialNext.remaining_eq {s : State} {l j : Nat} {r r' : Lane} (h : s.TrialNext l j r r') :
    s.remaining = (s.afterTrial l j r').remaining + 1 := by
  have hleft : r.lseq.trialsLeft s.cfg.iters = r'.lseq.trialsLeft s.cfg.iters + 1 := by
    have := h.inRange
    rw [h.run, h.next]
    split <;> simp only [LaneSeq.trialsLeft] <;> omega
  rw [State.remaining_eq, State.remaining_eq]
  exact sum_map_set (fun r => r.lseq.trialsLeft s.cfg.iters) h.lane hleft

/-! ## Every survivor is possible -/

/-- Lane `l` can still leave, or has left, the nonce of its trial `j` in that nonce's slot: the trial is not performed
yet, or every other lane is done and the slot holds the nonce. -/
def State.Favours (s : State) (l j : Nat) : Prop :=
  ¬ s.performed l j ∨
    ((∀ l' r, l' ≠ l → s.lanes[l']? = some r → r.lseq = .done) ∧
      Memory.read s.out.cells ((s.nonceAt l j).toNat % 128) = s.nonceAt l j)

/-- Trial `j` of lane `l` hits, and no later trial of the lane scores in its slot. -/
structure State.LastHit (s : State) (l j : Nat) : Prop where
  lane : l < s.cfg.lanes
  iter : j < s.cfg.iters
  hit : s.hits (s.nonceAt l j) = true
  last : ∀ j', j < j' → j' < s.cfg.iters → s.hits (s.nonceAt l j') = true →
    (s.nonceAt l j').toNat % 128 ≠ (s.nonceAt l j).toNat % 128

/-- In a running batch any lane that is not done may perform its next trial. -/
theorem exists_batchStep_of_lane {s : State} {l : Nat} {r : Lane} (hinv : s.inv) (hrun : s.phase = .running)
    (hr : s.lanes[l]? = some r) (hnd : r.lseq ≠ .done) :
    ∃ c i r', batchStep c s = .next (s.afterTrial l i r') ∧ s.TrialNext l i r r' := by
  have ⟨_, _, _, _, _, hbatch⟩ := hinv
  have hidle : r.lseq ≠ .idle := (hbatch hrun).2 r (List.mem_of_getElem? hr)
  cases hi : r.lseq with
  | idle => exact absurd hi hidle
  | done => exact absurd hi hnd
  | run i =>
    obtain ⟨r', hnext, htrial⟩ := laneStep_afterTrial hinv hrun hr hi
    obtain ⟨c, hc⟩ := anyUnfinishedLaneMayGoNext s l r i hr hi
    exact ⟨c, i, r', hc.trans hnext, htrial⟩

/-- A trial of another lane that was not done: trial `j` of lane `l` is not performed by it. -/
theorem State.Favours.after_other {s : State} {l j l' i : Nat} {r r' : Lane} (hf : s.Favours l j)
    (htrial : s.TrialNext l' i r r') (hl : l' ≠ l) : (s.afterTrial l' i r').Favours l j := by
  have hnd : r.lseq ≠ .done := htrial.run ▸ nofun
  have hnot : ¬ s.performed l j := hf.resolve_right fun hheld => hnd (hheld.1 l' r hl htrial.lane)
  refine .inl fun hp => ?_
  rcases (htrial.performed_iff l j).1 hp with hp | ⟨rfl, -⟩
  · exact hnot hp
  · exact hl rfl

/-- A trial of lane `l` itself after all others: it comes before trial `j`, is it, or leaves its slot alone. -/
theorem State.Favours.after_own {s : State} {l j i : Nat} {r r' : Lane} (hf : s.Favours l j) (hlast : s.LastHit l j)
    (hwf : s.out.cells.wf = true) (htrial : s.TrialNext l i r r')
    (hothers : ∀ l' r, l' ≠ l → s.lanes[l']? = some r → r.lseq = .done) : (s.afterTrial l i r').Favours l j := by
  have hdone : ∀ l' q, l' ≠ l → (s.afterTrial l i r').lanes[l']? = some q → q.lseq = .done := by
    intro l' q hl hq
    rw [State.afterTrial_lanes, List.getElem?_set_ne (Ne.symm hl)] at hq
    exact hothers l' q hl hq
  simp only [State.Favours, htrial.performed_iff, htrial.performed_lt, State.afterTrial_nonceAt,
    State.afterTrial_cells, s.read_recorded _ hwf]
  rcases Nat.lt_trichotomy i j with hij | rfl | hij
  · exact .inl (by omega)
  · exact .inr ⟨hdone, by simp [hlast.hit]⟩
  · obtain ⟨-, hheld⟩ := hf.resolve_left (not_not_intro (htrial.performed_lt.2 hij))
    refine .inr ⟨hdone, ?_⟩
    split
    · have hslot := hlast.last i hij htrial.inRange ‹_›
      rw [if_neg (Ne.symm hslot), if_neg (by omega), hheld]
    · exact hheld

/-- The next trial of a batch can be chosen so that `Favours` goes on: another lane's while there is one, and lane
`l`'s otherwise. -/
theorem State.Favours.exists_trial {s : State} {l j : Nat} (hf : s.Favours l j) (hlast : s.LastHit l j) (hinv : s.inv)
    (hrun : s.phase = .running) (hmore : ¬ ∀ r ∈ s.lanes, r.lseq = .done) :
    ∃ c l' i r r', batchStep c s = .next (s.afterTrial l' i r') ∧ s.TrialNext l' i r r' ∧
      (s.afterTrial l' i r').Favours l j := by
  have ⟨_, _, hwf, _⟩ := hinv
  by_cases hothers : ∀ l' r, l' ≠ l → s.lanes[l']? = some r → r.lseq = .done
  · push Not at hmore
    obtain ⟨r, hmem, hnd⟩ := hmore
    obtain ⟨l', hr⟩ := List.mem_iff_getElem?.1 hmem
    obtain rfl : l' = l := by_contra fun hl => hnd (hothers l' r hl hr)
    obtain ⟨c, i, r', hc, htrial⟩ := exists_batchStep_of_lane hinv hrun hr hnd
    exact ⟨c, l', i, r, r', hc, htrial, hf.after_own hlast (Buffer.cells_wf hwf) htrial hothers⟩
  · push Not at hothers
    obtain ⟨l', r, hl, hr, hnd⟩ := hothers
    obtain ⟨c, i, r', hc, htrial⟩ := exists_batchStep_of_lane hinv hrun hr hnd
    exact ⟨c, l', i, r, r', hc, htrial, hf.after_other htrial hl⟩

/-- The first choice of a run is one step of the batch. -/
theorem batchRun_cons {s t : State} {c : Nat} (h : batchStep c s = .next t) (rest : List Nat) :
    batchRun (c :: rest) s = batchRun rest t := by
  simp [batchRun, h]

/-- From a state that favours the trial some choices complete the batch with its nonce in the slot. -/
theorem State.Favours.exists_run {s : State} {l j : Nat} (hf : s.Favours l j) (hlast : s.LastHit l j) (hinv : s.inv)
    (hrun : s.phase = .running) :
    ∃ choices u, batchRun choices s = .next u ∧ u.phase = .done ∧
      Memory.read u.out.cells ((s.nonceAt l j).toNat % 128) = s.nonceAt l j := by
  induction hn : s.remaining using Nat.strong_induction_on generalizing s with
  | _ n ih =>
    by_cases hdone : ∀ r ∈ s.lanes, r.lseq = .done
    · have hperformed : s.performed l j := (State.performed_of_done hinv hdone l j).2 ⟨hlast.lane, hlast.iter⟩
      obtain ⟨-, hheld⟩ := hf.resolve_left (not_not_intro hperformed)
      have hall : s.lanes.all Lane.isDone = true := by simpa [Lane.isDone] using hdone
      have hcomplete : batchStep 0 s = .next { s with phase := .done } := by simp only [batchStep, hall, if_true]
      exact ⟨[0], _, batchRun_cons hcomplete [], rfl, hheld⟩
    · obtain ⟨c, l', i, r, r', hc, htrial, hf'⟩ := hf.exists_trial hlast hinv hrun hdone
      have hless : (s.afterTrial l' i r').remaining < n := by
        have := htrial.remaining_eq
        omega
      obtain ⟨choices, u, hu, hphase, hread⟩ :=
        ih _ hless hf' ⟨hlast.lane, hlast.iter, hlast.hit, hlast.last⟩ (htrial.inv hinv hrun) hrun rfl
      exact ⟨c :: choices, u, (batchRun_cons hc choices).trans hu, hphase, hread⟩

/-- Settles O48: a launch favours every trial, and its lane goes last. -/
theorem everySurvivorOfACollisionIsPossible : Obligations.EverySurvivorOfACollisionIsPossible := by
  intro s t l j hinv hlaunch hl hj hhit hlast
  have hf : t.Favours l j := .inl (execLaunch_not_performed hlaunch l j)
  have hinv' : t.inv := exec_keeps_inv hinv hlaunch
  obtain ⟨-, rfl⟩ := execLaunch_eq_next.1 hlaunch
  exact hf.exists_run ⟨hl, hj, hhit, hlast⟩ hinv' rfl

end Sys2Proof.Machine
end

section
/-! SUPPORT. The operation map as decoder and encoder both follow it (30_encoding.md R69 to R73): a word read by the row
its OPC names, and the words that a row spells. -/

namespace Sys2Proof

/-! ## The bits of the immediate field -/

theorem zero_append_eq_setWidth {m n : Nat} (x : BitVec n) : 0#m ++ x = x.setWidth (m + n) := by
  simp [BitVec.setWidth_eq_append]

/-- A field whose high bits are 0 is its low bits, widened. -/
theorem setWidth_low_of_high_eq_zero {m n : Nat} {x : BitVec (m + n)} (h : x.extractLsb' n m = 0#m) :
    (x.extractLsb' 0 n).setWidth (m + n) = x := by
  rw [← zero_append_eq_setWidth, ← h, BitVec.extractLsb'_append_extractLsb']

/-- The bits R70 (a) reserves, as a mask. -/
theorem amount_reserved_iff : ∀ imm : BitVec 8, imm.extractLsb' 5 3 = 0#3 ↔ imm &&& 0xE0#8 = 0#8 := by decide

/-- The bits R70 (b) reserves, as a mask. -/
theorem index_reserved_iff : ∀ imm : BitVec 8, imm.extractLsb' 6 2 = 0#2 ↔ imm &&& 0xC0#8 = 0#8 := by decide

/-- The bits R70 (d) reserves are all of the field. -/
theorem noImm_reserved_iff (imm : BitVec 8) : imm = 0#8 ↔ imm &&& 0xFF#8 = 0#8 := by
  rw [show (0xFF#8 : BitVec 8) = BitVec.allOnes 8 from rfl, BitVec.and_allOnes]

theorem exists_amount {imm : BitVec 8} (h : imm &&& 0xE0#8 = 0#8) : ∃ n : BitVec 5, n.setWidth 8 = imm :=
  ⟨_, setWidth_low_of_high_eq_zero ((amount_reserved_iff imm).2 h)⟩

theorem exists_index {imm : BitVec 8} (h : imm &&& 0xC0#8 = 0#8) : ∃ k : BitVec 6, k.setWidth 8 = imm :=
  ⟨_, setWidth_low_of_high_eq_zero ((index_reserved_iff imm).2 h)⟩

theorem withAmount_setWidth (n : BitVec 5) (f : BitVec 5 → Instr) : withAmount (n.setWidth 8) f = .ok (f n) := by
  have hhigh : (n.setWidth 8).extractLsb' 5 3 = 0#3 := by revert n; decide
  have hlow : (n.setWidth 8).extractLsb' 0 5 = n := by revert n; decide
  rw [withAmount, if_pos hhigh, hlow]

theorem withIndex_setWidth (k : BitVec 6) (f : BitVec 6 → Instr) : withIndex (k.setWidth 8) f = .ok (f k) := by
  have hhigh : (k.setWidth 8).extractLsb' 6 2 = 0#2 := by revert k; decide
  have hlow : (k.setWidth 8).extractLsb' 0 6 = k := by revert k; decide
  rw [withIndex, if_pos hhigh, hlow]

theorem withAmount_of_reserved {imm : BitVec 8} (h : imm &&& 0xE0#8 ≠ 0#8) (f : BitVec 5 → Instr) :
    withAmount imm f = .error .immediate :=
  if_neg (mt (amount_reserved_iff imm).1 h)

theorem withIndex_of_reserved {imm : BitVec 8} (h : imm &&& 0xC0#8 ≠ 0#8) (f : BitVec 6 → Instr) :
    withIndex imm f = .error .immediate :=
  if_neg (mt (index_reserved_iff imm).1 h)

theorem withNoImm_of_reserved {imm : BitVec 8} (h : imm &&& 0xFF#8 ≠ 0#8) (i : Instr) :
    withNoImm imm i = .error .immediate :=
  if_neg (mt (noImm_reserved_iff imm).1 h)

/-! ## The fields of an operation's word -/

/-- `EncodedFields`, for every operation. -/
theorem encodedFields (i : Instr) : Laws.EncodedFields.Statement i :=
  open Laws.EncodedFields in
  @Instr.casesOn Statement i add and or xor not rotr shr bsig0 bsig1 ch maj ssig0 ssig1 expandStep expand padgen initIv
    round compressW compressP powHash chainHash nonceGen test record trial laneRun launch

/-- A word is its two fields (R69), so an operation with these fields has this word. -/
theorem encode_eq_iff {i : Instr} {w : OpWord} : encode i = w ↔ opcode i = opcField w ∧ imm8 i = immField w := by
  constructor
  · rintro rfl
    obtain ⟨hopc, himm⟩ := encodedFields i
    exact ⟨hopc.symm, himm.symm⟩
  · rintro ⟨hopc, himm⟩
    rw [encode, hopc, himm]
    exact BitVec.extractLsb'_append_extractLsb'

/-- The index check of R70 (c), read off the fields. -/
theorem Instr.wf_iff {i : Instr} : i.wf = true ↔ (opcode i = 0x22#8 → 16 ≤ (imm8 i).toNat) := by
  cases i with
  | expandStep k =>
    have hk : k.toNat % 256 = k.toNat := by omega
    simp [Instr.wf, opcode, imm8, hk]
  | _ => simp [Instr.wf, opcode]

/-! ## The row an OPC names -/

/-- What the decoder reads in the immediate field once OPC has named the row of `i`. -/
def Instr.row (i : Instr) (imm : BitVec 8) : Except Invalid Instr :=
  match i with
  | .rotr _ => withAmount imm .rotr
  | .shr _ => withAmount imm .shr
  | .expandStep _ => checkIndex (withIndex imm .expandStep)
  | .round _ => withIndex imm .round
  | i => withNoImm imm i

theorem decode_eq_row {w : OpWord} {i : Instr} (h : opcode i = opcField w) : decode w = i.row (immField w) := by
  cases i <;> simp [decode, ← h, opcode, Instr.row]

/-- R73 (a): an OPC of no row. -/
theorem decode_of_opcode_ne {w : OpWord} (h : ∀ i, opcode i ≠ opcField w) : decode w = .error .opcode := by
  have h (i : Instr) := (h i).symm
  exact (if_neg (h .add)).trans <| (if_neg (h .and)).trans <| (if_neg (h .or)).trans <| (if_neg (h .xor)).trans <|
    (if_neg (h .not)).trans <| (if_neg (h (.rotr 0))).trans <| (if_neg (h (.shr 0))).trans <|
    (if_neg (h .bsig0)).trans <| (if_neg (h .bsig1)).trans <| (if_neg (h .ch)).trans <| (if_neg (h .maj)).trans <|
    (if_neg (h .ssig0)).trans <| (if_neg (h .ssig1)).trans <| (if_neg (h (.expandStep 0))).trans <|
    (if_neg (h .expand)).trans <| (if_neg (h .padgen)).trans <| (if_neg (h .initIv)).trans <|
    (if_neg (h (.round 0))).trans <| (if_neg (h .compressW)).trans <| (if_neg (h .compressP)).trans <|
    (if_neg (h .powHash)).trans <| (if_neg (h .chainHash)).trans <| (if_neg (h .nonceGen)).trans <|
    (if_neg (h .test)).trans <| (if_neg (h .record)).trans <| (if_neg (h .trial)).trans <|
    (if_neg (h .laneRun)).trans (if_neg (h .launch))

open Machine (reservedImm)

/-- R73 (b): a row's reserved bits are not 0. -/
theorem decode_of_reserved {w : OpWord} {i : Instr} (hopc : opcode i = opcField w)
    (h : immField w &&& reservedImm i ≠ 0#8) : decode w = .error .immediate := by
  rw [decode_eq_row hopc]
  cases i with
  | rotr n | shr n => exact withAmount_of_reserved h _
  | expandStep k => rw [Instr.row, withIndex_of_reserved h, checkIndex]
  | round k => exact withIndex_of_reserved h _
  | _ => exact withNoImm_of_reserved h _

/-- A word of a row whose reserved bits are 0 is spelled by an operation of that row. -/
theorem exists_encode_eq {w : OpWord} {i : Instr} (hopc : opcode i = opcField w)
    (h : immField w &&& reservedImm i = 0#8) : ∃ j, encode j = w := by
  simp only [encode_eq_iff]
  cases i with
  | rotr n => obtain ⟨m, hm⟩ := exists_amount h; exact ⟨.rotr m, hopc, hm⟩
  | shr n => obtain ⟨m, hm⟩ := exists_amount h; exact ⟨.shr m, hopc, hm⟩
  | expandStep k => obtain ⟨m, hm⟩ := exists_index h; exact ⟨.expandStep m, hopc, hm⟩
  | round k => obtain ⟨m, hm⟩ := exists_index h; exact ⟨.round m, hopc, hm⟩
  | _ => exact ⟨_, hopc, ((noImm_reserved_iff _).2 h).symm⟩

/-- The word of any operation decodes to it, or is invalid by R73 (c). -/
theorem decode_encode (i : Instr) : decode (encode i) = if i.wf then .ok i else .error .scheduleIndex := by
  obtain ⟨hopc, himm⟩ := encodedFields i
  rw [decode_eq_row hopc.symm, himm]
  cases i with
  | rotr n | shr n => exact withAmount_setWidth n _
  | expandStep k => rw [Instr.row, imm8, withIndex_setWidth, checkIndex]
  | round k => exact withIndex_setWidth k _
  | _ => rfl

theorem decode_encode_of_wf {i : Instr} (h : i.wf = true) : decode (encode i) = .ok i := by
  rw [decode_encode, if_pos h]

/-- A word that decodes is spelled by some operation: it fails neither (a) nor (b) of R73. -/
theorem exists_encode_eq_of_decode {w : OpWord} {i : Instr} (h : decode w = .ok i) : ∃ j, encode j = w := by
  by_cases hrow : ∃ j, opcode j = opcField w
  · obtain ⟨j, hopc⟩ := hrow
    by_cases himm : immField w &&& reservedImm j = 0#8
    · exact exists_encode_eq hopc himm
    · simp [decode_of_reserved hopc himm] at h
  · simp [decode_of_opcode_ne (not_exists.1 hrow)] at h

end Sys2Proof
end

section
/-! SUPPORT. Words and operations are each other's readings (30_encoding.md R69 to R73), what a step does with the
request of an operation (R72, R160), and the frame of a word operation. -/

namespace Sys2Proof.Machine

/-! ## Words and operations -/

/-- Settles O2: `decode_encode` where the index check passes. -/
theorem decodeOfEncodeIsTheOperation : Obligations.DecodeOfEncodeIsTheOperation :=
  fun _ => decode_encode_of_wf

/-- Settles O3: the word is spelled by some operation, and by `decode_encode` that is the one decoded. -/
theorem encodeOfDecodeIsTheWord : Obligations.EncodeOfDecodeIsTheWord := by
  intro w i h
  obtain ⟨j, rfl⟩ := exists_encode_eq_of_decode h
  rw [decode_encode] at h
  split at h
  case isTrue hwf => cases h; exact ⟨hwf, rfl⟩
  case isFalse => cases h

/-- Settles O4: a word of a row with no reserved bit set is spelled by an operation, whose index check decides between
(c) and a reading. -/
theorem invalidWordsAreRefused : Obligations.InvalidWordsAreRefused := by
  intro w
  refine ⟨decode_of_opcode_ne, fun i => decode_of_reserved, fun hopc himm hlt => ?_, fun i hopc himm hindex => ?_,
    fun s b rest v hp h => ?_⟩
  · obtain ⟨j, hj⟩ := exists_encode_eq (i := .expandStep 0) hopc.symm himm
    obtain ⟨hjopc, hjimm⟩ := encode_eq_iff.1 hj
    have hwf : ¬ j.wf = true := by
      rw [Instr.wf_iff, hjopc, hjimm]
      exact fun hle => absurd (hle hopc) (by omega)
    rw [← hj, decode_encode, if_neg hwf]
  · obtain ⟨j, hj⟩ := exists_encode_eq hopc himm
    obtain ⟨hjopc, hjimm⟩ := encode_eq_iff.1 hj
    have hwf : j.wf = true := Instr.wf_iff.2 (hjopc ▸ hjimm ▸ hindex)
    exact ⟨j, hj ▸ decode_encode_of_wf hwf, hj⟩
  · exact (step_cons hp).trans (serveOp_error h)

/-- Settles O1: each row is the word of its operation; an immediate below a zero field is the widened immediate. -/
theorem operationMapDecodes : Obligations.OperationMapDecodes := by
  have hrow (i : Instr) (h : i.wf = true) : decode (opcode i ++ imm8 i) = .ok i := decode_encode_of_wf h
  simp only [Obligations.OperationMapDecodes, zero_append_eq_setWidth]
  exact ⟨hrow .add rfl, hrow .and rfl, hrow .or rfl, hrow .xor rfl, hrow .not rfl, fun n => hrow (.rotr n) rfl,
    fun n => hrow (.shr n) rfl, hrow .bsig0 rfl, hrow .bsig1 rfl, hrow .ch rfl, hrow .maj rfl, hrow .ssig0 rfl,
    hrow .ssig1 rfl, fun k h => hrow (.expandStep k) (decide_eq_true h), hrow .expand rfl, hrow .padgen rfl,
    hrow .initIv rfl, fun k => hrow (.round k) rfl, hrow .compressW rfl, hrow .compressP rfl, hrow .powHash rfl,
    hrow .chainHash rfl, hrow .nonceGen rfl, hrow .test rfl, hrow .record rfl, hrow .trial rfl, hrow .laneRun rfl,
    hrow .launch rfl⟩

/-! ## The step that serves an operation -/

/-- A listing word that decodes is performed with the operands beside it. -/
theorem step_listing {s : State} {w : OpWord} {b : Binding} {rest : List Request} {i : Instr}
    (hp : s.pending = .listing w b :: rest) (h : decode w = .ok i) :
    step s = serveInstr { s with pending := rest } i b :=
  (step_cons hp).trans (serveOp_ok h)

/-- A placed word that decodes is performed with the operands of a word alone (log 7). -/
theorem step_withFetchWord {s : State} {w : OpWord} {i : Instr} (h : decode w = .ok i) :
    step (s.withFetchWord 16 w.toNat) = serveInstr s i Binding.default := by
  have hw : BitVec.ofNat 16 (w.toNat % 2 ^ 16) = w := by
    rw [Nat.mod_eq_of_lt w.isLt, BitVec.ofNat_toNat, BitVec.setWidth_eq]
  rw [State.withFetchWord_eq, hw]
  exact step_listing (placeWord_pending s w) h

/-- Settles O5: each request is served by `serveInstr`, whose outcome is that of `exec` but for a refused `LAUNCH`. -/
theorem stepRunsTheDecodedOperation : Obligations.StepRunsTheDecodedOperation := by
  intro s u i hreq
  have hstep : step s = goOn { u with bind := s.bind } (exec i u) := by
    rcases hreq with ⟨w, b, rest, hp, h, rfl⟩ | ⟨offset, rest, hp, rfl, rfl⟩ | ⟨s0, w, h, rfl, rfl⟩
    · exact step_listing hp h
    · exact step_cons hp
    · exact step_withFetchWord h
  rw [hstep]
  exact ⟨goOn_of_ne, fun c h => by rw [h, goOn]⟩

/-! ## Word operations -/

/-- Settles O13: the next state is one write to the destination, and `WordReg.write` reaches no other register. -/
theorem wordOperationsChangeOnlyTheirDestination : Obligations.WordOperationsChangeOnlyTheirDestination := by
  intro i s t hi h
  obtain ⟨r, v, hr, rfl⟩ := exec_wordOp_eq_next hi h
  have hlane : (s.lanes.set s.bind.lane (s.bind.dst.write r v))[s.bind.lane]? = some (s.bind.dst.write r v) :=
    List.getElem?_set_self (List.getElem?_eq_some_iff.1 hr).1
  exact ⟨r, _, hr, hlane, rfl, ⟨v, WordReg.cell_write_same r v _⟩, fun n hn => WordReg.cell_write_ne r v _ n hn.symm,
    WordReg.write_j r v _, WordReg.write_lid r v _, WordReg.write_hit r v _, WordReg.write_lseq r v _,
    fun _ => rfl, fun _ => rfl⟩

end Sys2Proof.Machine
end

section
/-! SUPPORT. The word operations and the round functions (40_round_functions.md R81 to R91, R93; 41_message_schedule.md
R96, R97): what a word operation answers on readable operands, and the bits of the words it answers. -/

namespace Sys2Proof.Machine

/-! ## What a word operation answers on readable operands -/

section
variable {s : State} {r : Lane} {x y z : Word}

theorem wordOp1_next (f : Word → Word) (hr : s.lanes[s.bind.lane]? = some r) (hx : s.bind.x.value r = .ok x) :
    wordOp1 s f = .next (s.setLane s.bind.lane (s.bind.dst.write r (f x))) :=
  wordOp1_eq_next.2 ⟨r, x, hr, hx, rfl⟩

theorem wordOp2_next (f : Word → Word → Word) (hr : s.lanes[s.bind.lane]? = some r)
    (hx : s.bind.x.value r = .ok x) (hy : s.bind.y.value r = .ok y) :
    wordOp2 s f = .next (s.setLane s.bind.lane (s.bind.dst.write r (f x y))) :=
  wordOp2_eq_next.2 ⟨r, x, y, hr, hx, hy, rfl⟩

theorem wordOp3_next (f : Word → Word → Word → Word) (hr : s.lanes[s.bind.lane]? = some r)
    (hx : s.bind.x.value r = .ok x) (hy : s.bind.y.value r = .ok y) (hz : s.bind.z.value r = .ok z) :
    wordOp3 s f = .next (s.setLane s.bind.lane (s.bind.dst.write r (f x y z))) :=
  wordOp3_eq_next.2 ⟨r, x, y, z, hr, hx, hy, hz, rfl⟩

end

/-! ## Addition (R81) -/

theorem addW_assoc (x y z : Word) : addW (addW x y) z = addW x (addW y z) := by
  simp only [addW_eq, BitVec.add_assoc]

theorem addW_comm (x y : Word) : addW x y = addW y x := by
  simp only [addW_eq, BitVec.add_comm]

theorem toNat_addW (x y : Word) : (addW x y).toNat = (x.toNat + y.toNat) % 2 ^ 32 :=
  BitVec.toNat_ofNat _ _

/-- Settles O6: `ADD` answers `addW`, which is the sum of machine words. -/
theorem addAnswersTheWrappedSum : Obligations.AddAnswersTheWrappedSum :=
  ⟨decode_encode_of_wf (i := .add) rfl, fun x y z => ⟨addW_assoc x y z, addW_comm x y⟩,
    fun _ _ x y hr hx hy => ⟨addW x y, toNat_addW x y, wordOp2_next addW hr hx hy⟩⟩

/-! ## Logic (R82 to R85) -/

theorem getLsbD_andW (x y : Word) (k : Nat) : (andW x y).getLsbD k = (x.getLsbD k && y.getLsbD k) :=
  BitVec.getLsbD_and

theorem getLsbD_orW (x y : Word) (k : Nat) : (orW x y).getLsbD k = (x.getLsbD k || y.getLsbD k) :=
  BitVec.getLsbD_or

theorem getLsbD_xorW (x y : Word) (k : Nat) : (xorW x y).getLsbD k = (x.getLsbD k != y.getLsbD k) :=
  BitVec.getLsbD_xor

theorem getLsbD_notW (x : Word) {k : Nat} (hk : k < 32) : (notW x).getLsbD k = !x.getLsbD k := by
  simp [notW_eq, hk]

/-- Settles O7: each operation answers its function of words, whose bits are the four lemmas above. -/
theorem logicOperationsWorkBitByBit : Obligations.LogicOperationsWorkBitByBit := by
  refine ⟨decode_encode_of_wf (i := .and) rfl, decode_encode_of_wf (i := .or) rfl,
    decode_encode_of_wf (i := .xor) rfl, decode_encode_of_wf (i := .not) rfl,
    fun s r x hr hx => ⟨?_, fun y hy => ⟨?_, ?_, ?_⟩⟩⟩
  · exact ⟨notW x, fun k hk => getLsbD_notW x hk, wordOp1_next notW hr hx⟩
  · exact ⟨andW x y, fun k _ => getLsbD_andW x y k, wordOp2_next andW hr hx hy⟩
  · exact ⟨orW x y, fun k _ => getLsbD_orW x y k, wordOp2_next orW hr hx hy⟩
  · exact ⟨xorW x y, fun k _ => getLsbD_xorW x y k, wordOp2_next xorW hr hx hy⟩

/-! ## Rotation and shift (R86, R87) -/

/-- R86's own reading of its pseudocode, for any amount. -/
theorem getLsbD_rotrW (x : Word) (n : Nat) {k : Nat} (hk : k < 32) :
    (rotrW x n).getLsbD k = x.getLsbD ((k + n) % 32) := by
  rw [rotrW_eq, BitVec.getLsbD_rotateRight]
  by_cases hwrap : k < 32 - n % 32
  · have hbit : (k + n) % 32 = n % 32 + k := by omega
    simp [hwrap, hbit]
  · have hbit : (k + n) % 32 = k - (32 - n % 32) := by omega
    simp [hwrap, hk, hbit]

theorem toNat_shrW (x : Word) (n : BitVec 5) : (shrW x n).toNat = x.toNat / 2 ^ n.toNat := by
  rw [shrW, BitVec.toNat_ushiftRight, Nat.shiftRight_eq_div_pow]

/-- R73 (b) for a word given by its two fields. -/
theorem decode_append_of_reserved (i : Instr) {imm : BitVec 8} (h : imm &&& reservedImm i ≠ 0#8) :
    decode (opcode i ++ imm) = .error .immediate := by
  have himm : immField (opcode i ++ imm) = imm := BitVec.extractLsb'_append_eq_right
  exact decode_of_reserved (i := i) BitVec.extractLsb'_append_eq_left.symm (himm.symm ▸ h)

theorem decode_rotr (n : BitVec 5) : decode (0x06#8 ++ (0#3 ++ n) : BitVec (8 + (3 + 5))) = .ok (.rotr n) := by
  rw [zero_append_eq_setWidth]
  exact decode_encode_of_wf (i := .rotr n) rfl

theorem decode_shr (n : BitVec 5) : decode (0x07#8 ++ (0#3 ++ n) : BitVec (8 + (3 + 5))) = .ok (.shr n) := by
  rw [zero_append_eq_setWidth]
  exact decode_encode_of_wf (i := .shr n) rfl

/-- Settles O8: `getLsbD_rotrW` for the function and for the word the operation answers. -/
theorem rotateMovesEachBit : Obligations.RotateMovesEachBit :=
  ⟨fun x n _ => getLsbD_rotrW x n, fun _ => decode_append_of_reserved (.rotr 0), fun n _ _ x hr hx =>
    ⟨decode_rotr n, rotrW x n.toNat, fun _ => getLsbD_rotrW x n.toNat, wordOp1_next (rotrW · n.toNat) hr hx⟩⟩

/-- Settles O9: `SHR` answers `shrW`, a division by a power of two. -/
theorem shiftRightDividesByAPowerOfTwo : Obligations.ShiftRightDividesByAPowerOfTwo :=
  ⟨fun _ => decode_append_of_reserved (.shr 0), fun n _ _ x hr hx =>
    ⟨decode_shr n, shrW x n, toNat_shrW x n, wordOp1_next (shrW · n) hr hx⟩⟩

/-! ## The four sigmas (R88, R89, R96, R97) -/

/-- Settles O10: each operation answers its function of words, which is the rule's by `bsig0W_eq` and its like. -/
theorem sigmasAnswerTheirRotations : Obligations.SigmasAnswerTheirRotations := by
  refine ⟨decode_encode_of_wf (i := .bsig0) rfl, decode_encode_of_wf (i := .bsig1) rfl,
    decode_encode_of_wf (i := .ssig0) rfl, decode_encode_of_wf (i := .ssig1) rfl,
    fun s r x hr hx => ⟨?_, ?_, ?_, ?_⟩⟩
  · exact (congrArg (wordOp1 s) (funext bsig0W_eq)).trans (wordOp1_next Ref.bsig0 hr hx)
  · exact (congrArg (wordOp1 s) (funext bsig1W_eq)).trans (wordOp1_next Ref.bsig1 hr hx)
  · exact (congrArg (wordOp1 s) (funext ssig0W_eq)).trans (wordOp1_next Ref.ssig0 hr hx)
  · exact (congrArg (wordOp1 s) (funext ssig1W_eq)).trans (wordOp1_next Ref.ssig1 hr hx)

/-! ## Choice and majority (R90, R91) -/

theorem getLsbD_chW (e f g : Word) {k : Nat} (hk : k < 32) :
    (chW e f g).getLsbD k = if e.getLsbD k then f.getLsbD k else g.getLsbD k := by
  rw [chW, getLsbD_xorW, getLsbD_andW, getLsbD_andW, getLsbD_notW e hk]
  cases e.getLsbD k <;> simp

theorem getLsbD_majW (a b c : Word) (k : Nat) : (majW a b c).getLsbD k =
    decide (2 ≤ (a.getLsbD k).toNat + (b.getLsbD k).toNat + (c.getLsbD k).toNat) := by
  simp only [majW, getLsbD_xorW, getLsbD_andW]
  cases a.getLsbD k <;> cases b.getLsbD k <;> cases c.getLsbD k <;> rfl

/-- Settles O11: `CH` and `MAJ` answer `chW` and `majW`, whose bits are the two lemmas above. -/
theorem chooseAndMajorityWorkBitByBit : Obligations.ChooseAndMajorityWorkBitByBit := by
  refine ⟨decode_encode_of_wf (i := .ch) rfl, decode_encode_of_wf (i := .maj) rfl,
    fun s r x y z hr hx hy hz => ⟨?_, ?_⟩⟩
  · exact ⟨chW x y z, chW_eq x y z, fun k hk => getLsbD_chW x y z hk, wordOp3_next chW hr hx hy hz⟩
  · exact ⟨majW x y z, majW_eq x y z, fun k _ => getLsbD_majW x y z k, wordOp3_next majW hr hx hy hz⟩

/-! ## Laws of the round functions (R93) -/

theorem rotrW_xor (x y : Word) (n : Nat) : rotrW (x ^^^ y) n = rotrW x n ^^^ rotrW y n := by
  refine BitVec.eq_of_getLsbD_eq fun k hk => ?_
  simp only [BitVec.getLsbD_xor, getLsbD_rotrW _ n hk]

theorem bsig0W_xor (x y : Word) : bsig0W (x ^^^ y) = bsig0W x ^^^ bsig0W y := by
  simp only [bsig0W, xorW, rotrW_xor]
  ac_rfl

theorem bsig1W_xor (x y : Word) : bsig1W (x ^^^ y) = bsig1W x ^^^ bsig1W y := by
  simp only [bsig1W, xorW, rotrW_xor]
  ac_rfl

/-- The two terms of `CH` have no bit in common: one takes only bits of `e`, the other none of them. -/
theorem choose_terms_disjoint (e f g : Word) : (e &&& f) &&& (~~~e &&& g) = 0#32 := by
  calc (e &&& f) &&& (~~~e &&& g) = (e &&& ~~~e) &&& (f &&& g) := by ac_rfl
    _ = 0#32 := by rw [BitVec.and_not_self]; exact BitVec.zero_and

theorem chW_eq_or (e f g : Word) : chW e f g = (e &&& f) ||| (~~~e &&& g) := by
  refine BitVec.eq_of_getLsbD_eq fun k hk => ?_
  rw [getLsbD_chW e f g hk, BitVec.getLsbD_or, BitVec.getLsbD_and, BitVec.getLsbD_and, BitVec.getLsbD_not]
  cases e.getLsbD k <;> simp [hk]

theorem chW_eq_add (e f g : Word) : chW e f g = (e &&& f) + (~~~e &&& g) := by
  rw [chW_eq_or, BitVec.add_eq_or_of_and_eq_zero _ _ (choose_terms_disjoint e f g)]

theorem majW_eq_or (a b c : Word) : majW a b c = (a &&& b) ||| (a &&& c) ||| (b &&& c) := by
  refine BitVec.eq_of_getLsbD_eq fun k _ => ?_
  simp only [majW, getLsbD_xorW, getLsbD_andW, BitVec.getLsbD_or, BitVec.getLsbD_and]
  cases a.getLsbD k <;> cases b.getLsbD k <;> cases c.getLsbD k <;> rfl

theorem majW_swap_left (a b c : Word) : majW a b c = majW b a c := by
  simp only [majW_eq_or]
  ac_rfl

theorem majW_swap_right (a b c : Word) : majW a b c = majW a c b := by
  simp only [majW_eq_or]
  ac_rfl

/-- Settles O12: `ROTR` is linear bit by bit and the sigmas by it; the terms of `CH` are disjoint, so their XOR, OR and
sum agree. -/
theorem roundFunctionLaws : Obligations.RoundFunctionLaws :=
  ⟨bsig0W_xor, bsig1W_xor, rotrW_xor,
    fun e f g => ⟨choose_terms_disjoint e f g, chW_eq_or e f g, chW_eq_add e f g⟩, majW_eq_or,
    fun a b c => ⟨majW_swap_left a b c, majW_swap_right a b c⟩⟩

end Sys2Proof.Machine
end

section
/-! SUPPORT. The message schedule (41_message_schedule.md R98, R99): the words of `Ref.extend`, and what `EXPAND_STEP`
and `EXPAND` answer on written words. -/

namespace Sys2Proof.Machine

/-! ## The recurrence -/

/-- More steps append words. -/
theorem Ref.extend_eq_append_of_le (m : List Word) {a b : Nat} (h : a ≤ b) :
    ∃ t, Ref.extend b m = Ref.extend a m ++ t := by
  induction b, h using Nat.le_induction with
  | base => exact ⟨[], (List.append_nil _).symm⟩
  | succ b _ ih =>
    obtain ⟨t, ht⟩ := ih
    exact ⟨_, (congrArg (· ++ _) ht).trans (List.append_assoc ..)⟩

theorem Ref.getD_extend_of_le (m : List Word) {a b i : Nat} (hab : a ≤ b) (hi : i < m.length + a) :
    (Ref.extend b m).getD i 0 = (Ref.extend a m).getD i 0 := by
  obtain ⟨t, ht⟩ := Ref.extend_eq_append_of_le m hab
  rw [ht, List.getD_append _ _ _ _ (by rwa [Ref.length_extend])]

theorem Ref.take_extend (m : List Word) (n : Nat) : (Ref.extend n m).take m.length = m := by
  obtain ⟨t, ht⟩ := Ref.extend_eq_append_of_le m n.zero_le
  rw [ht, Ref.extend, List.take_left]

/-- Each word after a raw block is that of the recurrence over the whole list, however far the list goes on (R98). -/
theorem Ref.getD_extend {m : List Word} (hm : m.length = 16) {n i : Nat} (hle : 16 ≤ i) (hlt : i < 16 + n) :
    (Ref.extend n m).getD i 0 = (Ref.extend n m).getD (i - 16) 0 + Ref.ssig0 ((Ref.extend n m).getD (i - 15) 0) +
      (Ref.extend n m).getD (i - 7) 0 + Ref.ssig1 ((Ref.extend n m).getD (i - 2) 0) := by
  obtain ⟨k, rfl⟩ := Nat.exists_eq_add_of_le hle
  have hlast : ∀ x, (Ref.extend k m ++ [x]).getD (16 + k) 0 = x := fun x => by
    rw [List.getD_append_right _ _ _ _ (by simp [hm])]
    simp [hm]
  have before : ∀ d j, 16 + k - d = j → j < 16 + k →
      (Ref.extend n m).getD (16 + k - d) 0 = (Ref.extend k m).getD j 0 := by
    rintro d j rfl hj
    exact Ref.getD_extend_of_le m (by omega) (by rwa [hm])
  rw [Ref.getD_extend_of_le m (by omega : k + 1 ≤ n) (by omega), Ref.extend, hlast,
    before 16 k (by omega) (by omega), before 15 (k + 1) (by omega) (by omega),
    before 7 (k + 9) (by omega) (by omega), before 2 (k + 14) (by omega) (by omega)]

/-! ## The operations -/

/-- The word of `EXPAND_STEP #k` is the operation, or invalid by R73 (c). -/
theorem decode_expandStep (k : BitVec 6) :
    decode (0x22#8 ++ (0#2 ++ k) : BitVec (8 + (2 + 6))) =
      if 16 ≤ k.toNat then .ok (.expandStep k) else .error .scheduleIndex := by
  rw [zero_append_eq_setWidth]
  have h := decode_encode (.expandStep k)
  simp only [Instr.wf, decide_eq_true_eq] at h
  exact h

/-- `EXPAND_STEP` with its four source words written writes the one word of the recurrence (R98). -/
theorem execExpandStep_next {s : State} {r : Lane} {k : BitVec 6} {w16 w15 w7 w2 : Word} (hk : 16 ≤ k.toNat)
    (hr : s.lanes[s.bind.lane]? = some r) (h16 : (r.schedule s.bind.layer)[at64 (k.toNat - 16)] = .holds w16)
    (h15 : (r.schedule s.bind.layer)[at64 (k.toNat - 15)] = .holds w15)
    (h7 : (r.schedule s.bind.layer)[at64 (k.toNat - 7)] = .holds w7)
    (h2 : (r.schedule s.bind.layer)[at64 (k.toNat - 2)] = .holds w2) :
    execExpandStep k s = .next (s.setLane s.bind.lane (r.setSchedule
      (setAt (r.schedule s.bind.layer) (at64 k.toNat) (w16 + Ref.ssig0 w15 + w7 + Ref.ssig1 w2)) s.bind.layer)) := by
  have hstep := expandAt_eq_ok.2 ⟨w16, w15, w7, w2, h16, h15, h7, h2, rfl⟩
  simp only [ssig0W_eq, ssig1W_eq, addW_eq] at hstep
  rw [execExpandStep, if_pos hk]
  exact onLane_eq_next.2 ⟨r, _, hr, bind_eq_ok.2 ⟨_, hstep, rfl⟩, rfl⟩

/-- Settles O16: a written step, an unwritten source word, and the index check of the decoder and of the meaning. -/
theorem expandStepWritesOneWord : Obligations.ExpandStepWritesOneWord := by
  refine ⟨fun k hk => ⟨?_, fun s r w16 w15 w7 w2 => execExpandStep_next hk⟩,
    fun k s r d hk hr => execExpandStep_unwritten hr hk, fun k hk => ⟨?_, fun s => ?_⟩⟩
  · rw [decode_expandStep, if_pos hk]
  · rw [decode_expandStep, if_neg hk.not_ge]
  · exact if_neg hk.not_ge

/-- Settles O17: `EXPAND` answers with the words of `Ref.expand`, which keep the raw block and follow the recurrence. -/
theorem expandExtendsTheRawBlock : Obligations.ExpandExtendsTheRawBlock := by
  refine ⟨decode_encode_of_wf (i := .expand) rfl, fun s r m hr hraw => ?_⟩
  obtain ⟨x, hexpand, hare⟩ := expandAll_are hraw
  have hexec : execExpand s = .next (s.setLane s.bind.lane (r.setSchedule x s.bind.layer)) :=
    onLane_eq_next.2 ⟨r, _, hr, expandLayer_eq_ok.2 ⟨x, hexpand, rfl⟩, rfl⟩
  exact ⟨Ref.expand m, hare.1, hraw.1 ▸ Ref.take_extend m 48,
    fun _ hle hlt => Ref.getD_extend (n := 48) hraw.1 hle hlt, x, hare, hexec⟩

end Sys2Proof.Machine
end

section
/-! SUPPORT. The compression (42_compression.md R106 to R113): all that a compression over written words writes, that the
two call shapes agree, and the single-block pipeline. -/

namespace Sys2Proof.Machine

/-! ## What an operation of a lane answers -/

section
variable {s : State} {r r' : Lane}

/-- An operation of a lane answers with the lane it makes. -/
theorem onLane_next {op : Lane → Except Fault Lane} (hr : s.lanes[s.bind.lane]? = some r) (h : op r = .ok r') :
    onLane s op = .next (s.setLane s.bind.lane r') :=
  onLane_eq_next.2 ⟨r, r', hr, h, rfl⟩

/-- Two operations of a lane that agree on the lane named have one outcome. -/
theorem onLane_congr {op op' : Lane → Except Fault Lane} (hr : s.lanes[s.bind.lane]? = some r) (h : op r = op' r) :
    onLane s op = onLane s op' := by
  simp only [onLane, hr, h]

/-- A lane put back is there to be read. -/
theorem State.setLane_getElem?_same {l : Nat} (hr : s.lanes[l]? = some r) (r' : Lane) :
    (s.setLane l r').lanes[l]? = some r' :=
  List.getElem?_set_self (List.getElem?_eq_some_iff.1 hr).1

end

@[simp] theorem Lane.setSchedule_schedule (r : Lane) (y : Layer) : r.setSchedule (r.schedule y) y = r := by
  cases y <;> rfl

/-! ## One round -/

/-- The word of `ROUND #k` is the operation (30_encoding.md R70, R71). -/
theorem decode_round (k : BitVec 6) : decode (0x31#8 ++ (0#2 ++ k) : BitVec (8 + (2 + 6))) = .ok (.round k) := by
  rw [zero_append_eq_setWidth]
  exact decode_encode_of_wf (i := .round k) rfl

/-- Settles O20: the schedule word and the round constant are read, and `roundWith_eq_ok` gives every register written. -/
theorem roundUpdatesTheWorkingRegisters : Obligations.RoundUpdatesTheWorkingRegisters := by
  rintro k s r x w c hr hrom ⟨ha, hb, hc, hd, he, hf, hg, hh⟩ hw rfl
  have hk : s.rom.roundConstant (at64 k.toNat) = Ref.k.getD k.toNat 0 := by
    rw [hrom, roundConstant_romStandard, at64_val k.isLt]
  refine ⟨decode_round k, onLane_next hr (roundAt_eq_ok.2 ⟨w, hw, roundWith_eq_ok.2
    ⟨x.a, x.b, x.c, x.d, x.e, x.f, x.g, x.h, ha, hb, hc, hd, he, hf, hg, hh, ?_⟩⟩)⟩
  simp only [hk, addW_eq, bsig0W_eq, bsig1W_eq, chW_eq, majW_eq]

/-! ## What a compression writes -/

/-- Rounds, at least one, leave `T1` and `T2` written. -/
theorem roundsFirst_temporaries {rom : Rom} {n : SchedName} {m : Nat} {r r' : Lane}
    (h : roundsFirst rom n (m + 1) r = .ok r') : ∃ t1 t2, r'.t1 = .holds t1 ∧ r'.t2 = .holds t2 := by
  obtain ⟨r1, -, hround⟩ := roundsFirst_succ_eq_ok.1 h
  obtain ⟨w, -, hround⟩ := roundAt_eq_ok.1 hround
  obtain ⟨a, b, c, d, e, f, g, h, -, -, -, -, -, -, -, -, rfl⟩ := roundWith_eq_ok.1 hround
  exact ⟨_, _, rfl, rfl⟩

theorem compressOver_temporaries {rom : Rom} {y : Layer} {n : SchedName} {r r' : Lane}
    (h : compressOver rom y n r = .ok r') : ∃ t1 t2, r'.t1 = .holds t1 ∧ r'.t2 = .holds t2 := by
  obtain ⟨r1, r2, -, hrounds, hforward⟩ := compressOver_eq_ok.1 h
  obtain ⟨t1, t2, h1, h2⟩ := roundsFirst_temporaries hrounds
  obtain ⟨hkept1, hkept2⟩ := feedForward_changesOnly hforward .temporaries (by cases y <;> simp)
  exact ⟨t1, t2, hkept1.trans h1, hkept2.trans h2⟩

/-- A lane that differs from another in a hash state, the working registers, `T1` and `T2` only. -/
theorem Lane.eq_of_changesOnly_hash {y : Layer} {r r' : Lane}
    (h : Lane.ChangesOnly [.working, .temporaries, y.hashGroup] r r') :
    r' = { r.setHash (r'.hash y) y with
      t1 := r'.t1, t2 := r'.t2, a := r'.a, b := r'.b, c := r'.c, d := r'.d, e := r'.e, f := r'.f,
      g := r'.g, h := r'.h } := by
  have kept := h.mono (gs' := [.working, .temporaries, .hp, .hc]) (by cases y <;> simp)
  have hwp : r'.wp = r.wp := kept .wp (by decide)
  have hwc : r'.wc = r.wc := kept .wc (by decide)
  have hnonce : r'.nonce = r.nonce := kept .nonce (by decide)
  have hj : r'.j = r.j := kept .j (by decide)
  have hlid : r'.lid = r.lid := kept .lid (by decide)
  have hhit : r'.hit = r.hit := kept .hit (by decide)
  have hlseq : r'.lseq = r.lseq := kept .lseq (by decide)
  cases y with
  | pow =>
    have hhc : r'.hc = r.hc := h .hc (by simp)
    simp only [Lane.setHash, Lane.hash, ← hwp, ← hwc, ← hnonce, ← hj, ← hlid, ← hhit, ← hlseq, ← hhc]
  | chain =>
    have hhp : r'.hp = r.hp := h .hp (by simp)
    simp only [Lane.setHash, Lane.hash, ← hwp, ← hwc, ← hnonce, ← hj, ← hlid, ← hhit, ← hlseq, ← hhp]

/-- A compression of a written hash state over a written schedule, with all it writes (R107, R109, R111). -/
theorem compressOver_writes {y : Layer} {n : SchedName} {r : Lane} {v : Vector Word 8} {w : List Word}
    (hv : r.hash y = hashHolding v) (hw : n.words r w) :
    ∃ r' t1 t2, compressOver romStandard y n r = .ok r' ∧ r'.working (Ref.rounds w 64 (Working.ofHash v)) ∧
      r' = { r.setHash (hashHolding (Ref.compress v w)) y with
        t1 := .holds t1, t2 := .holds t2, a := r'.a, b := r'.b, c := r'.c, d := r'.d, e := r'.e, f := r'.f,
        g := r'.g, h := r'.h } := by
  obtain ⟨r', hcompress, hhash, hworking⟩ := compressOver_ref hv hw
  obtain ⟨t1, t2, h1, h2⟩ := compressOver_temporaries hcompress
  refine ⟨r', t1, t2, hcompress, hworking, ?_⟩
  rw [← hhash, ← h1, ← h2]
  exact Lane.eq_of_changesOnly_hash (compressOver_changesOnly hcompress)

/-- Settles O21: the layer's own schedule gives the words of the compression. -/
theorem compressWCompressesTheLayersSchedule : Obligations.CompressWCompressesTheLayersSchedule := by
  refine ⟨decode_encode_of_wf (i := .compressW) rfl, fun s r v w hr hrom hv hare => ?_⟩
  obtain ⟨r', t1, t2, hcompress, hwrites⟩ := compressOver_writes hv (SchedName.words_layerSched hare)
  rw [← hrom] at hcompress
  exact ⟨r', t1, t2, onLane_next hr hcompress, hwrites⟩

/-- Settles O22: the table `WPAD`, which is the expansion of `PADRAW`, gives the words of the compression. -/
theorem compressPCompressesThePaddingSchedule : Obligations.CompressPCompressesThePaddingSchedule := by
  refine ⟨decode_encode_of_wf (i := .compressP) rfl, fun s r v hr hrom hv => ?_⟩
  obtain ⟨r', t1, t2, hcompress, hwrites⟩ := compressOver_writes (y := .chain) hv (SchedName.words_wpad r)
  rw [← hrom] at hcompress
  exact ⟨r', t1, t2, onLane_next hr hcompress, hwrites⟩

/-! ## The two call shapes -/

section
variable {rom : Rom} {n n' : SchedName} {r r' : Lane}

/-- Two schedules with the same words, or the same faults, stay so while neither is written. -/
theorem schedWord_congr_of_changesOnly {gs : List RegGroup} (hkept : Lane.ChangesOnly gs r r')
    (hwp : .wp ∉ gs) (hwc : .wc ∉ gs) (h : ∀ i, schedWord rom r n i = schedWord rom r n' i) (i : Fin 64) :
    schedWord rom r' n i = schedWord rom r' n' i := by
  rw [schedWord_of_changesOnly hkept hwp hwc, schedWord_of_changesOnly hkept hwp hwc, h]

/-- Rounds over two such schedules have the same result. -/
theorem roundsFirst_congr (h : ∀ i, schedWord rom r n i = schedWord rom r n' i) (m : Nat) :
    roundsFirst rom n m r = roundsFirst rom n' m r := by
  induction m with
  | zero => rfl
  | succ m ih =>
    rw [roundsFirst, roundsFirst, ih]
    cases hrounds : roundsFirst rom n' m r with
    | error f => rfl
    | ok r1 =>
      have hword := schedWord_congr_of_changesOnly (roundsFirst_changesOnly hrounds) (by simp) (by simp) h (at64 m)
      rw [ok_bind, ok_bind, roundAt, roundAt, hword]

theorem compressOver_congr (y : Layer) (h : ∀ i, schedWord rom r n i = schedWord rom r n' i) :
    compressOver rom y n r = compressOver rom y n' r := by
  rw [compressOver, compressOver]
  cases hload : loadWorking (r.hash y) r with
  | error f => rfl
  | ok r1 =>
    have hwords := schedWord_congr_of_changesOnly (loadWorking_changesOnly hload) (by simp) (by simp) h
    rw [ok_bind, ok_bind, roundsFirst_congr hwords]

end

/-- Settles O23: `WPAD` and `WC` give the rounds the same words. -/
theorem theTwoCompressionsAgree : Obligations.TheTwoCompressionsAgree := by
  intro s r hr hlayer hwc
  have hwords : ∀ i, schedWord s.rom r .wpad i = schedWord s.rom r .wc i := fun i => by
    rw [schedWord, schedWord, hwc i, Reg.get_holds]
  refine onLane_congr hr ?_
  rw [compressPLane, compressWLayer, hlayer]
  exact compressOver_congr .chain hwords

/-! ## The pipeline over a single block -/

/-- `INIT_IV` writes the table `IV` to the layer's hash state (R106). -/
theorem execInitIv_next {s : State} {r : Lane} (hr : s.lanes[s.bind.lane]? = some r) :
    execInitIv s = .next (s.setLane s.bind.lane (initIvLayer s.rom s.bind.layer r)) := onLane_next hr rfl

/-- Settles O19: the eight words are those of `ivTable`. -/
theorem initIvLoadsTheInitialValue : Obligations.InitIvLoadsTheInitialValue := by
  refine ⟨decode_encode_of_wf (i := .initIv) rfl, fun s r hr hrom =>
    ⟨hashHolding ivTable, rfl, rfl, rfl, rfl, rfl, rfl, rfl, rfl, ?_⟩⟩
  have hexec := execInitIv_next hr
  rwa [hrom] at hexec

@[simp] theorem Ref.length_serialise (w : List Word) : (Ref.serialise w).length = 4 * w.length := by
  induction w with
  | nil => rfl
  | cons x xs ih =>
    rw [Ref.serialise] at ih ⊢
    simp [ih, Ref.bytesOf]
    omega

/-- A message of at most 55 bytes is padded to one block. -/
theorem Ref.length_padded_of_le {msg : List (BitVec 8)} (h : msg.length ≤ 55) : (Ref.padded msg).length = 64 := by
  simp only [Ref.padded, List.length_append, List.length_replicate, Ref.length_serialise, List.length_cons,
    List.length_nil]
  omega

/-- SHA-256 of such a message is one compression of the initial value. -/
theorem Ref.sha256_of_length_le {msg : List (BitVec 8)} (h : msg.length ≤ 55) :
    Ref.sha256 msg = Ref.serialise
      (Ref.compress ivTable (Ref.expand ((List.range 16).map (Ref.wordAt (Ref.padded msg))))).toList := by
  have hone : (Ref.padded msg).length / 64 = 0 + 1 := by rw [Ref.length_padded_of_le h]
  simp only [Ref.sha256, hone, Ref.afterBlocks, Nat.mul_zero, Nat.zero_add]

/-- Settles O24: the pipeline is `layer_ref` over the block the schedule starts with, operation by operation. -/
theorem singleBlockPipelineIsSha256 : Obligations.SingleBlockPipelineIsSha256 := by
  intro s r msg hlen hrom hr hblock
  obtain ⟨r2, r3, hexpand, hcompress, hhash, -⟩ := layer_ref s.bind.layer r hblock
  rw [Lane.setSchedule_schedule] at hexpand
  rw [← hrom] at hexpand hcompress
  have hr1 := State.setLane_getElem?_same hr (initIvLayer s.rom s.bind.layer r)
  have hr2 := State.setLane_getElem?_same hr1 r2
  exact ⟨_, _, _, r3, _, execInitIv_next hr, onLane_next hr1 hexpand, onLane_next hr2 hcompress,
    State.setLane_getElem?_same hr2 r3, hhash, (Ref.sha256_of_length_le hlen).symm⟩

end Sys2Proof.Machine
end

section
/-! SUPPORT. The PoW layer (43_pow_layer.md R115, R116, R118): its digest with the frame of `POW_HASH`, the digest as
SHA-256 of bytes, and that no operation depends on header word 11. -/

namespace Sys2Proof.Machine

/-! ## The PoW digest -/

/-- The raw block of the PoW layer, part by part: word 11 of the header is left out (R115, R116). -/
theorem State.powWords_eq (s : State) (n : Word) :
    s.powWords n = s.headerWords 8 3 ++ [n] ++ s.headerWords 12 9 ++ powPadTable.toList := rfl

/-- Settles O25: `powHashLane_dg` gives the digest and the schedule, `powHashLane_changesOnly` what is left alone. -/
theorem powHashAnswersThePowDigest : Obligations.PowHashAnswersThePowDigest := by
  refine ⟨decode_encode_of_wf (i := .powHash) rfl, fun s r n hr hrom hw hn => ?_⟩
  obtain ⟨r', hpow, hhp, hwp⟩ := powHashLane_dg hrom hw hn
  have kept := powHashLane_changesOnly hpow
  exact ⟨r', onLane_next hr hpow, hhp, s.powWords_eq n ▸ hwp, kept .hc (by decide), kept .wc (by decide),
    kept .nonce (by decide), kept .j (by decide), kept .lid (by decide), kept .hit (by decide),
    kept .lseq (by decide)⟩

/-! ## The digest over bytes -/

/-- Four bytes of a word put together again, most significant first. -/
theorem append_bytes_eq (w : Word) :
    (w.extractLsb' 24 8 ++ w.extractLsb' 16 8 ++ w.extractLsb' 8 8 ++ w.extractLsb' 0 8 : BitVec (8 + 8 + 8 + 8)) =
      w := by
  rw [BitVec.extractLsb'_append_extractLsb'_eq_extractLsb' (show 24 = 16 + 8 from rfl),
    BitVec.extractLsb'_append_extractLsb'_eq_extractLsb' (show 16 = 8 + 8 from rfl),
    BitVec.extractLsb'_append_extractLsb'_eq_extractLsb' (show 8 = 0 + 8 from rfl)]
  exact BitVec.extractLsb'_eq_self

/-- Reading words from serialised words gives these words back. -/
theorem Ref.wordAt_serialise (m : List Word) (k : Nat) : Ref.wordAt (Ref.serialise m) k = m.getD k 0 := by
  induction m generalizing k with
  | nil => simp [Ref.wordAt, Ref.serialise]
  | cons w ws ih =>
    cases k with
    | zero => exact append_bytes_eq w
    | succ k => exact ih k

/-- A serialised block read word by word is the block. -/
theorem Ref.map_wordAt_serialise (m : List Word) :
    (List.range m.length).map (Ref.wordAt (Ref.serialise m)) = m :=
  List.ext_getElem (by simp) fun k _ hk => by
    rw [List.getElem_map, List.getElem_range, Ref.wordAt_serialise, List.getD_eq_getElem m 0 hk]

@[simp] theorem Ref.serialise_append (m m' : List Word) :
    Ref.serialise (m ++ m') = Ref.serialise m ++ Ref.serialise m' := List.flatMap_append

/-- SHA-256's padding of thirteen words is `POWPAD` (10_state.md R32). -/
theorem Ref.padded_serialise {m : List Word} (h : m.length = 13) :
    Ref.padded (Ref.serialise m) = Ref.serialise (m ++ powPadTable.toList) := by
  rw [Ref.padded, Ref.length_serialise, h, Ref.serialise_append, List.append_assoc, List.append_assoc]
  rfl

/-- SHA-256 of thirteen words is one compression of them and `POWPAD`. -/
theorem Ref.sha256_serialise {m : List Word} (h : m.length = 13) :
    Ref.sha256 (Ref.serialise m) =
      Ref.serialise (Ref.compress ivTable (Ref.expand (m ++ powPadTable.toList))).toList := by
  have hlen : (m ++ powPadTable.toList).length = 16 := by rw [List.length_append, h]; rfl
  rw [Ref.sha256_of_length_le (by rw [Ref.length_serialise, h]; decide), Ref.padded_serialise h, ← hlen,
    Ref.map_wordAt_serialise]

/-- Settles O26: the digest is the compression `Ref.sha256_serialise` speaks of. -/
theorem powDigestIsSha256OfTheBase : Obligations.PowDigestIsSha256OfTheBase := by
  intro s r n hr hrom hw hn
  obtain ⟨r', hpow, hhp, -⟩ := powHashLane_dg hrom hw hn
  have hlen : (s.headerWords 8 3 ++ [n] ++ s.headerWords 12 9).length = 13 := by simp [State.headerWords]
  exact ⟨r', s.dg n, onLane_next hr hpow, hhp, (Ref.sha256_serialise hlen).symm⟩

/-! ## Header word 11 -/

/-- Two header buffers that differ in the contents of word 11 at most. -/
structure Buffer.AgreeButEleven (b b' : Buffer) : Prop where
  base : b'.base = b.base
  words : b'.words = b.words
  read : ∀ k, k ≠ 11 → b'.read k = b.read k

/-- Writing word 11 gives such a buffer. -/
theorem Buffer.agreeButEleven_write {b : Buffer} (h : b.wf = true) (v : Word) :
    b.AgreeButEleven { b with cells := Memory.write b.cells 11 v } where
  base := rfl
  words := rfl
  read k hk := by simp only [Buffer.read, Memory.read_write_ne v (Buffer.cells_wf h) hk]

/-- The state with another header buffer. -/
def State.withHdr (s : State) (b : Buffer) : State := { s with hdr := b }

/-- An operation `onLane` does the same whatever the header buffer, which it leaves alone. -/
theorem onLane_withHdr {s t : State} {op : Lane → Except Fault Lane} (b : Buffer) (h : onLane s op = .next t) :
    onLane (s.withHdr b) op = .next (t.withHdr b) := by
  obtain ⟨r, r', hr, hop, rfl⟩ := onLane_eq_next.1 h
  exact onLane_eq_next.2 ⟨r, r', hr, hop, rfl⟩

/-- The same for an operation `onLaneOut`. -/
theorem onLaneOut_withHdr {s t : State} {op : Lane → Buffer → Except Fault (Lane × Buffer)} (b : Buffer)
    (h : onLaneOut s op = .next t) : onLaneOut (s.withHdr b) op = .next (t.withHdr b) := by
  obtain ⟨r, r', out', hr, hop, rfl⟩ := onLaneOut_eq_next.1 h
  exact onLaneOut_eq_next.2 ⟨r, r', out', hr, hop, rfl⟩

namespace Buffer.AgreeButEleven

section
variable {b b' : Buffer} (h : b.AgreeButEleven b')
include h

/-- A load that leaves out word 11 gives the same schedule. -/
theorem loadHeader_eq {start : Nat} {ks : List Nat} (hks : ∀ k ∈ ks, start + k ≠ 11) :
    loadHeader b' start ks = loadHeader b start ks := by
  induction ks with
  | nil => rfl
  | cons k ks ih =>
    funext w
    rw [loadHeader, loadHeader, h.read _ (hks k List.mem_cons_self),
      ih fun k' hk' => hks k' (List.mem_cons_of_mem k hk')]

/-- The PoW layer reads words 8, 9, 10 and 12 to 20 (R115). -/
theorem powHashLane_eq (rom : Rom) : powHashLane rom b' = powHashLane rom b := by
  have hload := h.loadHeader_eq (start := 8) (ks := [0, 1, 2, 4, 5, 6, 7, 8, 9, 10, 11, 12]) (by decide)
  funext r
  simp only [powHashLane, powBlock, hload]

/-- The chain layer reads words 0 to 7 (44_chain_layer.md R124). -/
theorem chainHashLane_eq (rom : Rom) : chainHashLane rom b' = chainHashLane rom b := by
  have hload := h.loadHeader_eq (start := 0) (ks := [0, 1, 2, 3, 4, 5, 6, 7]) (by decide)
  funext r
  simp only [chainHashLane, chainBlock, hload]

end

section
variable {s : State} {b : Buffer} (h : s.hdr.AgreeButEleven b)
include h

theorem trialLane_eq : trialLane (s.withHdr b) = trialLane s := by
  funext r out
  simp only [trialLane, State.withHdr, h.powHashLane_eq, h.chainHashLane_eq]

theorem trialsFirst_eq (n : Nat) : trialsFirst (s.withHdr b) n = trialsFirst s n := by
  induction n with
  | zero => rfl
  | succ n ih =>
    funext r out
    simp only [trialsFirst, trialAt, ih, h.trialLane_eq]

theorem laneRunLane_eq : laneRunLane (s.withHdr b) = laneRunLane s := by
  funext r out
  simp only [laneRunLane, h.trialsFirst_eq]
  rfl

theorem launchFailure_eq : launchFailure (s.withHdr b) = launchFailure s := by
  simp only [launchFailure, State.withHdr, h.base, h.words]

/-- Every operation that answers answers the same with a header buffer that differs in word 11 at most. -/
theorem exec_withHdr {i : Instr} {t : State} (hexec : exec i s = .next t) :
    exec i (s.withHdr b) = .next (t.withHdr b) := by
  cases i with
  | powHash =>
    simp only [exec, execPowHash] at hexec ⊢
    exact h.powHashLane_eq s.rom ▸ onLane_withHdr b hexec
  | chainHash =>
    simp only [exec, execChainHash] at hexec ⊢
    exact h.chainHashLane_eq s.rom ▸ onLane_withHdr b hexec
  | trial =>
    simp only [exec, execTrial, h.trialLane_eq] at hexec ⊢
    exact onLaneOut_withHdr b hexec
  | laneRun =>
    simp only [exec, execLaneRun, h.laneRunLane_eq] at hexec ⊢
    exact onLaneOut_withHdr b hexec
  | record =>
    simp only [exec, execRecord] at hexec
    exact onLaneOut_withHdr b hexec
  | launch =>
    obtain ⟨hadm, rfl⟩ := execLaunch_eq_next.1 hexec
    exact execLaunch_eq_next.2 ⟨h.launchFailure_eq.trans hadm, rfl⟩
  | padgen =>
    simp only [exec] at hexec ⊢
    obtain ⟨w, hw, rfl⟩ := execPadgen_eq_next.1 hexec
    exact execPadgen_eq_next.2 ⟨w, hw, rfl⟩
  | expandStep k =>
    simp only [exec, execExpandStep] at hexec ⊢
    split at hexec
    · rename_i hk
      exact (if_pos hk).trans (onLane_withHdr b hexec)
    · cases hexec
  | initIv =>
    simp only [exec, execInitIv] at hexec
    exact onLane_withHdr b hexec
  | _ => exact onLane_withHdr b hexec

end

end Buffer.AgreeButEleven

/-- Settles O29: a write to word 11 leaves every header word that some operation reads. -/
theorem headerWordElevenHasNoEffect : Obligations.HeaderWordElevenHasNoEffect :=
  fun _ _ _ v hwf hexec => (Buffer.agreeButEleven_write hwf v).exec_withHdr hexec

end Sys2Proof.Machine
end

section
/-! SUPPORT. The chain layer (44_chain_layer.md R121 to R123): its digest with the frame of `CHAIN_HASH`, and the digest
as SHA-256 of bytes in two blocks. -/

namespace Sys2Proof.Machine

/-! ## The final digest -/

/-- Settles O27: `chainHashLane_chain` gives the digest and the schedule, `chainHashLane_changesOnly` what is left
alone. -/
theorem chainHashAnswersTheFinalDigest : Obligations.ChainHashAnswersTheFinalDigest := by
  refine ⟨decode_encode_of_wf (i := .chainHash) rfl, fun s r d hr hrom hw hd => ?_⟩
  obtain ⟨r', hchain, hhc, hwc⟩ := chainHashLane_chain hrom hw hd
  have kept := chainHashLane_changesOnly hchain
  exact ⟨r', onLane_next hr hchain, hhc, hwc, kept .hp (by decide), kept .wp (by decide), kept .nonce (by decide),
    kept .j (by decide), kept .lid (by decide), kept .hit (by decide), kept .lseq (by decide)⟩

/-! ## The digest over bytes -/

/-- Words read from inside serialised words, after the words `p` and up to the words `q`. -/
theorem Ref.map_wordAt_serialise_append (p m q : List Word) :
    ((List.range m.length).map fun i => Ref.wordAt (Ref.serialise (p ++ m ++ q)) (p.length + i)) = m :=
  List.ext_getElem (by simp) fun k _ hk => by
    rw [List.getElem_map, List.getElem_range, Ref.wordAt_serialise, List.append_assoc,
      List.getD_append_right _ _ _ _ (Nat.le_add_right _ _), Nat.add_sub_cancel_left, List.getD_append _ _ _ _ hk,
      List.getD_eq_getElem m 0 hk]

/-- One more block of a serialised message is one compression over the words of that block. -/
theorem Ref.afterBlocks_succ_serialise {p b : List Word} {n : Nat} (hp : p.length = 16 * n) (hb : b.length = 16)
    (q : List Word) :
    Ref.afterBlocks (Ref.serialise (p ++ b ++ q)) (n + 1) =
      Ref.compress (Ref.afterBlocks (Ref.serialise (p ++ b ++ q)) n) (Ref.expand b) := by
  rw [Ref.afterBlocks, ← hp, ← hb, Ref.map_wordAt_serialise_append]

/-- SHA-256's padding of sixteen words is `PADRAW`, a block of its own (10_state.md R33). -/
theorem Ref.padded_serialise_block {m : List Word} (h : m.length = 16) :
    Ref.padded (Ref.serialise m) = Ref.serialise (m ++ padRawTable.toList) := by
  rw [Ref.padded, Ref.length_serialise, h, Ref.serialise_append, List.append_assoc, List.append_assoc]
  rfl

/-- SHA-256 of sixteen words is a compression of them and then one of `PADRAW`, from the first one's hash state. -/
theorem Ref.sha256_serialise_block {m : List Word} (h : m.length = 16) :
    Ref.sha256 (Ref.serialise m) = Ref.serialise
      (Ref.compress (Ref.compress ivTable (Ref.expand m)) (Ref.expand padRawTable.toList)).toList := by
  have htwo : (Ref.serialise (m ++ padRawTable.toList)).length / 64 = 2 := by simp [h]
  have hfirst : Ref.afterBlocks (Ref.serialise (m ++ padRawTable.toList)) 1 =
      Ref.compress ivTable (Ref.expand m) :=
    Ref.afterBlocks_succ_serialise (p := []) (n := 0) rfl h padRawTable.toList
  have hsecond := Ref.afterBlocks_succ_serialise (n := 1) h (Vector.length_toList (xs := padRawTable)) []
  rw [List.append_nil, hfirst] at hsecond
  rw [Ref.sha256, Ref.padded_serialise_block h, htwo, hsecond]

/-- Settles O28: the digest is the two compressions `Ref.sha256_serialise_block` speaks of. -/
theorem finalDigestIsSha256OfTheChainMessage : Obligations.FinalDigestIsSha256OfTheChainMessage := by
  intro s r d hr hrom hw hd
  obtain ⟨r', hchain, hhc, -⟩ := chainHashLane_chain hrom hw hd
  have hlen : (s.headerWords 0 8 ++ d.toList).length = 16 := by simp [State.headerWords]
  exact ⟨r', Ref.chain (s.headerWords 0 8) d, onLane_next hr hchain, hhc, (Ref.sha256_serialise_block hlen).symm⟩

end Sys2Proof.Machine
end

section
/-! SUPPORT. The operations of a trial and of a lane's share (45_search_loop.md R126 to R131): what each answers, the
nonces of the trials, and that a trial does not depend on the other lanes. -/

namespace Sys2Proof.Machine

/-! ## The nonces of the trials -/

/-- `NONCE_GEN` on a lane with `J` written (R126). -/
theorem execNonceGen_next {s : State} {r : Lane} {j : Nat} (hr : s.lanes[s.bind.lane]? = some r)
    (hj : r.j = .holds j) : execNonceGen s = .next (s.setLane s.bind.lane
      { r with nonce := .holds (nonceOf s.cfg s.offset r.lid j) }) :=
  onLane_next hr (nonceGenLane_eq_ok.2 ⟨j, hj, rfl⟩)

/-- Settles O30: `BitVec.ofNat` takes the sum modulo 2^32. -/
theorem nonceGenComputesTheTrialNonce : Obligations.NonceGenComputesTheTrialNonce :=
  ⟨decode_encode_of_wf (i := .nonceGen) rfl, fun s r j hr hj =>
    ⟨nonceOf s.cfg s.offset r.lid j, BitVec.toNat_ofNat .., execNonceGen_next hr hj⟩⟩

/-- The nonce of trial `j` of lane `l` is as far from `OFFSET` as the trial's number in the batch (R129). -/
theorem nonceOf_eq_add (cfg : Params) (offset : Word) (l j : Nat) :
    nonceOf cfg offset l j = offset + BitVec.ofNat 32 (l * cfg.iters + j) := by
  rw [nonceOf, Nat.add_assoc, BitVec.ofNat_add, BitVec.ofNat_toNat, BitVec.setWidth_eq]

/-- A trial's number in the batch is below the number of trials. -/
theorem trialNumber_lt {lanes iters l j : Nat} (hl : l < lanes) (hj : j < iters) : l * iters + j < lanes * iters :=
  calc l * iters + j < l * iters + iters := Nat.add_lt_add_left hj _
    _ = (l + 1) * iters := (Nat.succ_mul l iters).symm
    _ ≤ lanes * iters := Nat.mul_le_mul_right iters hl

/-- A trial's number in the batch determines its lane and its place there. -/
theorem trialNumber_inj {iters l j l' j' : Nat} (hj : j < iters) (hj' : j' < iters)
    (h : l * iters + j = l' * iters + j') : l = l' ∧ j = j' := by
  have hpos : 0 < iters := Nat.zero_lt_of_lt hj
  obtain ⟨hl, hm⟩ := (Nat.div_mod_unique (a := l * iters + j) (d := l) hpos).2 ⟨by ring, hj⟩
  obtain ⟨hl', hm'⟩ := (Nat.div_mod_unique (a := l * iters + j) (d := l') hpos).2 ⟨by rw [h]; ring, hj'⟩
  exact ⟨hl.symm.trans hl', hm.symm.trans hm'⟩

/-- Trials whose numbers are below 2^32 with the same nonce are one trial. -/
theorem nonceOf_inj {cfg : Params} {offset : Word} {l j l' j' : Nat} (hsize : cfg.lanes * cfg.iters ≤ 2 ^ 32)
    (hl : l < cfg.lanes) (hj : j < cfg.iters) (hl' : l' < cfg.lanes) (hj' : j' < cfg.iters)
    (h : nonceOf cfg offset l j = nonceOf cfg offset l' j') : l = l' ∧ j = j' := by
  rw [nonceOf_eq_add, nonceOf_eq_add, BitVec.add_right_inj] at h
  have hnum := congrArg BitVec.toNat h
  rw [BitVec.toNat_ofNat, BitVec.toNat_ofNat, Nat.mod_eq_of_lt ((trialNumber_lt hl hj).trans_le hsize),
    Nat.mod_eq_of_lt ((trialNumber_lt hl' hj').trans_le hsize)] at hnum
  exact trialNumber_inj hj hj' hnum

/-- Settles O31: trial number `m` is trial `m % ITERS` of lane `m / ITERS`. -/
theorem laneRangesCoverConsecutiveNonces : Obligations.LaneRangesCoverConsecutiveNonces := by
  refine fun s => ⟨fun r j => execNonceGen_next, nonceOf_eq_add s.cfg s.offset,
    fun l j => (nonceOf_eq_nonceAt s l j).symm, fun m hm => ?_,
    fun hsize l j l' j' => nonceOf_inj hsize⟩
  have hpos : 0 < s.cfg.iters := Nat.pos_of_mul_pos_left (Nat.zero_lt_of_lt hm)
  refine ⟨m / s.cfg.iters, m % s.cfg.iters, Nat.div_lt_of_lt_mul (Nat.mul_comm _ _ ▸ hm), Nat.mod_lt m hpos, ?_⟩
  rw [nonceOf_eq_add, Nat.div_add_mod']

/-! ## `TEST` and `RECORD` -/

/-- The default predicate judges by the digest's last word (00_scope.md R9). -/
theorem predHolds_lastWordZero (fd : Vector Word 8) : predHolds .lastWordZero fd = true ↔ fd[7] = 0#32 :=
  decide_eq_true_iff

/-- Settles O32: the verdict is `predHolds` of the digest. -/
theorem testJudgesTheFinalDigest : Obligations.TestJudgesTheFinalDigest :=
  ⟨decode_encode_of_wf (i := .test) rfl, fun s _ fd hr hfd =>
    ⟨predHolds s.cfg.pred fd, rfl, fun hp => hp ▸ predHolds_lastWordZero fd,
      onLane_next hr (testLane_eq_ok.2 ⟨fd, hfd, rfl⟩)⟩⟩

/-- Putting a lane back as it is changes nothing. -/
theorem State.setLane_self {s : State} {l : Nat} {r : Lane} (hr : s.lanes[l]? = some r) : s.setLane l r = s := by
  obtain ⟨hl, rfl⟩ := List.getElem?_eq_some_iff.1 hr
  rw [State.setLane, List.set_getElem_self]

/-- `RECORD` answers with its recording and no other change. -/
theorem execRecord_next {s : State} {r : Lane} {out' : Buffer} (hr : s.lanes[s.bind.lane]? = some r)
    (h : recordLane s.cfg r s.out = .ok out') : execRecord s = .next { s with out := out' } :=
  (execRecord_eq_next hr).2 ⟨out', h, by rw [State.setLane_self hr]⟩

/-- Settles O33: the two cases of `recordLane_eq_ok`, whose slot is the nonce modulo 128. -/
theorem recordWritesTheFlagAndTheSlot : Obligations.RecordWritesTheFlagAndTheSlot := by
  refine ⟨decode_encode_of_wf (i := .record) rfl, fun s r hr => ⟨fun hmiss => ?_, fun n hhit hn hw => ?_⟩⟩
  · exact execRecord_next hr (recordLane_eq_ok.2 (.inl ⟨hmiss, rfl⟩))
  · have hflag : foundSlot < s.out.words := hw
    rw [← slotOf_eq_mod]
    exact execRecord_next hr (recordLane_eq_ok.2 (.inr ⟨hhit, n, hn, hflag, (slotOf_lt n).trans hflag, rfl⟩))

/-! ## `TRIAL` -/

/-- Settles O34: the values are those of `trialLane_ref`, and `trialLane_changesOnly` gives what is left alone. -/
theorem trialComputesTheFinalDigest : Obligations.TrialComputesTheFinalDigest := by
  refine ⟨decode_encode_of_wf (i := .trial) rfl, ?_⟩
  rintro s r j n hr hrom hw ho hj rfl
  obtain ⟨r', htrial, hresult⟩ := trialLane_ref hrom hw ho hj
  rw [← nonceOf_eq_nonceAt] at htrial hresult
  obtain ⟨hnonce, hhp, hhc, hhit⟩ := hresult
  have kept := trialLane_changesOnly htrial
  exact ⟨r', (onLaneOut_eq_next_of_lane hr).2 ⟨r', _, htrial, rfl⟩, hnonce, hhp, hhc, hhit, kept .j (by decide),
    kept .lid (by decide), kept .lseq (by decide)⟩

/-- What a trial reads of the state beside its lane: the parameters, the tables, `OFFSET` and `HDR` (R130). -/
theorem trialLane_congr {s s' : State} (hcfg : s'.cfg = s.cfg) (hrom : s'.rom = s.rom) (hoffset : s'.offset = s.offset)
    (hhdr : s'.hdr = s.hdr) : trialLane s' = trialLane s := by
  funext r out
  simp only [trialLane, hcfg, hrom, hoffset, hhdr]

/-- Settles O40: the trial records the same hits over either buffer and answers the same lane. -/
theorem trialsDoNotDependOnOtherLanes : Obligations.TrialsDoNotDependOnOtherLanes := by
  intro s s' t hcfg hrom hoffset hhdr hbind hwords hlane h
  obtain ⟨r, r', out', hr, htrial, rfl⟩ := onLaneOut_eq_next.1 h
  obtain ⟨ns, -, hhits⟩ := trialLane_recordsHits htrial
  have hr' : s'.lanes[s'.bind.lane]? = some r := by rw [hbind, hlane, hr]
  have htrial' := hhits s'.out hwords
  rw [← trialLane_congr hcfg hrom hoffset hhdr] at htrial'
  refine ⟨_, (onLaneOut_eq_next_of_lane hr').2 ⟨r', _, htrial', rfl⟩, ?_⟩
  rw [← hbind]
  exact (State.setLane_getElem?_same hr' r').trans (hbind ▸ State.setLane_getElem?_same hr r').symm

/-! ## `LANE_RUN` -/

/-- The registers of a lane hold the values of trial `j` of lane `l` (R130). -/
def State.TrialValues (s : State) (l j : Nat) (r : Lane) : Prop :=
  r.j = .holds j ∧ r.nonce = .holds (s.nonceAt l j) ∧ r.hp = hashHolding (s.dg (s.nonceAt l j)) ∧
    r.hc = hashHolding (s.fd (s.nonceAt l j)) ∧ r.hit = .holds (s.hits (s.nonceAt l j))

/-- One pass of a lane's loop (R131): the trial of R130 with `J` set. -/
theorem trialAt_ref {s : State} (j : Nat) (r : Lane) {out : Buffer} (hrom : s.rom = romStandard)
    (hw : 21 ≤ s.hdr.words) (ho : 129 ≤ out.words) :
    ∃ r', trialAt s j r out = .ok (r', { out with cells := s.recorded (s.nonceAt r.lid j) out.cells }) ∧
      s.TrialValues r.lid j r' := by
  obtain ⟨r', htrial, hvalues⟩ := trialLane_ref (r := { r with j := .holds j, lseq := .run j }) hrom hw ho rfl
  exact ⟨r', htrial, trialLane_changesOnly htrial .j (by decide), hvalues⟩

/-- The first trials of a lane leave `OUT` with their records in order, and the lane with the values of the last one;
with no trial the lane is as it was (R131). -/
theorem trialsFirst_ref {s : State} (r : Lane) {out : Buffer} (hrom : s.rom = romStandard)
    (hw : 21 ≤ s.hdr.words) (ho : 129 ≤ out.words) (n : Nat) :
    ∃ r', trialsFirst s n r out = .ok (r', { out with cells := s.recordedFirst r.lid n out.cells }) ∧
      (∀ j, n = j + 1 → s.TrialValues r.lid j r') ∧ (n = 0 → r' = r) := by
  induction n with
  | zero => exact ⟨r, rfl, nofun, fun _ => rfl⟩
  | succ n ih =>
    obtain ⟨q, hfirst, -⟩ := ih
    obtain ⟨r', hlast, hvalues⟩ :=
      trialAt_ref n q (out := { out with cells := s.recordedFirst r.lid n out.cells }) hrom hw ho
    have hlid : q.lid = r.lid := trialsFirst_lid hfirst
    rw [hlid] at hlast hvalues
    exact ⟨r', trialsFirst_succ_eq_ok.2 ⟨_, hfirst, hlast⟩, fun j hj => Nat.succ.inj hj ▸ hvalues, nofun⟩

/-- Settles O35: `LANE_RUN` is the ITERS trials of `trialsFirst_ref`, and then `LSEQ <- Done`. -/
theorem laneRunPerformsEveryTrial : Obligations.LaneRunPerformsEveryTrial := by
  refine ⟨decode_encode_of_wf (i := .laneRun) rfl, fun s r hr hrom hw ho => ?_⟩
  obtain ⟨r', htrials, hlast, hnone⟩ := trialsFirst_ref r hrom hw ho s.cfg.iters
  have hrun := laneRunLane_eq_ok.2 ⟨r', htrials, rfl⟩
  exact ⟨{ r' with lseq := .done }, (onLaneOut_eq_next_of_lane hr).2 ⟨_, _, hrun, rfl⟩, rfl, laneRunLane_lid hrun,
    hlast, fun hzero => by rw [hnone hzero]⟩

end Sys2Proof.Machine
end

section
/-! SUPPORT. A batch (45_search_loop.md R132, R133, R135 to R137, R140): its launch, its completion after exactly the
trials left, and what the host may rely on over a zeroed output buffer. -/

namespace Sys2Proof.Machine

/-! ## Launch -/

/-- Settles O41: admission is `launchFailure_eq_none`, and what is not admitted fails some condition. -/
theorem launchStartsABatch : Obligations.LaunchStartsABatch := by
  refine ⟨decode_encode_of_wf (i := .launch) rfl, fun s hphase hconf => ?_, fun s hnot => ?_⟩
  · refine ⟨s.lanes.map (launchLane s.cfg), execLaunch_eq_next.2 ⟨launchFailure_eq_none.2 ⟨hphase, hconf⟩, rfl⟩,
      List.length_map _, fun l r hr => ?_⟩
    rw [List.getElem?_map, hr]
    rfl
  · obtain ⟨c, hc⟩ := Option.ne_none_iff_exists'.1 fun hnone => hnot (launchFailure_eq_none.1 hnone)
    exact ⟨c, by simp only [exec, execLaunch, hc]⟩

/-! ## Completion -/

/-- With every lane done a step of the batch completes it (R133). -/
theorem batchStep_of_done {s : State} (hdone : ∀ r ∈ s.lanes, r.lseq = .done) (c : Nat) :
    batchStep c s = .next { s with phase := .done } := by
  have hall : s.lanes.all Lane.isDone = true := by simpa [Lane.isDone] using hdone
  rw [batchStep, if_pos hall]

/-- Settles O43: the step is the lanes', which completes the batch. -/
theorem batchCompletesWhenEveryLaneIsDone : Obligations.BatchCompletesWhenEveryLaneIsDone := by
  intro s hrun hq hdone
  rw [step_of_hostQuiet hrun hq]
  exact batchStep_of_done (s := { s with tick := s.tick + 1 }) hdone _

/-- While a lane of a running batch is not done, a step performs a trial, whatever the platform chooses. -/
theorem batchStep_trial {s : State} (hinv : s.inv) (hrun : s.phase = .running)
    (hmore : ¬ ∀ r ∈ s.lanes, r.lseq = .done) (c : Nat) :
    ∃ l j r r', batchStep c s = .next (s.afterTrial l j r') ∧ s.TrialNext l j r r' := by
  cases hpick : pick (unfinished 0 s.lanes) c with
  | none =>
    push Not at hmore
    obtain ⟨q, hmem, hnd⟩ := hmore
    obtain ⟨k, hq⟩ := List.mem_iff_getElem?.1 hmem
    obtain ⟨_, _, _, -, hnext⟩ := exists_batchStep_of_lane hinv hrun hq hnd
    have hoffered := mem_unfinished_of_run hq hnext.run 0
    rw [pick_eq_none hpick] at hoffered
    cases hoffered
  | some l =>
    obtain ⟨r, j, -, hr, hj⟩ := mem_unfinished (mem_of_pick hpick)
    obtain ⟨r', hstep, hnext⟩ := laneStep_afterTrial hinv hrun hr hj
    exact ⟨l, j, r, r', by simp only [batchStep, not_all_isDone_of_run hr hj, hpick]; exact hstep, hnext⟩

/-- No trial is left in a running batch exactly when every lane is done. -/
theorem State.remaining_eq_zero_iff {s : State} (hinv : s.inv) (hrun : s.phase = .running) :
    s.remaining = 0 ↔ ∀ r ∈ s.lanes, r.lseq = .done := by
  obtain ⟨-, -, -, -, hseq, hbatch⟩ := hinv
  have hlane : ∀ r ∈ s.lanes, r.lseq.trialsLeft s.cfg.iters = 0 ↔ r.lseq = .done := by
    intro r hr
    have hrange := hseq r hr
    have hidle := (hbatch hrun).2 r hr
    cases hq : r.lseq with
    | idle => exact absurd hq hidle
    | run j =>
      have hj : j < s.cfg.iters := by simpa [hq, LaneSeq.inRange] using hrange
      simp only [LaneSeq.trialsLeft, reduceCtorEq, iff_false]
      omega
    | done => simp [LaneSeq.trialsLeft]
  rw [State.remaining_eq, List.sum_eq_zero_iff, List.forall_mem_map]
  exact forall₂_congr hlane

/-- A batch runs and nothing is asked for. -/
structure State.BatchAlone (s : State) : Prop where
  inv : s.inv
  running : s.phase = .running
  quiet : s.pending = []

/-- A step of a batch with a trial left performs one. -/
theorem State.BatchAlone.step_trial {s : State} (h : s.BatchAlone) (hmore : s.remaining ≠ 0) :
    ∃ t, step s = .next t ∧ t.BatchAlone ∧ s.remaining = t.remaining + 1 := by
  have hmore' := mt (State.remaining_eq_zero_iff h.inv h.running).2 hmore
  obtain ⟨l, j, r, r', hstep, hnext⟩ :=
    batchStep_trial (s := { s with tick := s.tick + 1 }) h.inv h.running hmore' (Config.laneChoice s.tick)
  exact ⟨_, (step_of_hostQuiet h.running (.inl h.quiet)).trans hstep,
    ⟨hnext.inv h.inv h.running, h.running, h.quiet⟩, hnext.remaining_eq⟩

/-- A batch performs one trial a step while there are trials left. -/
theorem State.BatchAlone.run_trials {k : Nat} {s : State} (h : s.BatchAlone) (hk : k ≤ s.remaining) :
    ∃ t, core.run k s = .next t ∧ t.phase = .running ∧ t.remaining = s.remaining - k := by
  induction k generalizing s with
  | zero => exact ⟨s, rfl, h.running, rfl⟩
  | succ k ih =>
    obtain ⟨s1, hstep, h1, hleft⟩ := h.step_trial (by omega)
    obtain ⟨t, hrun, hphase, hremaining⟩ := ih h1 (by omega)
    exact ⟨t, core_run_succ_eq_next.2 ⟨s1, hstep, hrun⟩, hphase, by omega⟩

/-- A batch is over one step after its last trial. -/
theorem State.BatchAlone.run_to_done {n : Nat} {s : State} (h : s.BatchAlone) (hn : s.remaining = n) :
    ∃ t, core.run (n + 1) s = .next t ∧ t.phase = .done := by
  induction n generalizing s with
  | zero =>
    have hdone := (State.remaining_eq_zero_iff h.inv h.running).1 hn
    have hstep := batchCompletesWhenEveryLaneIsDone s h.running (.inl h.quiet) hdone
    exact ⟨_, core_run_succ_eq_next.2 ⟨_, hstep, rfl⟩, rfl⟩
  | succ n ih =>
    obtain ⟨s1, hstep, h1, hleft⟩ := h.step_trial (by omega)
    obtain ⟨t, hrun, hphase⟩ := ih h1 (by omega)
    exact ⟨t, core_run_succ_eq_next.2 ⟨s1, hstep, hrun⟩, hphase⟩

/-- Settles O50: each step is a trial while there is one, and then the batch completes. -/
theorem batchTerminates : Obligations.BatchTerminates := fun s hinv hrun hp =>
  have h : s.BatchAlone := ⟨hinv, hrun, hp⟩
  ⟨fun _ => h.run_trials, h.run_to_done rfl⟩

/-! ## What the host may rely on -/

/-- Settles O49: the final words of a batch over zeros, where the found value is not zero. -/
theorem batchGuarantee : Obligations.BatchGuarantee := by
  intro s t u n hinv hp hzero hlaunch hrun hdone
  obtain ⟨hslot, hset, hunset⟩ := finalWordsOfABatch s t u n hinv hp hlaunch hrun hdone
  have hflag : Memory.read u.out.cells 128 ≠ 0#32 ↔
      ∃ l j, l < s.cfg.lanes ∧ j < s.cfg.iters ∧ t.hits (t.nonceAt l j) = true := by
    refine ⟨fun hne => ?_, fun hex => hset hex ▸ FoundValue.ne_zero s.cfg.foundValue⟩
    by_contra hnone
    refine hne ((hunset fun l j hl hj => ?_).trans (hzero 128 (by decide)))
    exact Bool.eq_false_iff.2 fun hhit => hnone ⟨l, j, hl, hj, hhit⟩
  /- The slot of a nonce that hits holds one that hits, of the same slot. -/
  have hheld : ∀ l j, l < s.cfg.lanes → j < s.cfg.iters → t.hits (t.nonceAt l j) = true →
      ∃ l' j', l' < s.cfg.lanes ∧ j' < s.cfg.iters ∧ t.hits (t.nonceAt l' j') = true ∧
        Memory.read u.out.cells ((t.nonceAt l j).toNat % 128) = t.nonceAt l' j' := by
    intro l j hl hj hhit
    obtain ⟨l', j', hl', hj', hhit', -, hread, -⟩ :=
      (hslot _ (Nat.mod_lt _ (by decide))).1 ⟨l, j, hl, hj, hhit, rfl⟩
    exact ⟨l', j', hl', hj', hhit', hread⟩
  refine ⟨hflag, fun k hk => ⟨fun hnone => ?_, fun hex => ?_⟩, fun hne => ?_, fun l j hl hj hhit honly => ⟨?_, ?_⟩⟩
  · exact ((hslot k hk).2 hnone).trans (hzero k (by omega))
  · obtain ⟨l, j, hl, hj, hhit, hk', hread, -⟩ := (hslot k hk).1 hex
    exact ⟨l, j, hl, hj, hhit, hk', hread⟩
  · obtain ⟨l, j, hl, hj, hhit⟩ := hflag.1 hne
    obtain ⟨l', j', -, -, hhit', hread⟩ := hheld l j hl hj hhit
    exact ⟨_, Nat.mod_lt _ (by decide), hread ▸ hhit'⟩
  · exact hflag.2 ⟨l, j, hl, hj, hhit⟩
  · obtain ⟨l', j', hl', hj', hhit', hread⟩ := hheld l j hl hj hhit
    exact hread.trans (honly l' j' hl' hj' hhit')

end Sys2Proof.Machine
end

section
/-! SUPPORT. The refusals of a launch, in the order of 60_exceptions.md R150. -/

namespace Sys2Proof.Machine

/-- A failing condition of admission is the one the refused launch names. -/
theorem exec_launch_refused {s : State} {c : LaunchCondition} (h : launchFailure s = some c) :
    exec .launch s = .refused (.launchContract c) := by
  simp only [exec, execLaunch, h]

/-- Settles O42: each condition is named where it fails and those before it in R150's order hold. -/
theorem launchIsRefusedOutsideItsContract : Obligations.LaunchIsRefusedOutsideItsContract := by
  refine fun s => ⟨fun hrun => ?phase, fun hidle hhdr => ?headerSize, fun hidle hhdr hout => ?outputSize,
    fun hidle hhdr hout hbase => ?placement⟩ <;> apply exec_launch_refused
  case phase => rw [launchFailure, if_pos hrun]
  case headerSize => rw [launchFailure, if_neg hidle, if_pos hhdr]
  case outputSize => rw [launchFailure, if_neg hidle, if_neg (not_not.2 hhdr), if_pos hout]
  case placement =>
    rw [launchFailure, if_neg hidle, if_neg (not_not.2 hhdr), if_neg (not_not.2 hout), if_pos hbase]

end Sys2Proof.Machine
end

section
/-! SUPPORT. What a reset gives (70_reset_and_hazards.md R161). -/

namespace Sys2Proof.Machine

/-- A request for a reset is served as one. -/
theorem step_reset {s : State} {rest : List Request} (h : s.pending = .reset :: rest) :
    step s = hostReset { s with pending := rest } := step_cons h

/-! ## `OUT` over a reset -/

@[simp] theorem abandonOut_base (tick : Nat) (b : Buffer) : (abandonOut tick b).base = b.base := rfl
@[simp] theorem abandonOut_words (tick : Nat) (b : Buffer) : (abandonOut tick b).words = b.words := rfl

/-- `OUT` after a reset: free values where it abandons a batch (log 11), else as it was. -/
def State.resetOut (s : State) : Buffer := if s.phase = .running then abandonOut s.tick s.out else s.out

@[simp] theorem State.resetOut_base (s : State) : s.resetOut.base = s.out.base := by
  simp only [State.resetOut, apply_ite Buffer.base, abandonOut_base, ite_self]

@[simp] theorem State.resetOut_words (s : State) : s.resetOut.words = s.out.words := by
  simp only [State.resetOut, apply_ite Buffer.words, abandonOut_words, ite_self]

theorem State.resetOut_of_not_running {s : State} (h : s.phase ≠ .running) : s.resetOut = s.out := if_neg h

/-- A reset puts `State.resetOf` over host memory, keeps what the host has asked and seen, and counts as a step. -/
theorem hostReset_eq (s : State) : hostReset s = .next { State.resetOf s.cfg s.hdr s.resetOut with
    pending := s.pending
    tick := s.tick + 1
    seenPhase := s.seenPhase
    result := s.result
    refusal := s.refusal } := rfl

/-- Settles O59: every field but `OUT` is that of `State.resetOf`, or kept; `OUT` keeps its place and its size, and
outside a batch its words too. -/
theorem resetGivesTheStateAfterReset : Obligations.ResetGivesTheStateAfterReset := by
  intro s rest h
  have hplace := State.resetOut_base { s with pending := rest }
  have hsize := State.resetOut_words { s with pending := rest }
  have hkept := State.resetOut_of_not_running (s := { s with pending := rest })
  exact ⟨_, (step_reset h).trans (hostReset_eq _), rfl, rfl, rfl, rfl, rfl, hplace, hsize, hkept, rfl⟩

end Sys2Proof.Machine
end
